-- ==== Sys2Proof/Word.lean ====
section
/-! DEFINITION. The words of WAVFLT (spec/00_scope.md R9): the byte of the external stream, the 32-bit word of the command,
buffer and response ports (R119), and the 64-bit pattern of one `NUM` value (R12, R123). -/

namespace Sys2Proof

/-- One byte of the external stream or of the header window (R71, R72). -/
abbrev Byte := BitVec 8

/-- One word of the command, buffer and response ports (R119, R122, R124). -/
abbrev Word := BitVec 32

/-- One `NUM` value: the bit pattern of an IEEE 754 binary64 number (R12, R123; decision D25). -/
abbrev Num64 := BitVec 64

/-- The kind of a crossover or of a bound stage (R56, R119 field `FLAG`): `LP` = 0, `HP` = 1. -/
inductive FilterKind where
  | lp
  | hp
  deriving DecidableEq, Repr, Inhabited

end Sys2Proof
end

