-- ==== Sys2Proof/Config.lean ====
section
/-! DEFINITION. What an implementation fixes (spec/00_scope.md R8), and the free values. The literals that the source states
are plain definitions; the four unaudited ones (R16, U1 to U3) are fields of `Params` with the source's value as default; the
OPEN parameters and the free values are opaque constants, of which nothing can be proved but their type. -/

namespace Sys2Proof

/-- The five coefficients of a stage (R32 registers 0 to 4), over any representation of "real". -/
structure Coef (α : Type) where
  b0 : α
  b1 : α
  b2 : α
  a1 : α
  a2 : α
  deriving DecidableEq, Repr, Inhabited

/-- Which test of the parser raised `UnrecognisedFormat` (R161, R282). -/
inductive Reject where
  | noRiff
  | noFmt
  | beyondWindow
  | noData
  | insideDataHeader
  | bitDepth
  | validBits
  | sampleRate
  | channelCount
  | sampleFormat
  deriving DecidableEq, Repr

/-- The unaudited literals, which "a model should take as a configuration field" (R16): U1, U2, U3. -/
structure Params where
  /-- `SR_BYTES`: how many bytes of the sample-rate field are read (R107, U1). -/
  srBytes : Nat := 2
  /-- `GUID_TAG_INDEX`: which byte of the format GUID selects the format (R111, U2). -/
  guidTagIndex : Nat := 3
  /-- `MASK8`: the mask of a legacy 8-channel container (R166, U3). -/
  mask8 : Word := 0x33F#32
  /-- `SPEAKER_TABLE`: the ordered speaker flags (R171, U3); its length is `N_FLAGS`. -/
  speakerTable : List Word := (List.range 18).map fun i => 1#32 <<< i
  deriving DecidableEq, Repr

/-- The values a replacement may take: SR_BYTES 2 or 4 (U1), GUID_TAG_INDEX 0 to 15 (U2), and a speaker table of distinct
single-bit values (U3). -/
def Params.legal (p : Params) : Bool :=
  (p.srBytes == 2 || p.srBytes == 4) && decide (p.guidTagIndex ≤ 15) && decide p.speakerTable.Nodup &&
    p.speakerTable.all fun w => (List.range 32).any fun i => w == 1#32 <<< i

namespace Config

/-- This hardware's values of the unaudited literals: the source's (R8). -/
def params : Params := {}

/-- `W_WIN`: how many leading stream bytes the parser sees (R8). -/
def winBytes : Nat := 1024

/-- `EXT_CODE`: the audio-format code that announces the extension block (R8). -/
def extCode : Nat := 0xFFFE

/-- `EXT_SIZE`: the only extra-size value for which the extension block is read (R8). -/
def extSize : Nat := 22

/-- `BITDEPTH_SET`: the legal container bit depths (R8). -/
def bitDepths : List Nat := [8, 16, 24, 32, 64, 128]

/-- `MIN_CAP`: the minimum stream buffer capacity (R8). -/
def minCap : Nat := 1024

/-- `MAX_STREAM_LEN`: the largest stream length accepted (R8). -/
def maxStreamLen : Nat := 2 ^ 31 - 1

/-- The open parameter behind `bufCapDefault`. -/
opaque bufCapRaw : Word

/-- `BUF_CAP_DEFAULT`: OPEN, any u32 value that is at least `MIN_CAP` (R8, D16). -/
def bufCapDefault : Word := if bufCapRaw.toNat < minCap then BitVec.ofNat 32 minCap else bufCapRaw

/-- The open parameter behind `nXF`. -/
opaque nXFRaw : Nat

/-- `N_XF`: OPEN, the number of crossovers, 1 to 128 (R8, R126). -/
def nXF : Nat := nXFRaw % 128 + 1

/-- `N_FS = 2 x N_XF` (R8, D33). -/
def nFS : Nat := 2 * nXF

/-- `DESIGN`: OPEN, "a total function from `{LP, HP} x NUM x NUM` to five `NUM` values, of which the model assumes only that
the result depends on these three arguments alone" (R224, U10). -/
opaque design : FilterKind → Num64 → Num64 → Coef Num64

/-- `REASON`: OPEN, the "human-readable reason" of a parse that is rejected, "if the implementation produces one" (R8, R122).
It may depend on the failing test, the window and the stream length, of which a parse is a function (R162). -/
opaque parseReason : Reject → List Byte → Nat → Option String

/-- `REASON` of an `HP.RESOLVE` that fails (R168), a function of the channel count, the one thing it then reads (R169). -/
opaque resolveReason : Nat → Option String

/-- Free value: the `n`-th drawn `NUM` value, any pattern at all (U7). -/
opaque freeNum : Nat → Num64

/-- Free value: the sign and payload bits of the `n`-th drawn NaN (U8). -/
opaque freeNaNBits : Nat → Num64

/-- Free value: whether the `n`-th `CS.WRITE` that may flush at its end does so (R197). -/
opaque earlyFlush : Nat → Bool

/-- Free value: which of the three widths of R124 (1, 2 or 4 words) a raw sample has on the buffer port while `C.state` is
`CLOSED`, where `MD.bitDepth` is unspecified (R60). -/
opaque closedWidth : Nat → Fin 3

end Config

end Sys2Proof
end

