-- ==== Sys2Proof/Syntax.lean ====
section
/-! DEFINITION. The 13 commands of spec/30_encoding.md R120, one constructor for each row of spec/opcode_table.json. The input
buffer of `CS.WRITE`, `FS.RUN` and `XF.APPLY` is not part of the command word or its operand words: it is taken from the buffer
port (R119, R124). -/

namespace Sys2Proof

/-- A command with its operands (R119 to R121, R129). Position codes, unit indices, lengths, counts and capacities are
numbers; `WellFormed` bounds each by the width of its field. -/
inductive Instr where
  /-- `HP.PARSE len` (R140). -/
  | hpParse (len : Nat)
  /-- `HP.RESOLVE` (R163). -/
  | hpResolve
  /-- `CS.BUILD [own] [cap=<n>]` (R181): `cap` is present when `CAPV` = 1. -/
  | csBuild (own : Bool) (cap : Option Nat)
  /-- `CS.ENUM` (R186). -/
  | csEnum
  /-- `CS.READ pos, count` (R189). -/
  | csRead (pos : Nat) (count : Nat)
  /-- `CS.WRITE pos, buffer` (R194): `len` is the operand `L`. -/
  | csWrite (pos : Nat) (len : Nat)
  /-- `CS.CLOSE pos` (R198). -/
  | csClose (pos : Nat)
  /-- `CS.DISPOSE` (R199). -/
  | csDispose
  /-- `FS.BIND s, kind, fs, fc` (R222). -/
  | fsBind (stage : Nat) (kind : FilterKind) (fs : Num64) (fc : Num64)
  /-- `FS.STEP s, x` (R230). -/
  | fsStep (stage : Nat) (x : Num64)
  /-- `FS.RUN s, buffer` (R235): `len` is the operand `L`. -/
  | fsRun (stage : Nat) (len : Nat)
  /-- `XF.INIT f, kind, fs` (R251). -/
  | xfInit (xover : Nat) (kind : FilterKind) (fs : Num64)
  /-- `XF.APPLY f, fc, buffer` (R254): `len` is the operand `L`. -/
  | xfApply (xover : Nat) (fc : Num64) (len : Nat)
  deriving DecidableEq, Repr

/-- The pseudo-commands (R130); they have no words of their own. -/
inductive Pseudo where
  /-- `OPEN len [own] [cap=<n>]`. -/
  | openStream (len : Nat) (own : Bool) (cap : Option Nat)
  /-- `XF.LP f, fs`. -/
  | xfLp (xover : Nat) (fs : Num64)
  /-- `XF.HP f, fs`. -/
  | xfHp (xover : Nat) (fs : Num64)
  deriving DecidableEq, Repr

/-- The commands a pseudo-command expands to, in issue order (R130); the host stops `OPEN` at the first that fails. -/
def Pseudo.expand : Pseudo → List Instr
  | .openStream len own cap => [.hpParse len, .hpResolve, .csBuild own cap]
  | .xfLp xover fs => [.xfInit xover .lp fs]
  | .xfHp xover fs => [.xfInit xover .hp fs]

end Sys2Proof
end

