-- ==== Sys2Proof/WellFormed.lean ====
section
/-! DEFINITION. Which commands have words: every field fits the width that spec/30_encoding.md R119 and R121 give it. -/

namespace Sys2Proof

/-- A value of the 8-bit field `IDX` (R119): a position code, a stage index or a crossover index. -/
def fitsIdx (n : Nat) : Bool := decide (n < 2 ^ 8)

/-- A value of one u32 operand word (R121). -/
def fitsWord (n : Nat) : Bool := decide (n < 2 ^ 32)

/-- Every field of the command fits its width (R119, R121). -/
def Instr.wellFormed : Instr → Bool
  | .hpParse len => decide (len < 2 ^ 64)
  | .hpResolve => true
  | .csBuild _ none => true
  | .csBuild _ (some cap) => fitsWord cap
  | .csEnum => true
  | .csRead pos count => fitsIdx pos && fitsWord count
  | .csWrite pos len => fitsIdx pos && fitsWord len
  | .csClose pos => fitsIdx pos
  | .csDispose => true
  | .fsBind stage _ _ _ => fitsIdx stage
  | .fsStep stage _ => fitsIdx stage
  | .fsRun stage len => fitsIdx stage && fitsWord len
  | .xfInit xover _ _ => fitsIdx xover
  | .xfApply xover _ len => fitsIdx xover && fitsWord len

/-- `wellFormed` as a proposition. -/
abbrev Instr.WellFormed (i : Instr) : Prop := i.wellFormed = true

end Sys2Proof
end

