-- ==== Sys2Proof/Decode.lean ====
section
/-! DEFINITION. The command port's decoder and encoder, from spec/30_encoding.md R119 to R121, R123 and R125. The decoder is
total on any list of port words: it answers a command with the words after it, an illegal word (a complete command of one word,
R125), or that the words of the command have not all arrived. -/

namespace Sys2Proof

/-- The 13 opcodes (R120). -/
inductive Opc where
  | hpParse | hpResolve
  | csBuild | csEnum | csRead | csWrite | csClose | csDispose
  | fsBind | fsStep | fsRun
  | xfInit | xfApply
  deriving DecidableEq, Repr

/-- One row of the command table (R120): a word `w` selects it when `(w AND mask) = pattern`. -/
structure OpcRow where
  opc : Opc
  pattern : Word
  mask : Word
  deriving DecidableEq, Repr

/-- The command table (R120, spec/opcode_table.json). -/
def opcTable : List OpcRow := [
  ⟨.hpParse, 0x01000000#32, 0xFFFFFFFF#32⟩,
  ⟨.hpResolve, 0x02000000#32, 0xFFFFFFFF#32⟩,
  ⟨.csBuild, 0x10000000#32, 0xFFFFFFFC#32⟩,
  ⟨.csEnum, 0x11000000#32, 0xFFFFFFFF#32⟩,
  ⟨.csRead, 0x12000000#32, 0xFF00FFFF#32⟩,
  ⟨.csWrite, 0x13000000#32, 0xFF00FFFF#32⟩,
  ⟨.csClose, 0x14000000#32, 0xFF00FFFF#32⟩,
  ⟨.csDispose, 0x15000000#32, 0xFFFFFFFF#32⟩,
  ⟨.fsBind, 0x20000000#32, 0xFF00FFFE#32⟩,
  ⟨.fsStep, 0x21000000#32, 0xFF00FFFF#32⟩,
  ⟨.fsRun, 0x22000000#32, 0xFF00FFFF#32⟩,
  ⟨.xfInit, 0x30000000#32, 0xFF00FFFE#32⟩,
  ⟨.xfApply, 0x31000000#32, 0xFF00FFFF#32⟩]

/-- Does the word select the row (R120)? -/
def OpcRow.selects (r : OpcRow) (w : Word) : Bool := w &&& r.mask == r.pattern

/-- The opcode whose row the word selects, if any (R120, R125). -/
def selectOpc (w : Word) : Option Opc := (opcTable.find? fun r => r.selects w).map (·.opc)

/-- Field `IDX`, bits 23:16 (R119). -/
def idxField (w : Word) : Nat := (w.extractLsb' 16 8).toNat

/-- Field `CAPV`, bit 1 (R119). -/
def capvField (w : Word) : Bool := w.getLsbD 1

/-- Field `FLAG`, bit 0 (R119). -/
def flagField (w : Word) : Bool := w.getLsbD 0

/-- The kind that `FLAG` names: 0 = `LP`, 1 = `HP` (R119). -/
def kindOfFlag (b : Bool) : FilterKind := if b then .hp else .lp

/-- A value that travels as two words, low 32 bits first (R121, R123). -/
def joinWords (lo hi : Word) : BitVec 64 := hi ++ lo

/-- The low word of such a value. -/
def lowWord (v : BitVec 64) : Word := v.extractLsb' 0 32

/-- The high word of such a value. -/
def highWord (v : BitVec 64) : Word := v.extractLsb' 32 32

/-- What the decoder answers. -/
inductive Decoded where
  /-- A command, and the port words after it. -/
  | instr (i : Instr) (rest : List Word)
  /-- A word that matches no row (R125), and the port words after it. -/
  | illegal (rest : List Word)
  /-- No command word yet, or operand words still to come. -/
  | incomplete
  deriving DecidableEq, Repr

/-- The command of an opcode, from its command word and the operand words that follow it (R120, R121). -/
def decodeOperands (o : Opc) (w : Word) (ws : List Word) : Decoded :=
  match o, ws with
  | .hpParse, lo :: hi :: rest => .instr (.hpParse (joinWords lo hi).toNat) rest
  | .hpResolve, rest => .instr .hpResolve rest
  | .csBuild, ws =>
    if capvField w then
      match ws with
      | cap :: rest => .instr (.csBuild (flagField w) (some cap.toNat)) rest
      | [] => .incomplete
    else .instr (.csBuild (flagField w) none) ws
  | .csEnum, rest => .instr .csEnum rest
  | .csRead, count :: rest => .instr (.csRead (idxField w) count.toNat) rest
  | .csWrite, len :: rest => .instr (.csWrite (idxField w) len.toNat) rest
  | .csClose, rest => .instr (.csClose (idxField w)) rest
  | .csDispose, rest => .instr .csDispose rest
  | .fsBind, fsLo :: fsHi :: fcLo :: fcHi :: rest =>
    .instr (.fsBind (idxField w) (kindOfFlag (flagField w)) (joinWords fsLo fsHi) (joinWords fcLo fcHi)) rest
  | .fsStep, lo :: hi :: rest => .instr (.fsStep (idxField w) (joinWords lo hi)) rest
  | .fsRun, len :: rest => .instr (.fsRun (idxField w) len.toNat) rest
  | .xfInit, lo :: hi :: rest => .instr (.xfInit (idxField w) (kindOfFlag (flagField w)) (joinWords lo hi)) rest
  | .xfApply, lo :: hi :: len :: rest => .instr (.xfApply (idxField w) (joinWords lo hi) len.toNat) rest
  | _, _ => .incomplete

/-- The decoder of the command port (R119, R120, R125). -/
def decode : List Word → Decoded
  | [] => .incomplete
  | w :: ws =>
    match selectOpc w with
    | none => .illegal ws
    | some o => decodeOperands o w ws

/-- A command word: `OPC[31:24] IDX[23:16] 0[15:2] CAPV[1] FLAG[0]` (R119, D3). -/
def commandWord (opc : BitVec 8) (idx : Nat) (capv flag : Bool) : Word :=
  opc ++ BitVec.ofNat 8 idx ++ (0#14) ++ BitVec.ofBool capv ++ BitVec.ofBool flag

/-- The bit that names a kind (R119). -/
def flagOfKind : FilterKind → Bool
  | .lp => false
  | .hp => true

/-- The words of a command on the command port (R119 to R121, R123). -/
def encode : Instr → List Word
  | .hpParse len => [commandWord 0x01 0 false false, lowWord (BitVec.ofNat 64 len), highWord (BitVec.ofNat 64 len)]
  | .hpResolve => [commandWord 0x02 0 false false]
  | .csBuild own none => [commandWord 0x10 0 false own]
  | .csBuild own (some cap) => [commandWord 0x10 0 true own, BitVec.ofNat 32 cap]
  | .csEnum => [commandWord 0x11 0 false false]
  | .csRead pos count => [commandWord 0x12 pos false false, BitVec.ofNat 32 count]
  | .csWrite pos len => [commandWord 0x13 pos false false, BitVec.ofNat 32 len]
  | .csClose pos => [commandWord 0x14 pos false false]
  | .csDispose => [commandWord 0x15 0 false false]
  | .fsBind stage kind fs fc =>
    [commandWord 0x20 stage false (flagOfKind kind), lowWord fs, highWord fs, lowWord fc, highWord fc]
  | .fsStep stage x => [commandWord 0x21 stage false false, lowWord x, highWord x]
  | .fsRun stage len => [commandWord 0x22 stage false false, BitVec.ofNat 32 len]
  | .xfInit xover kind fs => [commandWord 0x30 xover false (flagOfKind kind), lowWord fs, highWord fs]
  | .xfApply xover fc len => [commandWord 0x31 xover false false, lowWord fc, highWord fc, BitVec.ofNat 32 len]

/-- How many port words the longest command has: `FS.BIND` (R120). -/
def longestCommand : Nat := 5

/-- The port words of an instruction whose bits are the low `nbits` bits of `w`, numbered as spec/opcode_table.json numbers
them: the first word is bits 31..0, the second bits 63..32, and every bit from `nbits` on is 0. -/
def tableWords (nbits w : Nat) : List Word :=
  (List.range longestCommand).map fun k => BitVec.ofNat 32 (w % 2 ^ nbits / 2 ^ (32 * k))

/-- The command the decoder reads from such an instruction. -/
def decodeTableWord (nbits w : Nat) : Option Instr :=
  match decode (tableWords nbits w) with
  | .instr i _ => some i
  | .illegal _ => none
  | .incomplete => none

end Sys2Proof
end

