-- ==== Sys2Proof/Machine/State.lean ====
section
/-! DEFINITION. The state of WAVFLT as plain data (spec/10_state.md), its value after reset (R60), and the reasons a step can
stop. The registers of the block come first, then what lies on its ports (R58), then the model's own draw counter. -/

namespace Sys2Proof.Machine

/-- The sample format (R37): `Unknown` = 0, `PCM` = 1, `IEEEFloat` = 3. -/
inductive SampleFormat where
  | unknown
  | pcm
  | ieeeFloat
  deriving DecidableEq, Repr

/-- The container state (R39): `CLOSED` = 0, `OPEN` = 1, `DISPOSED` = 2. -/
inductive ContainerState where
  | closed
  | opened
  | disposed
  deriving DecidableEq, Repr

/-- The container metadata registers `MD.*` (R38). -/
structure Metadata where
  format : SampleFormat
  channelCount : BitVec 16
  sampleRate : BitVec 32
  bitDepth : BitVec 16
  validBits : BitVec 16
  audioLengthBytes : BitVec 32
  deriving DecidableEq, Repr

/-- The resolved mask registers `RM.mono` and `RM.mask` (R42). -/
structure ResolvedMask where
  mono : Bool
  mask : Word
  deriving DecidableEq, Repr

/-- One existing entry `CS[k]` of the stream table (R46). The read-ahead buffer `ra` is left out, as R49 says. -/
structure ChannelStream where
  /-- Position code: 0 to 31 a mask bit, 32 `MONO` (R46, R118). -/
  pos : BitVec 6
  /-- The next frame this stream reads or writes (R48). -/
  cursor : BitVec 32
  /-- Buffer capacity in bytes (R51). -/
  cap : BitVec 32
  /-- The stream owns its handle (R52). -/
  own : Bool
  /-- The stream was closed, or its container disposed (R52). -/
  closed : Bool
  /-- Write-behind buffer: pending byte writes, oldest first (R50). -/
  wb : List Host.Cell
  deriving DecidableEq, Repr

/-- The four history registers of a stage (R32 registers 5 to 8, R55), over any representation of "real". -/
structure History (α : Type) where
  x1 : α
  x2 : α
  y1 : α
  y2 : α
  deriving DecidableEq, Repr

/-- `FS[s].st` (R53) with the coefficients: they are unset exactly when the stage is `CONSTRUCTED` (R54), so that state
carries none and the two others carry five. -/
inductive StagePhase where
  | constructed
  | bound (c : Coef Num64)
  | running (c : Coef Num64)
  deriving DecidableEq, Repr

/-- One stage `FS[s]` (R32, R53). -/
structure Stage where
  phase : StagePhase
  hist : History Num64
  deriving DecidableEq, Repr

/-- The registers of one crossover `XF[f]` (R56). -/
structure Crossover where
  inited : Bool
  kind : FilterKind
  fs : Num64
  deriving DecidableEq, Repr

/-- The errors a command can end in (R281). -/
inductive ErrorCode where
  | unrecognisedFormat
  | argumentRange
  | missingChannel
  | endOfStream
  | fileTooLarge
  | notFound
  | disposed
  | illegalCommand
  deriving DecidableEq, Repr

/-- One response (R122): the status word, then the result words. -/
structure Response where
  status : Word
  results : List Word
  deriving DecidableEq, Repr

/-- The external byte stream: the bytes it holds, by address (R71). An address not listed holds no byte: an access to it is a
failed transfer (R298, U9; log entry 4). -/
abbrev Memory := List Host.Cell

/-- Why a step faults. -/
inductive Fault where
  /-- Raised by every command that reads or writes the external stream (`HP.PARSE`, `CS.READ`, and the flushes of `CS.WRITE`,
  `CS.BUILD`, `CS.CLOSE`, `CS.DISPOSE`) at an address at which the stream holds no byte or that is not below `STREAM_LEN`:
  "`fault` for a failing transfer" (U9, R298; R77 and R78 "requires"). Safe: the model stops where the rules give nothing. -/
  | streamTransfer
  deriving DecidableEq, Repr

/-- Why a step refuses. -/
inductive Refusal where
  /-- Raised by `exec` for an instruction that has no meaning yet; safe. -/
  | notModelled (mnemonic : String)
  /-- Raised by `CS.READ` and `CS.WRITE` on an extra stream, one whose slot lies outside the frame: "the spec gives it no
  meaning" (R184), "Treatment: `refuse`" (U4). Safe. -/
  | extraStream
  /-- Raised by `CS.WRITE` of more samples than remain in the payload: "has no meaning in this spec" (R196), "Treatment:
  `refuse`" (U5). Safe. -/
  | writePastPayload
  deriving DecidableEq, Repr

/-- Everything the block holds between commands (R30), what lies on its ports (R58, R122), and the model's draw counter. -/
structure State where
  /-- `C.state` (R39). -/
  container : ContainerState
  /-- `LASTERR` (R43). -/
  lastErr : BitVec 4
  /-- `WIN[0 .. WIN_LEN-1]`; `WIN_LEN` is its length (R34; log entry 9). -/
  win : List Byte
  /-- `STREAM_LEN` (R35). -/
  streamLen : BitVec 32
  /-- `MD.*` (R38). -/
  md : Metadata
  /-- `EXPL_MASK` (R40). -/
  explMask : Word
  /-- `DATA_START` (R41). -/
  dataStart : BitVec 32
  /-- `RM.resolved` (R42). -/
  resolved : Bool
  /-- `RM.mono`, `RM.mask` (R42). -/
  rm : ResolvedMask
  /-- `CS_BUILT` (R46). -/
  built : Bool
  /-- The existing entries of the stream table, by slot; `CS_COUNT` is its length (R46; log entry 8). -/
  streams : List ChannelStream
  /-- The stage register file; `N_FS` is its length (R32; log entry 12). -/
  stages : List Stage
  /-- The crossover registers; `N_XF` is its length (R56; log entry 12). -/
  xovers : List Crossover
  /-- The stream port: the external byte stream (R71). -/
  stream : Memory
  /-- The stream port: `PRESENT` (R35). -/
  present : Bool
  /-- The command port: words the host has sent and the block has not taken (R119). -/
  cmdIn : List Word
  /-- The buffer port: words the host has sent and the block has not taken (R124). -/
  bufIn : List Word
  /-- The response port: the responses given, oldest first (R122). -/
  responses : List Response
  /-- The `RELEASE(k)` indications given, oldest first (R198). -/
  releases : List Nat
  /-- The side channel of R122: the `REASON` texts given, oldest first (R8, R282). -/
  reasons : List String
  /-- The reset input: asserted and not yet acted on (R320). -/
  resetIn : Bool
  /-- The model's own counter: how many free values have been drawn (log entry 24). -/
  draws : Nat
  deriving DecidableEq, Repr

/-- The binary64 pattern of `+0.0` (R55, R123). -/
def plusZero : Num64 := 0#64

/-- History as construction leaves it (R55). -/
def History.zero : History Num64 := ⟨plusZero, plusZero, plusZero, plusZero⟩

/-- A stage as construction leaves it (R53, R54, R55). -/
def Stage.fresh : Stage := ⟨.constructed, History.zero⟩

/-- A crossover that was never initialised (R60, R264); `kind` and `fs` are unspecified there (log entry 6). -/
def Crossover.fresh : Crossover := ⟨false, .lp, plusZero⟩

/-- `MD.*` after reset: unspecified (R60); the values of log entry 6. -/
def Metadata.atReset : Metadata := ⟨.unknown, 0, 0, 0, 0, 0⟩

/-- The machine right after reset (R60, R320), nothing on any port. DESIGN CHOICE (log entry 6): the values of the registers
R60 calls unspecified. -/
def State.reset : State where
  container := .closed
  lastErr := 0
  win := []
  streamLen := 0
  md := Metadata.atReset
  explMask := 0
  dataStart := 0
  resolved := false
  rm := ⟨false, 0⟩
  built := false
  streams := []
  stages := List.replicate Config.nFS Stage.fresh
  xovers := List.replicate Config.nXF Crossover.fresh
  stream := []
  present := false
  cmdIn := []
  bufIn := []
  responses := []
  releases := []
  reasons := []
  resetIn := false
  draws := 0

end Sys2Proof.Machine
end

