-- ==== Sys2Proof/Machine/Flags.lean ====
section
/-! DEFINITION. The status codes. WAVFLT has no condition codes (spec/10_state.md R43): its one status flag register is
`LASTERR`, and its status bits are coded enumerations (R37, R39, R53, R281). -/

namespace Sys2Proof.Machine

/-- The numeric error code (R281). -/
def ErrorCode.code : ErrorCode → BitVec 4
  | .unrecognisedFormat => 1
  | .argumentRange => 2
  | .missingChannel => 3
  | .endOfStream => 4
  | .fileTooLarge => 5
  | .notFound => 6
  | .disposed => 7
  | .illegalCommand => 8

/-- The status word of an error: the code in bits 3:0, bits 31:4 zero (R122). -/
def ErrorCode.status (e : ErrorCode) : Word := e.code.zeroExtend 32

/-- The status word of `OK` (R122, R281). -/
def okStatus : Word := 0

/-- The response of a command that ends `OK` (R122). -/
def okResponse (results : List Word) : Response := ⟨okStatus, results⟩

/-- The response of a command that ends in an error: no result words (R122). -/
def errorResponse (e : ErrorCode) : Response := ⟨e.status, []⟩

/-- The 2-bit code of `MD.format` (R37). -/
def SampleFormat.code : SampleFormat → BitVec 2
  | .unknown => 0
  | .pcm => 1
  | .ieeeFloat => 3

/-- The 2-bit code of `C.state` (R39). -/
def ContainerState.code : ContainerState → BitVec 2
  | .closed => 0
  | .opened => 1
  | .disposed => 2

/-- The 2-bit code of `FS[s].st` (R53). -/
def Stage.st (g : Stage) : BitVec 2 :=
  match g.phase with
  | .constructed => 0
  | .bound _ => 1
  | .running _ => 2

/-- The coefficients of a stage, none exactly in `CONSTRUCTED` (R54). -/
def Stage.coef? (g : Stage) : Option (Coef Num64) :=
  match g.phase with
  | .constructed => none
  | .bound c => some c
  | .running c => some c

end Sys2Proof.Machine
end

