-- ==== Sys2Proof/Machine/Operands.lean ====
section
/-! DEFINITION. How values lie in bytes and port words: little-endian byte strings (spec/20_memory.md R74), raw sample words and
`NUM` values on the ports (spec/30_encoding.md R114, R123, R124), and position codes (R118). -/

namespace Sys2Proof.Machine

/-- The unsigned integer of a byte string, least significant byte first (R74, R76, R77). -/
def leNat : List Byte → Nat
  | [] => 0
  | b :: bs => b.toNat + 256 * leNat bs

/-- The `n` bytes of a value, least significant byte first (R74, R78). -/
def leBytes (v : Nat) : Nat → List Byte
  | 0 => []
  | n + 1 => BitVec.ofNat 8 v :: leBytes (v / 256) n

/-- How many port words a raw sample of `bytes` bytes travels as: `ceil(B/4)` (R124). -/
def rawWidth (bytes : Nat) : Nat := (bytes + 3) / 4

/-- A value as `n` port words, least significant word first, zero-extended (R124). -/
def wordsOfNat (v : Nat) : Nat → List Word
  | 0 => []
  | n + 1 => BitVec.ofNat 32 v :: wordsOfNat (v / 2 ^ 32) n

/-- The value of port words, least significant word first (R124). -/
def natOfWords : List Word → Nat
  | [] => 0
  | w :: ws => w.toNat + 2 ^ 32 * natOfWords ws

/-- The first `count` raw samples of a buffer whose samples travel as `width` words each, in index order (R124). -/
def rawsOfWords (width : Nat) : Nat → List Word → List Nat
  | 0, _ => []
  | count + 1, ws => natOfWords (ws.take width) :: rawsOfWords width count (ws.drop width)

/-- A buffer of raw samples as port words, in index order (R124). -/
def wordsOfRaws (width : Nat) (vs : List Nat) : List Word := vs.flatMap fun v => wordsOfNat v width

/-- A `NUM` value as two port words, low word first (R123). -/
def wordsOfNum (v : Num64) : List Word := [lowWord v, highWord v]

/-- A buffer of `NUM` values as port words (R124). -/
def wordsOfNums (vs : List Num64) : List Word := vs.flatMap wordsOfNum

/-- The first `count` `NUM` values of a buffer (R123, R124). -/
def numsOfWords : Nat → List Word → List Num64
  | 0, _ => []
  | count + 1, ws => joinWords (ws.getD 0 0) (ws.getD 1 0) :: numsOfWords count (ws.drop 2)

/-- The position code of the `Mono` sentinel (R118). -/
def monoPos : Nat := 32

/-- The positions of a resolved mask in enumeration order: ascending bit index, or `MONO` alone (R172, R183). -/
def ResolvedMask.positions (r : ResolvedMask) : List Nat :=
  if r.mono then [monoPos] else (List.range 32).filter fun i => r.mask.getLsbD i

/-- The six result words of `HP.PARSE` (R122). -/
def Metadata.words (m : Metadata) : List Word :=
  [m.format.code.zeroExtend 32, m.channelCount.zeroExtend 32, m.sampleRate, m.bitDepth.zeroExtend 32,
    m.validBits.zeroExtend 32, m.audioLengthBytes]

/-- `B`, the bytes of one stored sample (R188). -/
def Metadata.bytesPerSample (m : Metadata) : Nat := m.bitDepth.toNat / 8

/-- `F`, the bytes of one frame (R188). -/
def Metadata.frameBytes (m : Metadata) : Nat := m.channelCount.toNat * m.bytesPerSample

/-- `N_FRAMES` (R188). -/
def Metadata.nFrames (m : Metadata) : Nat := m.audioLengthBytes.toNat / m.frameBytes

/-! ## The conversion outside the block (R117) -/

/-- `CONV`: OPEN, "a pair of functions ... applied outside the block", from a format, a bit depth, valid bits and a raw word to a
value of another representation, and back (R8, R117). No step uses it; a claim takes it as an argument. -/
structure Conv (T : Type) where
  toT : SampleFormat → Nat → Nat → Nat → T
  fromT : SampleFormat → Nat → Nat → T → Nat

/-- A raw sample of this container, converted (R117). -/
def Conv.decodeRaw {T : Type} (conv : Conv T) (m : Metadata) (raw : Nat) : T :=
  conv.toT m.format m.bitDepth.toNat m.validBits.toNat raw

/-- A value converted to a raw sample of this container (R117). -/
def Conv.encodeRaw {T : Type} (conv : Conv T) (m : Metadata) (t : T) : Nat :=
  conv.fromT m.format m.bitDepth.toNat m.validBits.toNat t

/-- The container's storage format can represent the value (R117). -/
def Conv.Represents {T : Type} (conv : Conv T) (m : Metadata) (t : T) : Prop :=
  ∃ raw < 2 ^ m.bitDepth.toNat, conv.decodeRaw m raw = t

/-- The one law: "`toT(fromT(t)) = t` for every `t` the storage format can represent", `fromT` answering a raw word of the
container (R117, R114). -/
def Conv.Lawful {T : Type} (conv : Conv T) (m : Metadata) : Prop :=
  ∀ t, conv.Represents m t → conv.encodeRaw m t < 2 ^ m.bitDepth.toNat ∧ conv.decodeRaw m (conv.encodeRaw m t) = t

/-- The reference conversion of a 64-bit IEEE-float container: "the identity on the 64 bits" (R117). -/
def Conv.identity64 : Conv Num64 := ⟨fun _ _ _ raw => BitVec.ofNat 64 raw, fun _ _ _ v => v.toNat⟩

/-- A buffer of values as the words the host sends for `CS.WRITE` (R59, R117, R124). -/
def Conv.toPort {T : Type} (conv : Conv T) (m : Metadata) (ts : List T) : List Word :=
  wordsOfRaws (rawWidth m.bytesPerSample) (ts.map (conv.encodeRaw m))

/-- The values the host makes of the result words of a `CS.READ` (R59, R117, R124). -/
def Conv.ofPort {T : Type} (conv : Conv T) (m : Metadata) (count : Nat) (ws : List Word) : List T :=
  (rawsOfWords (rawWidth m.bytesPerSample) count ws).map (conv.decodeRaw m)

end Sys2Proof.Machine
end

