-- ==== Sys2Proof/Machine/Ops.lean ====
section
/-! DEFINITION. The named operations over the ports, the external stream and the stream table, and how a command ends: with `OK`
or with an error, which is this block's only exception (spec/60_exceptions.md R280, R290). There is no return from one (R297). -/

namespace Sys2Proof.Machine

/-! ## How a command begins and ends -/

/-- Takes the words of a command from the command port and the words of its buffer from the buffer port, "always taken from
the ports before the response, whatever the outcome" (R125). -/
def State.accept (s : State) (cmdWords bufWords : Nat) : State :=
  { s with cmdIn := s.cmdIn.drop cmdWords, bufIn := s.bufIn.drop bufWords }

/-- `raise E`: LASTERR takes the code and the response is the status word alone (R290). DESIGN CHOICE (log entry 31): R291 lets a
model that keeps a fault mark treat some errors as faults of the program under proof, "that split is the model's to make"; this
model keeps no such mark, and all eight errors are ordinary outcomes after which the block goes on. -/
def State.raise (s : State) (e : ErrorCode) : State :=
  { s with lastErr := e.code, responses := s.responses ++ [errorResponse e] }

/-- `respond OK with results` (R122); LASTERR stays (R43). -/
def State.respond (s : State) (results : List Word) : State :=
  { s with responses := s.responses ++ [okResponse results] }

/-- The `REASON` text of an `UnrecognisedFormat`, if the implementation produces one, on its side channel (R122, R282). -/
def State.giveReason (s : State) (text : Option String) : State := { s with reasons := s.reasons ++ text.toList }

/-- The next state where there is one, else the fault of a failing transfer (R298, U9). -/
def nextOrFault : Option State → Host.Outcome State Fault Refusal
  | some t => .next t
  | none => .fault .streamTransfer

/-- Advances the draw counter past `n` free values (log entry 24). -/
def State.draw (s : State) (n : Nat) : State := { s with draws := s.draws + n }

/-- The failure writes of `HP.PARSE` (R159). -/
def State.dropContainer (s : State) : State :=
  { s with container := .closed, resolved := false, built := false, streams := [] }

/-- The reset input: every register of the block at its reset value (R320, R60), write-behind data lost and nothing released
(R321). What lies on the ports is the host's and stays; the number of stages and crossovers is the hardware's. -/
def State.assertReset (s : State) : State :=
  { State.reset with
    stages := s.stages.map fun _ => Stage.fresh
    xovers := s.xovers.map fun _ => Crossover.fresh
    stream := s.stream
    present := s.present
    cmdIn := s.cmdIn
    bufIn := s.bufIn
    responses := s.responses
    releases := s.releases
    reasons := s.reasons
    draws := s.draws }

/-! ## The external stream -/

/-- The byte the stream holds at an address (R71). -/
def Memory.read : Memory → Nat → Option Byte
  | [], _ => none
  | (a', b) :: m, a => if a' = a then some b else Memory.read m a

/-- One byte written at an address at which the stream holds one; elsewhere the transfer fails (U9). -/
def Memory.write : Memory → Nat → Byte → Option Memory
  | [], _, _ => none
  | (a', b') :: m, a, b => if a' = a then some ((a, b) :: m) else (Memory.write m a b).map ((a', b') :: ·)

/-- The canonical form: addresses strictly rising. (An unlisted address reads as no byte, so no entry can equal that.) -/
def Memory.wf : Memory → Bool
  | [] => true
  | (a, _) :: m => (m.all fun c => decide (a < c.1)) && Memory.wf m

/-- The writes of a flush in list order, each `MemWrite(a, 1, b)` below `STREAM_LEN` (R78, R197). -/
def Memory.writeAll (limit : Nat) : Memory → List Host.Cell → Option Memory
  | m, [] => some m
  | m, (a, b) :: cells =>
    if a < limit then (m.write a b).bind fun m' => Memory.writeAll limit m' cells else none

/-- The latest byte a list of pending writes gives an address (R92). -/
def lastWrite : List Host.Cell → Nat → Option Byte
  | [], _ => none
  | (a', b) :: cells, a => (lastWrite cells a).or (if a' = a then some b else none)

/-- Every pending write of the container's streams (R50, R92). -/
def State.pending (s : State) : List Host.Cell := s.streams.flatMap (·.wb)

/-- A stream byte as the block reads it: the latest pending write of the container, else the stream's byte (R92). -/
def State.byteAt (s : State) (a : Nat) : Option Byte := (lastWrite s.pending a).or (s.stream.read a)

/-- The `n` bytes from an address on. -/
def State.bytesAt (s : State) : Nat → Nat → Option (List Byte)
  | _, 0 => some []
  | a, n + 1 => (s.byteAt a).bind fun b => (s.bytesAt (a + 1) n).map (b :: ·)

/-- `MemRead(addr, n)` (R77); none where the transfer fails or `addr + n <= STREAM_LEN` does not hold. -/
def State.memRead (s : State) (a n : Nat) : Option Nat :=
  if a + n ≤ s.streamLen.toNat then (s.bytesAt a n).map leNat else none

/-- The first 1024 bytes of the stream, or all of a shorter one, as `HP.PARSE` copies them (R144): `STREAM_LEN`, `WIN` and
`WIN_LEN` written. -/
def State.loadWindow (s : State) (len : Nat) : Option State :=
  (s.bytesAt 0 (min Config.winBytes len)).map fun w => { s with streamLen := BitVec.ofNat 32 len, win := w }

/-! ## The stream table -/

/-- `lookup(pos)`: the slot whose stream has this position (R187). -/
def State.lookup (s : State) (pos : Nat) : Option Nat := s.streams.findIdx? fun c => c.pos.toNat == pos

/-- The stream address of sample `n` of slot `k` (R83). -/
def State.sampleAddr (s : State) (k n : Nat) : Nat :=
  s.dataStart.toNat + n * s.md.frameBytes + k * s.md.bytesPerSample

/-- The samples remaining on a stream: `N_FRAMES - cursor` (R188). -/
def State.remaining (s : State) (c : ChannelStream) : Nat := s.md.nFrames - c.cursor.toNat

/-- The port words of one raw sample (R124): `ceil(B/4)`; while `C.state` is `CLOSED`, `MD.bitDepth` is unspecified (R60) and the
width is a free value among the three of R124 (log entry 19). -/
def State.rawWords (s : State) : Nat :=
  if s.container = .closed then 2 ^ (Config.closedWidth s.draws).val else rawWidth s.md.bytesPerSample

/-- `RELEASE(k)`, signalled for a stream that owns its handle (R198). -/
def State.release (s : State) (k : Nat) (own : Bool) : State :=
  { s with releases := if own then s.releases ++ [k] else s.releases }

/-- Writes the entry of slot `k`. -/
def State.setStream (s : State) (k : Nat) (c : ChannelStream) : State := { s with streams := s.streams.set k c }

/-- The stream port's bytes replaced by what a flush leaves. -/
def State.setMemory (s : State) (m : Memory) : State := { s with stream := m }

/-- A stream after `close_stream`: nothing pending and closed; a closed one stays as it is (R198). -/
def ChannelStream.shut (c : ChannelStream) : ChannelStream :=
  if c.closed then c else { c with wb := [], closed := true }

/-- `close_stream(k)` (R198): flush, release if owned, `closed <- 1`; nothing if already closed. -/
def State.closeStream (s : State) (k : Nat) : Option State :=
  match s.streams[k]? with
  | none => some s
  | some c =>
    if c.closed then some s
    else (s.stream.writeAll s.streamLen.toNat c.wb).map fun m =>
      ((s.setMemory m).setStream k c.shut).release k c.own

/-- `close_stream` of slots 0 to `n - 1`, ascending (R185, R199). -/
def State.closeFirst (s : State) : Nat → Option State
  | 0 => some s
  | n + 1 => (s.closeFirst n).bind fun t => t.closeStream n

/-- Every stream of the table closed (R185, R199). -/
def State.closeAll (s : State) : Option State := s.closeFirst s.streams.length

/-- A stream as `CS.BUILD` creates it (R183). -/
def ChannelStream.fresh (cap : Word) (own : Bool) (pos : Nat) : ChannelStream :=
  ⟨BitVec.ofNat 6 pos, 0, cap, own, false, []⟩

/-! ## The stages and crossovers -/

/-- Writes stage `k`. -/
def State.setStage (s : State) (k : Nat) (g : Stage) : State := { s with stages := s.stages.set k g }

/-- Writes crossover `f`. -/
def State.setXover (s : State) (f : Nat) (x : Crossover) : State := { s with xovers := s.xovers.set f x }

/-- A bind: the coefficients are loaded, a constructed stage becomes bound, and history is untouched (R53, R222, R255). -/
def Stage.bind (g : Stage) (c : Coef Num64) : Stage :=
  match g.phase with
  | .constructed => { g with phase := .bound c }
  | .bound _ => { g with phase := .bound c }
  | .running _ => { g with phase := .running c }

end Sys2Proof.Machine
end

