-- ==== Sys2Proof/Machine/ChannelStreams.lean ====
section
/-! DEFINITION. The channel stream commands (spec/41_channel_stream.md): `CS.BUILD`, `CS.ENUM`, `CS.READ`, `CS.WRITE`, `CS.CLOSE`,
`CS.DISPOSE`. -/

namespace Sys2Proof.Machine

/-- The stream table as `CS.BUILD` creates it (R183), built and nothing else changed. -/
def State.createStreams (s : State) (own : Bool) (cap : Word) : State :=
  { s with streams := s.rm.positions.map (ChannelStream.fresh cap own), built := true }

/-- The result word of `CS.BUILD`: `CS_COUNT` (R122). -/
def State.countWord (s : State) : Word := BitVec.ofNat 32 s.streams.length

/-- The old streams closed first when the table was already built (R185). -/
def State.closeOld (s : State) : Option State := if s.built then s.closeAll else some s

/-- `CAP` if the command gives it, else `BUF_CAP_DEFAULT` (R182). -/
def buildCap (cap : Option Nat) : Word :=
  match cap with
  | some n => BitVec.ofNat 32 n
  | none => Config.bufCapDefault

/-- `CS.BUILD [own] [cap=<n>]` (R181 to R185). -/
def execCsBuild (own : Bool) (cap : Option Nat) (s : State) : Host.Outcome State Fault Refusal :=
  let s := s.accept (if cap.isSome then 2 else 1) 0
  match s.container with
  | .disposed => .next (s.raise .disposed)
  | .closed => .next (s.raise .illegalCommand)
  | .opened =>
    if s.resolved = false then .next (s.raise .illegalCommand)
    else if (buildCap cap).toNat < Config.minCap then .next (s.raise .argumentRange)
    else
      nextOrFault (s.closeOld.map fun t =>
        let u := t.createStreams own (buildCap cap)
        u.respond [u.countWord])

/-- The checks (1) to (3) of R180 that `CS.ENUM`, `CS.READ` and `CS.WRITE` make first: the error of the first that fails. -/
def State.streamCheck (s : State) : Option ErrorCode :=
  match s.container with
  | .disposed => some .disposed
  | .closed => some .illegalCommand
  | .opened => if s.built then none else some .illegalCommand

/-- The result words of `CS.ENUM`: `CS_COUNT`, then one position code per stream in slot order (R122, R186). -/
def State.enumWords (s : State) : List Word := s.countWord :: s.streams.map fun c => c.pos.zeroExtend 32

/-- `CS.ENUM` (R186). -/
def execCsEnum (s : State) : Host.Outcome State Fault Refusal :=
  let s := s.accept 1 0
  match s.streamCheck with
  | some e => .next (s.raise e)
  | none => .next (s.respond s.enumWords)

/-- What `CS.READ` and `CS.WRITE` find for a position after the checks of R180: an error, or the slot and its entry (R187, R201). -/
def State.findStream (s : State) (pos : Nat) : Except ErrorCode (Nat × ChannelStream) :=
  match s.streamCheck with
  | some e => .error e
  | none =>
    match s.lookup pos with
    | none => .error .missingChannel
    | some k =>
      match s.streams[k]? with
      | none => .error .missingChannel
      | some c => if c.closed then .error .disposed else .ok (k, c)

/-- The samples `n, n + 1, ...` of slot `k`, `count` of them (R191). -/
def State.readSamples (s : State) (k : Nat) : Nat → Nat → Option (List Nat)
  | _, 0 => some []
  | n, count + 1 =>
    (s.memRead (s.sampleAddr k n) s.md.bytesPerSample).bind fun v =>
      (s.readSamples k (n + 1) count).map (v :: ·)

/-- The cursor of a stream moved past `count` frames (R191, R195). -/
def ChannelStream.advance (c : ChannelStream) (count : Nat) : ChannelStream :=
  { c with cursor := BitVec.ofNat 32 (c.cursor.toNat + count) }

/-- `CS.READ pos, count` (R189 to R193). -/
def execCsRead (pos count : Nat) (s : State) : Host.Outcome State Fault Refusal :=
  let s := s.accept 2 0
  match s.findStream pos with
  | .error e => .next (s.raise e)
  | .ok (k, c) =>
    if s.md.channelCount.toNat ≤ k then .refused .extraStream
    else if s.remaining c < count then .next (s.raise .endOfStream)
    else
      nextOrFault ((s.readSamples k c.cursor.toNat count).map fun vs =>
        (s.setStream k (c.advance count)).respond (wordsOfRaws (rawWidth s.md.bytesPerSample) vs))

/-- The byte writes of one sample of `n` bytes at an address (R195). -/
def sampleCells (a n v : Nat) : List Host.Cell := (leBytes v n).mapIdx fun j b => (a + j, b)

/-- The loop of `CS.WRITE` (R195): each sample is appended to the write-behind buffer, which is flushed first when it would
grow past the capacity. It answers the stream's bytes and the buffer it leaves. -/
def State.queueSamples (s : State) (k cap : Nat) : Nat → List Nat → Memory → List Host.Cell → Option (Memory × List Host.Cell)
  | _, [], m, wb => some (m, wb)
  | n, v :: vs, m, wb =>
    let cells := sampleCells (s.sampleAddr k n) s.md.bytesPerSample v
    if cap < wb.length + s.md.bytesPerSample then
      (m.writeAll s.streamLen.toNat wb).bind fun m' => s.queueSamples k cap (n + 1) vs m' cells
    else s.queueSamples k cap (n + 1) vs m (wb ++ cells)

/-- What a flush leaves when one happens, else what was there (R197). -/
def flushIf (flush : Bool) (limit : Nat) (m : Memory) (wb : List Host.Cell) : Option (Memory × List Host.Cell) :=
  if flush then (m.writeAll limit wb).map fun m' => (m', []) else some (m, wb)

/-- The effect of a `CS.WRITE` that is accepted (R195): samples queued, cursor moved, and, where `flush` says so, a flush at the
end (R197). -/
def State.writeSamples (s : State) (k : Nat) (c : ChannelStream) (vs : List Nat) (flush : Bool) : Option State :=
  (s.queueSamples k c.cap.toNat c.cursor.toNat vs s.stream c.wb).bind fun q =>
    (flushIf flush s.streamLen.toNat q.1 q.2).map fun r =>
      (s.setMemory r.1).setStream k { c.advance vs.length with wb := r.2 }

/-- `CS.WRITE` once its words and its raw samples are taken (R195). -/
def State.finishWrite (s : State) (pos : Nat) (vs : List Nat) : Host.Outcome State Fault Refusal :=
  match s.findStream pos with
  | .error e => .next (s.raise e)
  | .ok (k, c) =>
    if vs.any fun v => decide (2 ^ (8 * s.md.bytesPerSample) ≤ v) then .next (s.raise .argumentRange)
    else if s.md.channelCount.toNat ≤ k then .refused .extraStream
    else if s.remaining c < vs.length then .refused .writePastPayload
    else
      nextOrFault ((s.writeSamples k c vs (Config.earlyFlush s.draws)).map fun t => (t.draw 1).respond [])

/-- `CS.WRITE pos, buffer(len)` (R194 to R197). It waits while its buffer has not all arrived (R125, log entry 2). -/
def execCsWrite (pos len : Nat) (s : State) : Host.Outcome State Fault Refusal :=
  if s.bufIn.length < s.rawWords * len then .next s
  else
    let t := s.accept 2 (s.rawWords * len)
    let t := if s.container = .closed then t.draw 1 else t
    t.finishWrite pos (rawsOfWords s.rawWords len s.bufIn)

/-- `CS.CLOSE pos` (R198). -/
def execCsClose (pos : Nat) (s : State) : Host.Outcome State Fault Refusal :=
  let s := s.accept 1 0
  if s.container = .closed ∨ s.built = false then .next (s.raise .illegalCommand)
  else
    match s.lookup pos with
    | none => .next (s.raise .missingChannel)
    | some k => nextOrFault ((s.closeStream k).map fun t => t.respond [])

/-- `CS.DISPOSE` (R199, R200). -/
def execCsDispose (s : State) : Host.Outcome State Fault Refusal :=
  let s := s.accept 1 0
  match s.container with
  | .opened => nextOrFault (s.closeAll.map fun t => { t with container := .disposed }.respond [])
  | .closed => .next (s.respond [])
  | .disposed => .next (s.respond [])

end Sys2Proof.Machine
end

