-- ==== Sys2Proof/Machine/Num.lean ====
section
/-! DEFINITION. The numeric primitives over `NUM` (spec/00_scope.md R12): IEEE 754 binary64 addition, subtraction and
multiplication, each rounded once to nearest, ties to even. Operands are turned into exact integers, the result is computed
exactly, and one rounding narrows it. A magnitude is counted in units of 2^-1074, the smallest positive binary64 number. The
layout and the results for zeros, infinities and NaN are those of IEEE 754 (G2; log entry 14); which NaN results is a free value
(R237, U8). -/

namespace Sys2Proof.Machine

/-- The three operations of R12, as a record, so that the rules of the stage read over any `NUM` ("also meaningful with `NUM`
instantiated to the exact reals", R12). -/
structure NumOps (α : Type) where
  add : α → α → α
  sub : α → α → α
  mul : α → α → α

/-- The three operations of a ring, exact (R12). -/
def NumOps.exact (α : Type) [Ring α] : NumOps α := ⟨(· + ·), (· - ·), (· * ·)⟩

/-- The sign bit, bit 63 (R123). -/
def numSign (x : Num64) : Bool := x.getLsbD 63

/-- The biased exponent, bits 62:52 (R123). -/
def numExp (x : Num64) : Nat := (x.extractLsb' 52 11).toNat

/-- The fraction, bits 51:0 (R123). -/
def numFrac (x : Num64) : Nat := (x.extractLsb' 0 52).toNat

/-- Is the value a NaN (R12)? -/
def numIsNaN (x : Num64) : Bool := numExp x == 2047 && numFrac x != 0

/-- Is the value an infinity (R12)? -/
def numIsInf (x : Num64) : Bool := numExp x == 2047 && numFrac x == 0

/-- Is the value a finite number (R252)? -/
def numIsFinite (x : Num64) : Bool := numExp x != 2047

/-- The magnitude of a finite value, in units of 2^-1074. -/
def numMag (x : Num64) : Nat := if numExp x = 0 then numFrac x else (2 ^ 52 + numFrac x) * 2 ^ (numExp x - 1)

/-- Is the value `+0.0` or `-0.0`? -/
def numIsZero (x : Num64) : Bool := numIsFinite x && numMag x == 0

/-- A finite value in units of 2^-1074, with its sign. -/
def numVal (x : Num64) : Int := if numSign x then -(numMag x : Int) else numMag x

/-- The 63 low bits of an infinity. -/
def infPattern : Nat := 2047 * 2 ^ 52

/-- The value with a sign and 63 low bits. -/
def numPack (neg : Bool) (low : Nat) : Num64 := BitVec.ofNat 64 (low + if neg then 2 ^ 63 else 0)

/-- The sign bit inverted. -/
def numNeg (x : Num64) : Num64 := x ^^^ (1#64 <<< 63)

/-- `n / 2^d` rounded to nearest, ties to even (R12). -/
def roundShift (n d : Nat) : Nat :=
  let q := n / 2 ^ d
  let r := n % 2 ^ d
  if 2 ^ d < 2 * r ∨ (2 * r = 2 ^ d ∧ q % 2 = 1) then q + 1 else q

/-- The 63 low bits of a magnitude `n`, counted in units of 2^-(1074+k), rounded once to nearest, ties to even; overflow gives
an infinity (R12). `d` is how many low bits do not fit: 53 bits are kept, and none below 2^-1074. -/
def roundMag (k n : Nat) : Nat :=
  let d := max k (n.log2 - 52)
  min ((d - k) * 2 ^ 52 + roundShift n d) infPattern

/-- The NaN whose sign and payload are those of `bits`; any NaN is one of these (U8). -/
def nanOf (bits : Num64) : Num64 :=
  numPack (numSign bits) (infPattern + if numFrac bits = 0 then 1 else numFrac bits)

/-- `fmul` (R12); `nan` is the NaN given where a NaN results (U8). -/
def numMul (nan a b : Num64) : Num64 :=
  let neg := numSign a != numSign b
  if numIsNaN a || numIsNaN b then nan
  else if numIsInf a || numIsInf b then
    if numIsZero a || numIsZero b then nan else numPack neg infPattern
  else numPack neg (roundMag 1074 (numMag a * numMag b))

/-- `fadd` (R12); `nan` is the NaN given where a NaN results (U8). -/
def numAdd (nan a b : Num64) : Num64 :=
  if numIsNaN a || numIsNaN b then nan
  else if numIsInf a then
    if numIsInf b && numSign a != numSign b then nan else a
  else if numIsInf b then b
  else
    let z := numVal a + numVal b
    if z = 0 then numPack (numSign a && numSign b) 0
    else numPack (decide (z < 0)) (roundMag 0 z.natAbs)

/-- `fsub` (R12). -/
def numSub (nan a b : Num64) : Num64 := numAdd nan a (numNeg b)

/-- Binary64 as the `NUM` of this hardware (D25), with the NaN that results where one does. -/
def binary64 (nan : Num64) : NumOps Num64 := ⟨numAdd nan, numSub nan, numMul nan⟩

/-- Binary64 at the `n`-th free value: a NaN that results is any NaN (U8). -/
def binary64At (n : Nat) : NumOps Num64 := binary64 (nanOf (Config.freeNaNBits n))

/-- A finite number greater than 0 (R252). -/
def numPositive (x : Num64) : Bool := numIsFinite x && !numSign x && numMag x != 0

/-- `0 < fc < fs/2` with both finite: the cutoffs for which R229 gives the coefficients a meaning. -/
def legalCutoff (fs fc : Num64) : Bool := numPositive fs && numPositive fc && decide (2 * numMag fc < numMag fs)

end Sys2Proof.Machine
end

