-- ==== Sys2Proof/Machine/Biquad.lean ====
section
/-! DEFINITION. What one stage computes and how its registers advance (spec/42_filter_stage.md R231, R232, R236), the cascade of
two (spec/43_crossover.md R256), what a bind loads (R222, R224, R229), and the reference design over the reals (R225, R226). -/

namespace Sys2Proof.Machine

/-- `biquad_out` (R231): evaluated left to right, every product and every sum rounded separately. -/
def biquadOut {α : Type} (ops : NumOps α) (c : Coef α) (h : History α) (x : α) : α :=
  ops.sub
    (ops.sub (ops.add (ops.add (ops.mul c.b0 x) (ops.mul c.b1 h.x1)) (ops.mul c.b2 h.x2)) (ops.mul c.a1 h.y1))
    (ops.mul c.a2 h.y2)

/-- The history update after an output is computed (R232). -/
def History.push {α : Type} (h : History α) (x y : α) : History α := ⟨x, h.x1, y, h.y1⟩

/-- One stage over a buffer (R236): the outputs and the history it leaves. The `i`-th sample is computed with `ops (d + i)`. -/
def biquadRun {α : Type} (ops : Nat → NumOps α) (c : Coef α) (d : Nat) (h : History α) : List α → List α × History α
  | [] => ([], h)
  | x :: xs =>
    let y := biquadOut (ops d) c h x
    let r := biquadRun ops c (d + 1) (h.push x y) xs
    (y :: r.1, r.2)

/-- Two stages in cascade, sample by sample (R256, R265): the outputs and both histories. -/
def cascadeRun {α : Type} (ops : Nat → NumOps α) (c : Coef α) (d : Nat) (h1 h2 : History α) :
    List α → List α × History α × History α
  | [] => ([], h1, h2)
  | x :: xs =>
    let u := biquadOut (ops d) c h1 x
    let v := biquadOut (ops (d + 1)) c h2 u
    let r := cascadeRun ops c (d + 2) (h1.push x u) (h2.push u v) xs
    (v :: r.1, r.2)

/-- A stage after a buffer of `n` samples that left history `h`: `RUNNING` once a sample was processed, unchanged by an empty
buffer (R233, R236). -/
def Stage.ran (g : Stage) (c : Coef Num64) (h : History Num64) (n : Nat) : Stage :=
  if n = 0 then g else ⟨.running c, h⟩

/-- Five free values: coefficients of which the spec says nothing (U7). -/
def freeCoef (n : Nat) : Coef Num64 :=
  ⟨Config.freeNum n, Config.freeNum (n + 1), Config.freeNum (n + 2), Config.freeNum (n + 3), Config.freeNum (n + 4)⟩

/-- What a bind loads: `DESIGN(kind, fs, fc)` for a legal cutoff (R224), and five free values for any other (R229, U7). -/
def boundCoef (kind : FilterKind) (fs fc : Num64) (n : Nat) : Coef Num64 :=
  if legalCutoff fs fc then Config.design kind fs fc else freeCoef n

/-- How many free values a bind draws. -/
def boundDraws (fs fc : Num64) : Nat := if legalCutoff fs fc then 0 else 5

/-- `K = tan(pi x fc / fs)` of the reference design (R225). The design over the reals is no part of a step: `DESIGN` is a
configuration function of which the model assumes nothing else (R224). -/
def IsReferenceK (fs fc k : ℝ) : Prop := k = Real.tan (Real.pi * fc / fs)

/-- The reference low-pass design over the reals, from `K` (R225). -/
def IsReferenceLowPass (k : ℝ) (c : Coef ℝ) : Prop :=
  ∃ d : ℝ, d = 1 + Real.sqrt 2 * k + k ^ 2 ∧
    c.b0 = k ^ 2 / d ∧ c.b1 = 2 * k ^ 2 / d ∧ c.b2 = k ^ 2 / d ∧
    c.a1 = 2 * (k ^ 2 - 1) / d ∧ c.a2 = (1 - Real.sqrt 2 * k + k ^ 2) / d

/-- The reference high-pass design over the reals, from `K` (R226). -/
def IsReferenceHighPass (k : ℝ) (c : Coef ℝ) : Prop :=
  ∃ d : ℝ, d = 1 + Real.sqrt 2 * k + k ^ 2 ∧
    c.b0 = 1 / d ∧ c.b1 = -2 / d ∧ c.b2 = 1 / d ∧
    c.a1 = 2 * (k ^ 2 - 1) / d ∧ c.a2 = (1 - Real.sqrt 2 * k + k ^ 2) / d

/-- The reference design of either kind at a sample rate and a cutoff (R225, R226). -/
def IsReferenceDesign (kind : FilterKind) (fs fc : ℝ) (c : Coef ℝ) : Prop :=
  ∃ k : ℝ, IsReferenceK fs fc k ∧
    match kind with
    | .lp => IsReferenceLowPass k c
    | .hp => IsReferenceHighPass k c

end Sys2Proof.Machine
end

