-- ==== Sys2Proof/Machine/Crossover.lean ====
section
/-! DEFINITION. The crossover commands (spec/43_crossover.md): `XF.INIT`, `XF.APPLY`. -/

namespace Sys2Proof.Machine

/-- The effect of `XF.INIT` (R253): the index check, the range check of R252, then the crossover and both its stages. -/
def State.initXover (s : State) (f : Nat) (kind : FilterKind) (fs : Num64) : State :=
  if s.xovers.length ≤ f then s.raise .argumentRange
  else if numPositive fs = false then s.raise .argumentRange
  else
    (((s.setXover f ⟨true, kind, fs⟩).setStage (2 * f) Stage.fresh).setStage (2 * f + 1) Stage.fresh).respond []

/-- `XF.INIT f, kind, fs` (R251 to R253). -/
def execXfInit (xover : Nat) (kind : FilterKind) (fs : Num64) (s : State) : Host.Outcome State Fault Refusal :=
  .next ((s.accept 3 0).initXover xover kind fs)

/-- The effect of `XF.APPLY` on the two stages (R255, R256): one evaluation of the design for both, then the cascade. -/
def State.applyStages (s : State) (f : Nat) (c : Coef Num64) (g1 g2 : Stage) (xs : List Num64) : State :=
  let r := cascadeRun binary64At c s.draws g1.hist g2.hist xs
  let s := s.setStage (2 * f) ((g1.bind c).ran c r.2.1 xs.length)
  let s := s.setStage (2 * f + 1) ((g2.bind c).ran c r.2.2 xs.length)
  (s.draw (2 * xs.length)).respond (wordsOfNums r.1)

/-- The effect of `XF.APPLY` (R265). The stages of an existing crossover exist (R57; log entry 27). -/
def State.applyXover (s : State) (f : Nat) (fc : Num64) (xs : List Num64) : State :=
  match s.xovers[f]?, s.stages[2 * f]?, s.stages[2 * f + 1]? with
  | some x, some g1, some g2 =>
    if x.inited then
      (s.draw (boundDraws x.fs fc)).applyStages f (boundCoef x.kind x.fs fc s.draws) g1 g2 xs
    else s.raise .illegalCommand
  | _, _, _ => s.raise .argumentRange

/-- `XF.APPLY f, fc, buffer(len)` (R254 to R265). It waits while its buffer has not all arrived (R125, log entry 2). -/
def execXfApply (xover : Nat) (fc : Num64) (len : Nat) (s : State) : Host.Outcome State Fault Refusal :=
  .next (if s.bufIn.length < 2 * len then s
    else (s.accept 4 (2 * len)).applyXover xover fc (numsOfWords len s.bufIn))

end Sys2Proof.Machine
end

