-- ==== Sys2Proof/Machine/FilterStage.lean ====
section
/-! DEFINITION. The stage commands (spec/42_filter_stage.md): `FS.BIND`, `FS.STEP`, `FS.RUN`. -/

namespace Sys2Proof.Machine

/-- The effect of `FS.BIND` (R222). -/
def State.bindStage (s : State) (stage : Nat) (kind : FilterKind) (fs fc : Num64) : State :=
  match s.stages[stage]? with
  | none => s.raise .argumentRange
  | some g => ((s.setStage stage (g.bind (boundCoef kind fs fc s.draws))).draw (boundDraws fs fc)).respond []

/-- `FS.BIND s, kind, fs, fc` (R222). -/
def execFsBind (stage : Nat) (kind : FilterKind) (fs fc : Num64) (s : State) : Host.Outcome State Fault Refusal :=
  .next ((s.accept 5 0).bindStage stage kind fs fc)

/-- The effect of processing a buffer in one stage (R230, R236): the index check, the state check of R234, then every sample. -/
def State.runStage (s : State) (stage : Nat) (xs : List Num64) : State :=
  match s.stages[stage]? with
  | none => s.raise .argumentRange
  | some g =>
    match g.coef? with
    | none => s.raise .illegalCommand
    | some c =>
      let r := biquadRun binary64At c s.draws g.hist xs
      ((s.setStage stage (g.ran c r.2 xs.length)).draw xs.length).respond (wordsOfNums r.1)

/-- `FS.STEP s, x` (R230). -/
def execFsStep (stage : Nat) (x : Num64) (s : State) : Host.Outcome State Fault Refusal :=
  .next ((s.accept 3 0).runStage stage [x])

/-- `FS.RUN s, buffer(len)` (R235, R236). It waits while its buffer has not all arrived (R125, log entry 2). -/
def execFsRun (stage len : Nat) (s : State) : Host.Outcome State Fault Refusal :=
  .next (if s.bufIn.length < 2 * len then s
    else (s.accept 2 (2 * len)).runStage stage (numsOfWords len s.bufIn))

end Sys2Proof.Machine
end

