-- ==== Sys2Proof/Machine/HeaderParser.lean ====
section
/-! DEFINITION. `HP.PARSE` and `HP.RESOLVE` (spec/40_header_parser.md). The parser proper is a function of the window and the
stream length alone (R162); the unaudited literals reach it as a `Params` argument (R16). -/

namespace Sys2Proof.Machine

/-- `"RIFF"` (R10). -/
def riffMark : List Byte := [0x52, 0x49, 0x46, 0x46]

/-- `"fmt "` (R10). -/
def fmtMark : List Byte := [0x66, 0x6D, 0x74, 0x20]

/-- `"data"` (R10). -/
def dataMark : List Byte := [0x64, 0x61, 0x74, 0x61]

/-- The first offset, counted from `p`, at which the bytes begin with `pat`. -/
def findFrom (pat : List Byte) : List Byte → Nat → Option Nat
  | [], _ => none
  | b :: bs, p => if pat.isPrefixOf (b :: bs) then some p else findFrom pat bs (p + 1)

/-- `find(pat, lo)` over the window (R143). -/
def findMark (win pat : List Byte) (lo : Nat) : Option Nat := findFrom pat (win.drop lo) lo

/-- `WinRead(o, n)` (R76). -/
def winRead (win : List Byte) (o n : Nat) : Except Reject Nat :=
  if o + n ≤ win.length then .ok (leNat ((win.drop o).take n)) else .error .beyondWindow

/-- The sample format of a format code or of a GUID tag byte (R148, R152). -/
def formatOf (tag : Nat) : SampleFormat :=
  if tag = 1 then .pcm else if tag = 3 then .ieeeFloat else .unknown

/-- The basic fields of step 6 (R147). -/
structure BasicFields where
  code : Nat
  channels : Nat
  rate : Nat
  depth : Nat
  deriving DecidableEq, Repr

/-- Step 6 (R147): the fields at fixed distances from `e`, in this order; the sub-chunk size is read and discarded (R104). -/
def readBasic (p : Params) (win : List Byte) (e : Nat) : Except Reject BasicFields := do
  let _ ← winRead win e 4
  let code ← winRead win (e + 4) 2
  let channels ← winRead win (e + 6) 2
  let rate ← winRead win (e + 8) p.srBytes
  let depth ← winRead win (e + 18) 2
  pure ⟨code, channels, rate, depth⟩

/-- What steps 7 to 9 leave in `fmt`, `vb` and `em`. -/
structure ExtFields where
  format : SampleFormat
  validBits : Nat
  mask : Nat
  deriving DecidableEq, Repr

/-- Steps 7 to 9 (R148 to R153): the extension block is read only for the extensible code, and recognised only when its
extra-size is 22. -/
def readExtension (p : Params) (win : List Byte) (e code : Nat) : Except Reject ExtFields :=
  if code = Config.extCode then do
    let extra ← winRead win (e + 20) 2
    if extra = Config.extSize then do
      let vb ← winRead win (e + 22) 2
      let em ← winRead win (e + 24) 4
      let tag ← winRead win (e + 28 + p.guidTagIndex) 1
      pure ⟨formatOf tag, vb, em⟩
    else pure ⟨formatOf code, 0, 0⟩
  else pure ⟨formatOf code, 0, 0⟩

/-- Step 10 (R154): valid bits that were never populated default to the bit depth. -/
def defaultValidBits (vb depth : Nat) : Nat := if vb = 0 then depth else vb

/-- Steps 11 and 12 (R155, R156): the payload's first byte, and that the stream reaches it. -/
def locatePayload (win : List Byte) (len : Nat) : Except Reject Nat :=
  match findMark win dataMark 0 with
  | none => .error .noData
  | some q => if len < q + 8 then .error .insideDataHeader else .ok (q + 8)

/-- Step 13 (R157): the five tests, in order. -/
def validate (depth vb rate channels : Nat) (format : SampleFormat) : Except Reject Unit :=
  if depth ∉ Config.bitDepths then .error .bitDepth
  else if vb = 0 ∨ depth < vb then .error .validBits
  else if rate = 0 then .error .sampleRate
  else if channels = 0 then .error .channelCount
  else if format = .unknown then .error .sampleFormat
  else .ok ()

/-- What a successful parse commits (R158). -/
structure Header where
  md : Metadata
  explMask : Word
  dataStart : BitVec 32
  deriving DecidableEq, Repr

/-- Steps 4 to 13 over the window (R161). -/
def parseHeader (p : Params) (win : List Byte) (len : Nat) : Except Reject Header :=
  if win.take 4 ≠ riffMark then .error .noRiff
  else
    match findMark win fmtMark 0 with
    | none => .error .noFmt
    | some at0 => do
      let basic ← readBasic p win (at0 + 4)
      let ext ← readExtension p win (at0 + 4) basic.code
      let vb := defaultValidBits ext.validBits basic.depth
      let start ← locatePayload win len
      validate basic.depth vb basic.rate basic.channels ext.format
      pure {
        md := {
          format := ext.format
          channelCount := BitVec.ofNat 16 basic.channels
          sampleRate := BitVec.ofNat 32 basic.rate
          bitDepth := BitVec.ofNat 16 basic.depth
          validBits := BitVec.ofNat 16 vb
          audioLengthBytes := BitVec.ofNat 32 (len - start) }
        explMask := BitVec.ofNat 32 ext.mask
        dataStart := BitVec.ofNat 32 start }

/-- Step 14 (R158). -/
def State.commit (s : State) (h : Header) : State :=
  { s with
    md := h.md
    explMask := h.explMask
    dataStart := h.dataStart
    resolved := false
    built := false
    streams := []
    container := .opened }

/-- Steps 4 to 14 on the state step 3 leaves (R161), with the failure writes of R159 and the text of a rejection (R282).
DESIGN CHOICE (log entry 32): the `STREAM_LEN` that step 3 wrote stays after a rejection; R159 says so of "the scratch registers
and `WIN`" only. -/
def State.finishParse (s : State) (len : Nat) : State :=
  match parseHeader Config.params s.win len with
  | .error e => (s.dropContainer.raise .unrecognisedFormat).giveReason (Config.parseReason e s.win len)
  | .ok h => (s.commit h).respond h.md.words

/-- `HP.PARSE len` (R140, R161). -/
def execHpParse (len : Nat) (s : State) : Host.Outcome State Fault Refusal :=
  let s := s.accept 3 0
  if s.container = .opened then .next (s.raise .illegalCommand)
  else if s.present = false then .next (s.dropContainer.raise .notFound)
  else if Config.maxStreamLen < len then .next (s.dropContainer.raise .fileTooLarge)
  else nextOrFault ((s.loadWindow len).map fun t => t.finishParse len)

/-- The mask of a channel count and an explicit mask (R164 to R168, R170); none beyond the speaker table. -/
def resolveMask (p : Params) (channels : Nat) (explicit : Word) : Option ResolvedMask :=
  if explicit ≠ 0 then some ⟨false, explicit⟩
  else if channels = 1 then some ⟨true, 0⟩
  else if channels = 8 then some ⟨false, p.mask8⟩
  else if channels ≤ p.speakerTable.length then
    some ⟨false, (p.speakerTable.take channels).foldl (· ||| ·) 0⟩
  else none

/-- The two result words of `HP.RESOLVE` (R122). -/
def ResolvedMask.words (r : ResolvedMask) : List Word := [(BitVec.ofBool r.mono).zeroExtend 32, r.mask]

/-- `HP.RESOLVE` (R163, R170); a count beyond the table is fatal (R168) and carries a text (R282). -/
def execHpResolve (s : State) : Host.Outcome State Fault Refusal :=
  let s := s.accept 1 0
  match s.container with
  | .disposed => .next (s.raise .disposed)
  | .closed => .next (s.raise .illegalCommand)
  | .opened =>
    match resolveMask Config.params s.md.channelCount.toNat s.explMask with
    | none =>
      .next (({ s with container := .closed, resolved := false }.raise .unrecognisedFormat).giveReason
        (Config.resolveReason s.md.channelCount.toNat))
    | some r => .next ({ s with rm := r, resolved := true }.respond r.words)

end Sys2Proof.Machine
end

