-- ==== Sys2Proof/Machine/Dispatch.lean ====
section
/-! DEFINITION. One arm per command (spec/30_encoding.md R120). -/

namespace Sys2Proof.Machine

def exec (i : Instr) (s : State) : Host.Outcome State Fault Refusal :=
  match i with
  | .hpParse len => Sys2Proof.Machine.execHpParse len s
  | .hpResolve => Sys2Proof.Machine.execHpResolve s
  | .csBuild own cap => Sys2Proof.Machine.execCsBuild own cap s
  | .csEnum => Sys2Proof.Machine.execCsEnum s
  | .csRead pos count => Sys2Proof.Machine.execCsRead pos count s
  | .csWrite pos len => Sys2Proof.Machine.execCsWrite pos len s
  | .csClose pos => Sys2Proof.Machine.execCsClose pos s
  | .csDispose => Sys2Proof.Machine.execCsDispose s
  | .fsBind stage kind fs fc => Sys2Proof.Machine.execFsBind stage kind fs fc s
  | .fsStep stage x => Sys2Proof.Machine.execFsStep stage x s
  | .fsRun stage len => Sys2Proof.Machine.execFsRun stage len s
  | .xfInit xover kind fs => Sys2Proof.Machine.execXfInit xover kind fs s
  | .xfApply xover fc len => Sys2Proof.Machine.execXfApply xover fc len s

end Sys2Proof.Machine
end

