-- ==== Sys2Proof/Machine/Fetch.lean ====
section
/-! DEFINITION. What the step does besides running a command: taking an illegal word, and placing words on the command port. -/

namespace Sys2Proof.Machine

/-- An illegal command word: a complete command of one word that ends with `IllegalCommand` and changes no state except
`LASTERR` (R125). -/
def State.illegalWord (s : State) : State := (s.accept 1 0).raise .illegalCommand

/-- The words of an instruction, as spec/opcode_table.json numbers its bits, alone on the command port, with no reset asserted
(which the next step would act on instead). -/
def State.placeWords (s : State) (nbits w : Nat) : State := { s with cmdIn := tableWords nbits w, resetIn := false }

end Sys2Proof.Machine
end

