-- ==== Sys2Proof/Machine/Step.lean ====
section
/-! DEFINITION. One step: an asserted reset is acted on; else the command at the front of the command port runs to completion
(spec/20_memory.md R85, R86); else, with no complete command there, the block waits and nothing changes (R304, R322). -/

namespace Sys2Proof.Machine

def step (s : State) : Host.Outcome State Fault Refusal :=
  if s.resetIn then .next s.assertReset
  else
    match decode s.cmdIn with
    | .instr i _ => exec i s
    | .illegal _ => .next s.illegalWord
    | .incomplete => .next s

/-- `s` with an instruction's words where the next step takes its command (log entry 1). -/
def State.withFetchWord (s : State) (nbits w : Nat) : State := s.placeWords nbits w

end Sys2Proof.Machine
end

