-- ==== Sys2Proof/Safety.lean ====
section
/-! DEFINITION. What claims about WAVFLT are stated in: the state invariants of spec/10_state.md R61 and the facts they rest on,
what the host owes the block about the stream (R343), a clean end of a run (R342), what a header must hold to be accepted
(R145 to R157, as a relation), which bytes a sample occupies (R83), and which words and units a command takes (R125, R57). -/

namespace Sys2Proof.Machine

/-! ## Invariants -/

/-- The legal values of `MD.*` while a container is open (R38, R61(a)). -/
abbrev Metadata.Legal (m : Metadata) : Prop :=
  m.format ≠ .unknown ∧ 1 ≤ m.channelCount.toNat ∧ (1 ≤ m.sampleRate.toNat ∧ m.sampleRate.toNat ≤ 65535) ∧
    m.bitDepth.toNat ∈ Config.bitDepths ∧ (1 ≤ m.validBits.toNat ∧ m.validBits.toNat ≤ m.bitDepth.toNat) ∧
    m.audioLengthBytes.toNat ≤ 2 ^ 31 - 9

/-- Where the payload of an open container lies (R35, R41, R156): the header is 8 to 1028 bytes, and header and payload make up
the stream, which is at most `MAX_STREAM_LEN` long. -/
abbrev State.LayoutLegal (s : State) : Prop :=
  8 ≤ s.dataStart.toNat ∧ s.dataStart.toNat ≤ 1028 ∧
    s.dataStart.toNat + s.md.audioLengthBytes.toNat = s.streamLen.toNat ∧ s.streamLen.toNat ≤ Config.maxStreamLen

/-- The exclusive-or of R42: the `Mono` sentinel with an empty mask, or a non-empty mask. -/
abbrev ResolvedMask.Exclusive (r : ResolvedMask) : Prop :=
  (r.mono = true ∧ r.mask = 0) ∨ (r.mono = false ∧ r.mask ≠ 0)

/-- The address is a byte of one of the frames `n, ..., n + len - 1` of slot `k` (R83). -/
abbrev State.SampleByte (s : State) (k n len a : Nat) : Prop :=
  ∃ i < len, ∃ j < s.md.bytesPerSample, a = s.sampleAddr k (n + i) + j

/-- What holds of the entry in slot `k` of the stream table (R61(d), R50, R51, R91, R197): capacity at least 1024, cursor within
the payload, at most `cap` bytes pending, each a byte of a frame of this slot that the cursor has passed, and none pending in a
closed stream. -/
abbrev ChannelStream.Legal (s : State) (k : Nat) (c : ChannelStream) : Prop :=
  1024 ≤ c.cap.toNat ∧ c.cursor.toNat ≤ s.md.nFrames ∧ c.wb.length ≤ c.cap.toNat ∧
    (∀ p ∈ c.wb, k < s.md.channelCount.toNat ∧ s.SampleByte k 0 c.cursor.toNat p.1) ∧ (c.closed = true → c.wb = [])

/-- R61(a), with the layout of the payload: what holds of the header registers while a container is open. -/
abbrev State.HeaderInv (s : State) : Prop := s.container = .opened → s.md.Legal ∧ s.LayoutLegal

/-- R61(b): a resolved mask belongs to a container that is not closed, is exclusive (R42), and is the one its header resolves
to (R169). -/
abbrev State.ResolveInv (s : State) : Prop :=
  s.resolved = true →
    s.container ≠ .closed ∧ s.rm.Exclusive ∧
      resolveMask Config.params s.md.channelCount.toNat s.explMask = some s.rm

/-- R61(c), (d): a built table belongs to a resolved mask and has one stream a position, in order (R183); with no table built
there is no stream (R46). Every entry is legal, and outside an open container every entry is closed (R199, R342). -/
abbrev State.StreamsInv (s : State) : Prop :=
  (s.built = true → s.resolved = true ∧ s.streams.map (·.pos.toNat) = s.rm.positions) ∧
    (s.built = false → s.streams = []) ∧
    (∀ k, (h : k < s.streams.length) → s.streams[k].Legal s k) ∧
    (s.container ≠ .opened → ∀ c ∈ s.streams, c.closed = true)

/-- R61(e), (f), R57: a stage has no coefficients exactly when it is `CONSTRUCTED`, an initialised crossover has a sample rate
that is finite and positive, and every crossover owns two stages. -/
abbrev State.FilterInv (s : State) : Prop :=
  (∀ g ∈ s.stages, g.st = 0 ↔ g.coef? = none) ∧
    (∀ x ∈ s.xovers, x.inited = true → numPositive x.fs = true) ∧ s.stages.length = 2 * s.xovers.length

/-- The stream's cells are in canonical form. -/
abbrev State.MemoryInv (s : State) : Prop := s.stream.wf = true

/-- All the invariants of R61. -/
abbrev State.Inv (s : State) : Prop :=
  s.HeaderInv ∧ s.ResolveInv ∧ s.StreamsInv ∧ s.FilterInv ∧ s.MemoryInv

/-! ## The host's duties, and how a run ends -/

/-- The stream holds a byte at every address below `n`: what the host owes the block when it gives a length (R343). -/
abbrev State.StreamHolds (s : State) (n : Nat) : Prop := ∀ a < n, (s.stream.read a).isSome = true

/-- What the host owes a command about the stream (R343): the bytes of the open container's stream, and of the window a parse
will read. -/
abbrev State.HostOwes (s : State) (i : Instr) : Prop :=
  (s.container = .opened → s.StreamHolds s.streamLen.toNat) ∧
    match i with
    | .hpParse len => s.StreamHolds (min Config.winBytes len)
    | _ => True

/-- A run that ends in this state is clean at its end (R342). -/
abbrev State.CleanEnd (s : State) : Prop := s.container ≠ .opened

/-! ## Ports -/

/-- How many words of the buffer port a command takes (R119, R124, R125). -/
def State.bufferWords (s : State) : Instr → Nat
  | .hpParse _ => 0
  | .hpResolve => 0
  | .csBuild _ _ => 0
  | .csEnum => 0
  | .csRead _ _ => 0
  | .csWrite _ len => s.rawWords * len
  | .csClose _ => 0
  | .csDispose => 0
  | .fsBind _ _ _ _ => 0
  | .fsStep _ _ => 0
  | .fsRun _ len => 2 * len
  | .xfInit _ _ _ => 0
  | .xfApply _ _ len => 2 * len

/-- The buffer of the command has arrived (R125). -/
abbrev State.Ready (s : State) (i : Instr) : Prop := s.bufferWords i ≤ s.bufIn.length

/-- The command addresses the container (`HP`, `CS`), not a filter unit (`FS`, `XF`) (R1). -/
def ofContainer : Instr → Bool
  | .hpParse _ => true
  | .hpResolve => true
  | .csBuild _ _ => true
  | .csEnum => true
  | .csRead _ _ => true
  | .csWrite _ _ => true
  | .csClose _ => true
  | .csDispose => true
  | .fsBind _ _ _ _ => false
  | .fsStep _ _ => false
  | .fsRun _ _ => false
  | .xfInit _ _ _ => false
  | .xfApply _ _ _ => false

/-- The command addresses stage `k`, itself or through the crossover that owns it (R57). -/
def usesStage (k : Nat) : Instr → Bool
  | .hpParse _ => false
  | .hpResolve => false
  | .csBuild _ _ => false
  | .csEnum => false
  | .csRead _ _ => false
  | .csWrite _ _ => false
  | .csClose _ => false
  | .csDispose => false
  | .fsBind stage _ _ _ => stage == k
  | .fsStep stage _ => stage == k
  | .fsRun stage _ => stage == k
  | .xfInit xover _ _ => 2 * xover == k || 2 * xover + 1 == k
  | .xfApply xover _ _ => 2 * xover == k || 2 * xover + 1 == k

/-- Everything of the container and its ports is as it was: all that a filter command leaves alone (R325: "The filter units and
the container units are independent"). -/
abbrev State.SameContainer (s t : State) : Prop :=
  t.container = s.container ∧ t.win = s.win ∧ t.streamLen = s.streamLen ∧ t.md = s.md ∧ t.explMask = s.explMask ∧
    t.dataStart = s.dataStart ∧ t.resolved = s.resolved ∧ t.rm = s.rm ∧ t.built = s.built ∧ t.streams = s.streams ∧
    t.stream = s.stream ∧ t.releases = s.releases ∧ t.reasons = s.reasons

/-! ## How a command ends -/

/-- The state in which a command ends `OK` with these result words (R122), having taken its words from the ports (R125), and in
which nothing else has changed. -/
abbrev State.endsOk (s : State) (cmdWords bufWords : Nat) (results : List Word) : State :=
  { s with
    cmdIn := s.cmdIn.drop cmdWords
    bufIn := s.bufIn.drop bufWords
    responses := s.responses ++ [⟨0, results⟩] }

/-- The state in which a command ends in the error with this code (R281): its words taken (R125), `LASTERR` and the response
written, and nothing else changed (R290). -/
abbrev State.endsIn (s : State) (cmdWords bufWords code : Nat) : State :=
  { s with
    cmdIn := s.cmdIn.drop cmdWords
    bufIn := s.bufIn.drop bufWords
    lastErr := BitVec.ofNat 4 code
    responses := s.responses ++ [⟨BitVec.ofNat 32 code, []⟩] }

/-- The container dropped: what a failed parse leaves (R159). -/
abbrev State.noContainer (s : State) : State :=
  { s with container := .closed, resolved := false, built := false, streams := [] }

/-! ## Streams -/

/-- The slots whose stream owns its handle and is still open: what a disposal releases, in order (R198, R199). -/
def State.ownedOpen (s : State) : List Nat :=
  (List.range s.streams.length).filter fun k => s.streams[k]?.any fun c => c.own && !c.closed

/-- The address is one a command may store to: for `CS.WRITE`, a pending write of the stream addressed or a byte of the samples
written (R195); for `CS.CLOSE`, a pending write of the stream addressed (R198); for `CS.BUILD` and `CS.DISPOSE`, any pending write
(R185, R199); for every other command, none. -/
def State.mayStore (s : State) (a : Nat) : Instr → Prop
  | .hpParse _ => False
  | .hpResolve => False
  | .csBuild _ _ => ∃ p ∈ s.pending, p.1 = a
  | .csEnum => False
  | .csRead _ _ => False
  | .csWrite pos len => ∃ k c, s.lookup pos = some k ∧ s.streams[k]? = some c ∧
      ((∃ p ∈ c.wb, p.1 = a) ∨ s.SampleByte k c.cursor.toNat len a)
  | .csClose pos => ∃ k c, s.lookup pos = some k ∧ s.streams[k]? = some c ∧ ∃ p ∈ c.wb, p.1 = a
  | .csDispose => ∃ p ∈ s.pending, p.1 = a
  | .fsBind _ _ _ _ => False
  | .fsStep _ _ => False
  | .fsRun _ _ => False
  | .xfInit _ _ _ => False
  | .xfApply _ _ _ => False

/-- The stream at a position is found: the container is open, the table built, and the entry in slot `k` is not closed (R180,
R187, R201). -/
abbrev State.Finds (s : State) (pos k : Nat) (c : ChannelStream) : Prop :=
  s.container = .opened ∧ s.built = true ∧ s.lookup pos = some k ∧ s.streams[k]? = some c ∧ c.closed = false

/-- `CS.READ` and `CS.WRITE` of `count` samples have a meaning and samples to take: the stream is found, its slot lies inside the
frame, and `count` samples remain (R191, R195). -/
abbrev State.Usable (s : State) (pos k count : Nat) (c : ChannelStream) : Prop :=
  s.Finds pos k c ∧ k < s.md.channelCount.toNat ∧ count ≤ s.remaining c

/-- The stream's bytes, at every address, as the block reads them: `before` everywhere but at the bytes of the samples, which
hold the values `vs`, least significant byte first (R74, R83, R195). -/
abbrev State.HoldsSamples (s : State) (k n : Nat) (vs : List Nat) (before after : Nat → Option Byte) : Prop :=
  (∀ i, (h : i < vs.length) → ∀ j < s.md.bytesPerSample,
      after (s.sampleAddr k (n + i) + j) = some (BitVec.ofNat 8 (vs[i] / 256 ^ j))) ∧
    ∀ a, ¬ s.SampleByte k n vs.length a → after a = before a

/-- How many bits of the word are 1 (R9). -/
def popcount (w : Word) : Nat := ((List.range 32).filter fun i => w.getLsbD i).length

/-! ## Headers -/

/-- The unsigned integer of the window bytes `o` to `o + n - 1`, least significant byte first (R74, R76). -/
def windowField (win : List Byte) (o n : Nat) : Nat := ∑ i ∈ Finset.range n, 256 ^ i * (win.getD (o + i) 0).toNat

/-- `p` is the smallest offset from `lo` on at which the four bytes `pat` lie in the window (R143). -/
abbrev FirstAt (win pat : List Byte) (lo p : Nat) : Prop :=
  lo ≤ p ∧ (win.drop p).take 4 = pat ∧ ∀ o < p, lo ≤ o → (win.drop o).take 4 ≠ pat

/-- The format that a format code or a GUID tag byte names (R148, R152). -/
abbrev NamesFormat (tag : Nat) (format : SampleFormat) : Prop :=
  (tag = 1 ∧ format = .pcm) ∨ (tag = 3 ∧ format = .ieeeFloat)

/-- What the header says of its format, valid bits and mask, with the format fields at `e`: a basic header names the format by
its code and leaves the other two unset (R148, R149); an extensible one with extra-size 22 gives all three (R150, R152). -/
abbrev FormatFields (win : List Byte) (e : Nat) (format : SampleFormat) (vb em : Nat) : Prop :=
  (NamesFormat (windowField win (e + 4) 2) format ∧ vb = 0 ∧ em = 0) ∨
    (windowField win (e + 4) 2 = 0xFFFE ∧ e + 32 ≤ win.length ∧ windowField win (e + 20) 2 = 22 ∧
      NamesFormat (windowField win (e + 31) 1) format ∧ vb = windowField win (e + 22) 2 ∧ em = windowField win (e + 24) 4)

/-- The header in the window is acceptable, with the format fields at `e`, the `"data"` marker at `q`, and what they say of
format, valid bits and mask; `h` is what a parse then commits (R145 to R158). -/
abbrev HeaderAt (win : List Byte) (len e q : Nat) (format : SampleFormat) (vb em : Nat) (h : Header) : Prop :=
  let depth := windowField win (e + 18) 2
  let valid := if vb = 0 then depth else vb
  win.take 4 = [0x52, 0x49, 0x46, 0x46] ∧
    (4 ≤ e ∧ FirstAt win [0x66, 0x6D, 0x74, 0x20] 0 (e - 4)) ∧ FirstAt win [0x64, 0x61, 0x74, 0x61] 0 q ∧
    e + 20 ≤ win.length ∧ q + 8 ≤ len ∧ FormatFields win e format vb em ∧
    depth ∈ [8, 16, 24, 32, 64, 128] ∧ valid ≤ depth ∧ windowField win (e + 8) 2 ≠ 0 ∧ windowField win (e + 6) 2 ≠ 0 ∧
    h = {
      md := {
        format := format
        channelCount := BitVec.ofNat 16 (windowField win (e + 6) 2)
        sampleRate := BitVec.ofNat 32 (windowField win (e + 8) 2)
        bitDepth := BitVec.ofNat 16 depth
        validBits := BitVec.ofNat 16 valid
        audioLengthBytes := BitVec.ofNat 32 (len - (q + 8)) }
      explMask := BitVec.ofNat 32 em
      dataStart := BitVec.ofNat 32 (q + 8) }

/-- The header in the window is acceptable, and `h` is what a parse commits. -/
def HeaderAccepted (win : List Byte) (len : Nat) (h : Header) : Prop :=
  ∃ e q format vb em, HeaderAt win len e q format vb em h

/-! ## Filters -/

/-- One stage over a buffer as a difference equation (R231, R232, R236): with the two samples before the buffer in front of it,
output `i` is `b0 x[i] + b1 x[i-1] + b2 x[i-2] - a1 y[i-1] - a2 y[i-2]`, evaluated left to right; any NaN that results is some
NaN (U8). -/
def StageOutputs (c : Coef Num64) (h : History Num64) (xs ys : List Num64) : Prop :=
  ys.length = xs.length ∧
    ∀ i < xs.length, ∃ nan, numIsNaN nan = true ∧
      let x := fun d => (h.x2 :: h.x1 :: xs).getD (i + 2 - d) 0
      let y := fun d => (h.y2 :: h.y1 :: ys).getD (i + 2 - d) 0
      y 0 = numSub nan (numSub nan (numAdd nan (numAdd nan (numMul nan c.b0 (x 0)) (numMul nan c.b1 (x 1)))
        (numMul nan c.b2 (x 2))) (numMul nan c.a1 (y 1))) (numMul nan c.a2 (y 2))

/-- The history after a buffer: the last two inputs and the last two outputs, the ones before the buffer where it is shorter
(R232, R260). -/
def historyAfter (h : History Num64) (xs ys : List Num64) : History Num64 :=
  let x := h.x2 :: h.x1 :: xs
  let y := h.y2 :: h.y1 :: ys
  ⟨x.getD (xs.length + 1) 0, x.getD xs.length 0, y.getD (ys.length + 1) 0, y.getD ys.length 0⟩

/-- The stage after it processed a buffer with coefficients `c` (R233, R236): `RUNNING`, or untouched by an empty buffer. -/
def stageAfter (g : Stage) (c : Coef Num64) (xs ys : List Num64) : Stage :=
  if xs = [] then g else ⟨.running c, historyAfter g.hist xs ys⟩

/-- The stage after a bind (R53, R222, R255): coefficients loaded, `CONSTRUCTED` becomes `BOUND`, history untouched. -/
def stageBound (g : Stage) (c : Coef Num64) : Stage :=
  if g.st = 2 then ⟨.running c, g.hist⟩ else ⟨.bound c, g.hist⟩

/-- What a bind may load: `DESIGN` for a legal cutoff (R224), any five values for another (R229, U7). -/
def MayBind (kind : FilterKind) (fs fc : Num64) (c : Coef Num64) : Prop :=
  legalCutoff fs fc = true → c = Config.design kind fs fc

/-- `z` is the value of a coefficient set's transfer function at a point at which it has one, `w` standing for one sample of
delay (R228, R262). -/
def HasTransfer (c : Coef ℝ) (w z : ℂ) : Prop :=
  1 + c.a1 * w + c.a2 * w ^ 2 ≠ 0 ∧ z * (1 + c.a1 * w + c.a2 * w ^ 2) = c.b0 + c.b1 * w + c.b2 * w ^ 2

end Sys2Proof.Machine
end

