-- ==== Sys2Proof/Certificates/Slice0/Obligations.lean ====
section
/-! DEFINITION. The statements about WAVFLT, for the provers. Each docstring names the rule of spec/ a statement formalises. No
statement rests on the value of the model's own draw counter (log entry 24) or of a free value. -/

section
open Sys2Proof Sys2Proof.Machine

/-! ## Commands as words -/

/-- A well-formed command survives the command port, whatever words follow it (R119 to R121, R123). -/
def Obligations.DecodeOfEncode : Prop :=
  ∀ (i : Instr) (rest : List Word), i.WellFormed → decode (encode i ++ rest) = .instr i rest

/-- The decoder invents no command: what it reads is well-formed, and the words it took are that command's (R119 to R121). -/
def Obligations.EncodeOfDecode : Prop :=
  ∀ (ws rest : List Word) (i : Instr), decode ws = .instr i rest → i.WellFormed ∧ encode i ++ rest = ws

/-- No command word selects two rows of the command table (R120). -/
def Obligations.OneRowPerWord : Prop :=
  ∀ (w : Word), ∀ r ∈ opcTable, ∀ r' ∈ opcTable, r.selects w = true → r'.selects w = true → r = r'

/-- Words of spec/95_test_vectors.md (E3, P2, P3, P4) decode to the commands written beside them. A sanity statement. -/
def Obligations.SpecWordsDecode : Prop :=
  decode [0x01000000#32, 0x0000004C#32, 0x00000000#32] = .instr (.hpParse 76) [] ∧
    decode [0x10000002#32, 0x000003FF#32] = .instr (.csBuild false (some 1023)) [] ∧
    decode [0x10000001#32] = .instr (.csBuild true none) [] ∧
    decode [0x12200000#32, 0x00000004#32] = .instr (.csRead 32 4) [] ∧
    decode [0x13010000#32, 0x00000002#32] = .instr (.csWrite 1 2) [] ∧
    decode [0x31000000#32, 0x00000000#32, 0x40C77000#32, 0x00000002#32] = .instr (.xfApply 0 0x40C7700000000000#64 2) [] ∧
    decode [0x30000001#32, 0x00000000#32, 0x40E77000#32] = .instr (.xfInit 0 .hp 0x40E7700000000000#64) []

/-- With no reset asserted, a step runs the command that the words at the front of the command port decode to. The port as a
queue of words is the model's (log entry 1). -/
def Obligations.StepRunsCommand : Prop :=
  ∀ (s : State) (i : Instr) (rest : List Word), s.resetIn = false → decode s.cmdIn = .instr i rest → step s = exec i s

/-- With no complete command on the command port a step changes nothing, and neither does a command whose buffer has not all
arrived (R322; the model's reading of R125, log entry 2). -/
def Obligations.IncompleteWaits : Prop :=
  (∀ s : State, s.resetIn = false → decode s.cmdIn = .incomplete → step s = .next s) ∧
    ∀ (i : Instr) (s : State), ¬ s.Ready i → exec i s = .next s

/-- A word that matches no row is a complete command of one word, which ends with `IllegalCommand` and changes no state except
`LASTERR` (R125). -/
def Obligations.IllegalWordEnds : Prop :=
  ∀ (s : State) (w : Word) (ws : List Word), s.resetIn = false → s.cmdIn = w :: ws →
    (∀ r ∈ opcTable, w &&& r.mask ≠ r.pattern) → step s = .next (s.endsIn 1 0 8)

/-- Whatever its outcome, a command takes exactly the words it announces and gives exactly one response, whose status is a
code of R281 and which carries no result words on an error (R122, R125, R131). The response port as a list is the model's (log
entry 3), and so is the width of a raw sample of a `CS.WRITE` while no container was opened (log entry 19). -/
def Obligations.OneResponsePerCommand : Prop :=
  ∀ (i : Instr) (s t : State), s.Ready i → exec i s = .next t →
    t.cmdIn = s.cmdIn.drop (encode i).length ∧ t.bufIn = s.bufIn.drop (s.bufferWords i) ∧
      ∃ r : Response, t.responses = s.responses ++ [r] ∧ r.status.toNat ≤ 8 ∧ (r.status ≠ 0 → r.results = [])

/-! ## Reset -/

/-- The values R60 gives for reset (and no others), with the shape of the filter units (R8, R57). That there are at
most 256 stages follows from R126 and the range the model gives `N_XF` (log entry 12). -/
def Obligations.ResetValues : Prop :=
  State.reset.container = .closed ∧ State.reset.lastErr = 0 ∧ State.reset.resolved = false ∧ State.reset.built = false ∧
    State.reset.streams = [] ∧
    (∀ g ∈ State.reset.stages, g.st = 0 ∧ g.coef? = none ∧ g.hist = ⟨0, 0, 0, 0⟩) ∧
    (∀ x ∈ State.reset.xovers, x.inited = false) ∧
    1 ≤ State.reset.xovers.length ∧ State.reset.stages.length = 2 * State.reset.xovers.length ∧
    State.reset.stages.length ≤ 256

/-- An asserted reset puts every register at its reset value, discards what is pending, and signals no release (R320, R321).
The request is then cleared; how the reset input is asserted, and that the ports keep what lies on them, is the model's (log
entry 7). -/
def Obligations.ResetAsserted : Prop :=
  ∀ s : State, s.resetIn = true → ∃ t, step s = .next t ∧
    t.container = .closed ∧ t.lastErr = 0 ∧ t.resolved = false ∧ t.built = false ∧ t.streams = [] ∧ t.pending = [] ∧
    t.stages.length = s.stages.length ∧ (∀ g ∈ t.stages, g.st = 0 ∧ g.coef? = none ∧ g.hist = ⟨0, 0, 0, 0⟩) ∧
    t.xovers.length = s.xovers.length ∧ (∀ x ∈ t.xovers, x.inited = false) ∧
    t.resetIn = false ∧ t.stream = s.stream ∧ t.present = s.present ∧ t.cmdIn = s.cmdIn ∧ t.bufIn = s.bufIn ∧
    t.responses = s.responses ∧ t.releases = s.releases ∧ t.reasons = s.reasons

/-- The state after reset meets the invariants (R61, which the spec marks "derived: from rules R38, R42, R46, R48, R54,
R56"). -/
def Obligations.ResetKeepsInv : Prop := State.reset.Inv

/-! ## Header parser -/

/-- `find(pat, lo)` answers the smallest offset at which the marker lies in the window, or none when there is no such offset
(R143). -/
def Obligations.FindIsFirst : Prop :=
  ∀ (win pat : List Byte) (lo : Nat), pat.length = 4 →
    (∀ p, findMark win pat lo = some p ↔ FirstAt win pat lo p) ∧
      (∀ p, findMark win pat lo = some p → p + 4 ≤ win.length) ∧
      (findMark win pat lo = none ↔ ∀ o, lo ≤ o → (win.drop o).take 4 ≠ pat)

/-- `WinRead(o, n)` is the little-endian value of the window's bytes, or a failure beyond the window (R76). -/
def Obligations.WindowReads : Prop :=
  ∀ (win : List Byte) (o n : Nat),
    (o + n ≤ win.length → winRead win o n = .ok (windowField win o n)) ∧
      (win.length < o + n → winRead win o n = .error .beyondWindow)

/-- `HP.PARSE` of an acceptable header ends `OK`: window, length and metadata written, the container open, nothing resolved
and no stream built (R140, R144 to R158). -/
def Obligations.ParseCommits : Prop :=
  ∀ (s : State) (len : Nat) (w : List Byte) (h : Header),
    s.container ≠ .opened → s.present = true → len ≤ 2 ^ 31 - 1 → s.bytesAt 0 (min 1024 len) = some w →
    HeaderAccepted w len h →
    exec (.hpParse len) s = .next { s.endsOk 3 0 [h.md.format.code.zeroExtend 32, h.md.channelCount.zeroExtend 32,
        h.md.sampleRate, h.md.bitDepth.zeroExtend 32, h.md.validBits.zeroExtend 32, h.md.audioLengthBytes] with
      container := .opened, streamLen := BitVec.ofNat 32 len, win := w, md := h.md, explMask := h.explMask,
      dataStart := h.dataStart, resolved := false, built := false, streams := [] }

/-- `HP.PARSE` of any other header ends in `UnrecognisedFormat` and leaves no container (R145 to R157, R159), with the text
of the failing test, if the implementation produces one, on the side channel (R122, R282; what a text may depend on, log entry
23). That `STREAM_LEN` keeps the failed parse's length is the model's choice (log entry 32). -/
def Obligations.ParseRejects : Prop :=
  ∀ (s : State) (len : Nat) (w : List Byte),
    s.container ≠ .opened → s.present = true → len ≤ 2 ^ 31 - 1 → s.bytesAt 0 (min 1024 len) = some w →
    (∀ h, ¬ HeaderAccepted w len h) →
    ∃ e : Reject, parseHeader Config.params w len = .error e ∧
      exec (.hpParse len) s = .next { (s.endsIn 3 0 1).noContainer with
        streamLen := BitVec.ofNat 32 len, win := w, reasons := s.reasons ++ (Config.parseReason e w len).toList }

/-- The checks of `HP.PARSE` before any byte is read, in their order: an open container, no stream attached, a stream too long
(R140 to R142, R159, R286, R287, R295). -/
def Obligations.OpenTimeChecks : Prop :=
  ∀ (s : State) (len : Nat),
    (s.container = .opened → exec (.hpParse len) s = .next (s.endsIn 3 0 8)) ∧
    (s.container ≠ .opened → s.present = false → exec (.hpParse len) s = .next (s.endsIn 3 0 6).noContainer) ∧
    (s.container ≠ .opened → s.present = true → 2 ^ 31 - 1 < len →
      exec (.hpParse len) s = .next (s.endsIn 3 0 5).noContainer)

/-- `HP.PARSE` is a function of the length, the window and `PRESENT` alone: two parses that agree on these give the same
response, and the same header where they succeed (R162, which the spec marks "derived: from rule R161"). That they give the same
`REASON` text too is the model's choice (log entry 23). -/
def Obligations.ParseReadsWindowOnly : Prop :=
  ∀ (s s' t : State) (len : Nat),
    s.container ≠ .opened → s'.container ≠ .opened → s'.present = s.present →
    s'.bytesAt 0 (min 1024 len) = s.bytesAt 0 (min 1024 len) → exec (.hpParse len) s = .next t →
    ∃ t' r texts, exec (.hpParse len) s' = .next t' ∧
      t.responses = s.responses ++ [r] ∧ t'.responses = s'.responses ++ [r] ∧
      t.reasons = s.reasons ++ texts ∧ t'.reasons = s'.reasons ++ texts ∧
      t'.container = t.container ∧
      (t.container = .opened → t'.md = t.md ∧ t'.explMask = t.explMask ∧ t'.dataStart = t.dataStart)

/-! ## Channel mask -/

/-- `HP.RESOLVE` of an open container: an explicit mask verbatim, `Mono` for one channel, 0x33F for eight, the first `n` flags
for another count up to 18, and the fatal error beyond, with a text on the side channel "if the implementation produces one"
(R164 to R168, R122). -/
def Obligations.ResolveTable : Prop :=
  ∀ s : State, s.container = .opened →
    let n := s.md.channelCount.toNat
    let r : ResolvedMask :=
      if s.explMask ≠ 0 then ⟨false, s.explMask⟩
      else if n = 1 then ⟨true, 0⟩
      else if n = 8 then ⟨false, 0x33F⟩
      else ⟨false, BitVec.ofNat 32 (2 ^ n - 1)⟩
    (s.explMask ≠ 0 ∨ n ≤ 18 → exec .hpResolve s =
      .next { s.endsOk 1 0 [if r.mono then 1 else 0, r.mask] with rm := r, resolved := true }) ∧
    (s.explMask = 0 → 18 < n → ∃ text : Option String, exec .hpResolve s =
      .next { s.endsIn 1 0 1 with container := .closed, resolved := false, reasons := s.reasons ++ text.toList })

/-- `HP.RESOLVE` reads only `MD.channelCount` and `EXPL_MASK` (and that the container is open): two states that agree on these
get the same answer (R169). That they give the same `REASON` text too is the model's choice (log entry 23). -/
def Obligations.ResolveDeterministic : Prop :=
  ∀ s s' t : State, s'.container = s.container → s'.md.channelCount = s.md.channelCount → s'.explMask = s.explMask →
    exec .hpResolve s = .next t →
    ∃ t' r texts, exec .hpResolve s' = .next t' ∧
      t.responses = s.responses ++ [r] ∧ t'.responses = s'.responses ++ [r] ∧
      t.reasons = s.reasons ++ texts ∧ t'.reasons = s'.reasons ++ texts ∧
      t'.container = t.container ∧ (r.status = 0 → t'.rm = t.rm)

/-! ## Channel streams -/

/-- `CS.BUILD` on a container with no table: one fresh stream a position, in the slot that is the rank of its bit among the
set bits of the mask, or the one stream `MONO`; the capacity is the operand or `BUF_CAP_DEFAULT`, which is at least 1024
(R181 to R183). -/
def Obligations.BuildCreates : Prop :=
  ∀ (s : State) (own : Bool) (cap : Option Nat),
    s.container = .opened → s.resolved = true → s.built = false → (∀ n, cap = some n → 1024 ≤ n ∧ n < 2 ^ 32) →
    let c := cap.elim Config.bufCapDefault (BitVec.ofNat 32)
    1024 ≤ c.toNat ∧
      ∃ streams : List ChannelStream,
        exec (.csBuild own cap) s =
          .next { s.endsOk (encode (.csBuild own cap)).length 0 [BitVec.ofNat 32 streams.length] with
            built := true, streams := streams } ∧
        (s.rm.Exclusive → 1 ≤ streams.length ∧ streams.length ≤ 32) ∧
        (s.rm.mono = true → streams = [⟨32, 0, c, own, false, []⟩]) ∧
        (s.rm.mono = false → streams.length = popcount s.rm.mask ∧
          ∀ i < 32, s.rm.mask.getLsbD i = true →
            streams[popcount (s.rm.mask &&& BitVec.ofNat 32 (2 ^ i - 1))]? =
              some ⟨BitVec.ofNat 6 i, 0, c, own, false, []⟩)

/-- A rebuilding `CS.BUILD` first closes the old streams: every byte accepted by an earlier `CS.WRITE` is in the stream, owned
open handles are released, and the new streams are fresh (R185, R90). -/
def Obligations.RebuildFlushes : Prop :=
  ∀ (s : State) (own : Bool) (cap : Option Nat),
    s.Inv → s.StreamHolds s.streamLen.toNat → s.container = .opened → s.built = true →
    (∀ n, cap = some n → 1024 ≤ n ∧ n < 2 ^ 32) →
    ∃ (m : Memory) (streams : List ChannelStream),
      exec (.csBuild own cap) s =
        .next { s.endsOk (encode (.csBuild own cap)).length 0 [BitVec.ofNat 32 streams.length] with
          stream := m, streams := streams, releases := s.releases ++ s.ownedOpen } ∧
      (∀ a, m.read a = s.byteAt a) ∧
      streams.map (·.pos) = s.streams.map (·.pos) ∧
      ∀ c ∈ streams, c.cursor = 0 ∧ c.cap = cap.elim Config.bufCapDefault (BitVec.ofNat 32) ∧ c.own = own ∧
        c.closed = false ∧ c.wb = []

/-- A capacity below 1024 is refused with `ArgumentRange`, and nothing is built and nothing else changes (R182). -/
def Obligations.CapacityTooSmall : Prop :=
  ∀ (s : State) (own : Bool) (cap : Nat), s.container = .opened → s.resolved = true → cap < 1024 →
    exec (.csBuild own (some cap)) s = .next (s.endsIn 2 0 2)

/-- `CS.ENUM` answers the count and the position codes in slot order, closed streams among them, and changes nothing else
(R186). -/
def Obligations.EnumLists : Prop :=
  ∀ s : State, s.container = .opened → s.built = true →
    exec .csEnum s =
      .next (s.endsOk 1 0 (BitVec.ofNat 32 s.streams.length :: s.streams.map fun c => c.pos.zeroExtend 32))

/-- `CS.READ` answers the next `count` samples of the slot, each the little-endian value of its bytes as the block reads them,
and moves this stream's cursor only (R83, R92, R191). That it flushes
nothing, so leaves the external stream as it was, is the model's reading (log entry 18). -/
def Obligations.ReadSamples : Prop :=
  ∀ (s : State) (pos count k : Nat) (c : ChannelStream),
    s.Inv → s.StreamHolds s.streamLen.toNat → s.Usable pos k count c →
    ∃ vs : List Nat,
      exec (.csRead pos count) s =
        .next { s.endsOk 2 0 (vs.flatMap fun v => wordsOfNat v ((s.md.bytesPerSample + 3) / 4)) with
          streams := s.streams.set k { c with cursor := BitVec.ofNat 32 (c.cursor.toNat + count) } } ∧
      vs.length = count ∧ (∀ v ∈ vs, v < 256 ^ s.md.bytesPerSample) ∧
      ∀ i, (h : i < vs.length) → ∀ j < s.md.bytesPerSample,
        s.byteAt (s.dataStart.toNat + (c.cursor.toNat + i) * (s.md.channelCount.toNat * s.md.bytesPerSample) +
          k * s.md.bytesPerSample + j) = some (BitVec.ofNat 8 (vs[i] / 256 ^ j))

/-- A `CS.READ` of more samples than remain ends in `EndOfStream`: the cursor does not move and no sample is delivered
(R190). -/
def Obligations.EndOfStream : Prop :=
  ∀ (s : State) (pos count k : Nat) (c : ChannelStream),
    s.Finds pos k c → k < s.md.channelCount.toNat → s.md.nFrames - c.cursor.toNat < count →
    exec (.csRead pos count) s = .next (s.endsIn 2 0 4)

/-- A position that is found is that of the slot answered; one that names no stream gives `MissingChannel` and changes nothing
but `LASTERR`; every code above 32 is one (R118, R187, R284). -/
def Obligations.MissingChannel : Prop :=
  (∀ (s : State) (pos k : Nat), s.lookup pos = some k → ∃ c, s.streams[k]? = some c ∧ c.pos.toNat = pos) ∧
  (∀ (s : State) (pos n : Nat), s.container = .opened → s.built = true → (∀ c ∈ s.streams, c.pos.toNat ≠ pos) →
    s.lookup pos = none ∧
    exec (.csRead pos n) s = .next (s.endsIn 2 0 3) ∧
    (s.Ready (.csWrite pos n) → exec (.csWrite pos n) s = .next (s.endsIn 2 (s.rawWords * n) 3))) ∧
  (∀ (s : State) (pos : Nat), s.container ≠ .closed → s.built = true → (∀ c ∈ s.streams, c.pos.toNat ≠ pos) →
    exec (.csClose pos) s = .next (s.endsIn 1 0 3)) ∧
  ∀ (s : State) (pos : Nat), s.Inv → 32 < pos → ∀ c ∈ s.streams, c.pos.toNat ≠ pos

/-- `CS.WRITE` of raw samples that fit: each byte of each sample, as the block reads the stream, is the sample's and every
other is as it was; at most `cap` bytes stay pending; the stream itself holds, at each address, its old byte or the new one;
only this stream's cursor and buffer change (R91, R92, R195, R197; when a flush may happen, log entry 18). -/
def Obligations.WriteSamples : Prop :=
  ∀ (s : State) (pos len k : Nat) (c : ChannelStream),
    s.Inv → s.StreamHolds s.streamLen.toNat → s.Usable pos k len c → s.Ready (.csWrite pos len) →
    let vs := rawsOfWords s.rawWords len s.bufIn
    (∀ v ∈ vs, v < 256 ^ s.md.bytesPerSample) →
    ∃ (m : Memory) (wb : List Host.Cell) (d : Nat) (t : State),
      exec (.csWrite pos len) s = .next t ∧
      t = { s.endsOk 2 (s.rawWords * len) [] with
        stream := m
        streams := s.streams.set k { c with cursor := BitVec.ofNat 32 (c.cursor.toNat + len), wb := wb }
        draws := d } ∧
      wb.length ≤ c.cap.toNat ∧
      s.HoldsSamples k c.cursor.toNat vs s.byteAt t.byteAt ∧
      ∀ a, m.read a = s.stream.read a ∨ m.read a = t.byteAt a

/-- A `CS.WRITE` with a raw word wider than the bit depth ends in `ArgumentRange` before any state change (R124, R194). -/
def Obligations.WriteTooWide : Prop :=
  ∀ (s : State) (pos len k : Nat) (c : ChannelStream),
    s.Finds pos k c → s.Ready (.csWrite pos len) →
    (∃ v ∈ rawsOfWords s.rawWords len s.bufIn, 2 ^ (8 * s.md.bytesPerSample) ≤ v) →
    exec (.csWrite pos len) s = .next (s.endsIn 2 (s.rawWords * len) 2)

/-- `CS.CLOSE` of an open stream performs its pending writes in list order, releases an owned handle and closes it; of a
closed one it does nothing (R197, R198). -/
def Obligations.CloseFlushes : Prop :=
  ∀ (s : State) (pos k : Nat) (c : ChannelStream),
    s.container ≠ .closed → s.built = true → s.lookup pos = some k → s.streams[k]? = some c →
    (c.closed = true → exec (.csClose pos) s = .next (s.endsOk 1 0 [])) ∧
    (c.closed = false → s.Inv → s.StreamHolds s.streamLen.toNat → ∃ m : Memory,
      exec (.csClose pos) s = .next { s.endsOk 1 0 [] with
        stream := m
        streams := s.streams.set k { c with wb := [], closed := true }
        releases := if c.own then s.releases ++ [k] else s.releases } ∧
      ∀ a, m.read a = (lastWrite c.wb a).or (s.stream.read a))

/-- `CS.DISPOSE` of an open container closes every stream in slot order: every byte accepted by an earlier `CS.WRITE` is in
the stream, each owned open handle is released once, and the metadata stay (R90, R199). -/
def Obligations.DisposeFlushes : Prop :=
  ∀ s : State, s.Inv → s.StreamHolds s.streamLen.toNat → s.container = .opened →
    ∃ m : Memory,
      exec .csDispose s = .next { s.endsOk 1 0 [] with
        container := .disposed
        stream := m
        streams := s.streams.map fun c => { c with wb := [], closed := true }
        releases := s.releases ++ s.ownedOpen } ∧
      ∀ a, m.read a = s.byteAt a

/-- A second `CS.DISPOSE`, and one with no open container, responds `OK` and does nothing: no error, no release (R200). -/
def Obligations.DisposeIdempotent : Prop :=
  (∀ s t : State, exec .csDispose s = .next t → exec .csDispose t = .next (t.endsOk 1 0 [])) ∧
    ∀ s : State, s.container ≠ .opened → exec .csDispose s = .next (s.endsOk 1 0 [])

/-- After `CS.DISPOSE` every other container command but `CS.CLOSE` and `HP.PARSE` fails with `Disposed` and changes nothing
else; after `CS.CLOSE` so do `CS.READ` and `CS.WRITE` of that stream (R201, R288). -/
def Obligations.UseAfterDispose : Prop :=
  (∀ s : State, s.container = .disposed →
    exec .hpResolve s = .next (s.endsIn 1 0 7) ∧ exec .csEnum s = .next (s.endsIn 1 0 7) ∧
    (∀ own cap, exec (.csBuild own cap) s = .next (s.endsIn (encode (.csBuild own cap)).length 0 7)) ∧
    (∀ pos n, exec (.csRead pos n) s = .next (s.endsIn 2 0 7)) ∧
    ∀ pos n, s.Ready (.csWrite pos n) → exec (.csWrite pos n) s = .next (s.endsIn 2 (s.rawWords * n) 7)) ∧
  ∀ (s : State) (pos k n : Nat) (c : ChannelStream),
    s.container = .opened → s.built = true → s.lookup pos = some k → s.streams[k]? = some c → c.closed = true →
    exec (.csRead pos n) s = .next (s.endsIn 2 0 7) ∧
    (s.Ready (.csWrite pos n) → exec (.csWrite pos n) s = .next (s.endsIn 2 (s.rawWords * n) 7))

/-- A container command issued in a state that does not accept it fails with `IllegalCommand` and changes nothing else: with
no container, every one but `HP.PARSE` and `CS.DISPOSE`; before a resolve, `CS.BUILD`; before a build, the other four,
`CS.CLOSE` of a disposed container among them (R180, R289). The draw counter is the model's own (log entries 19 and 24). -/
def Obligations.OutOfOrder : Prop :=
  (∀ s : State, s.container = .closed →
    exec .hpResolve s = .next (s.endsIn 1 0 8) ∧
    (∀ own cap, exec (.csBuild own cap) s = .next (s.endsIn (encode (.csBuild own cap)).length 0 8)) ∧
    (∀ pos n, s.Ready (.csWrite pos n) →
      ∃ d, exec (.csWrite pos n) s = .next { s.endsIn 2 (s.rawWords * n) 8 with draws := d })) ∧
  (∀ s : State, s.container = .opened → s.resolved = false →
    ∀ own cap, exec (.csBuild own cap) s = .next (s.endsIn (encode (.csBuild own cap)).length 0 8)) ∧
  (∀ s : State, s.container = .opened → s.built = false →
    ∀ pos n, s.Ready (.csWrite pos n) → exec (.csWrite pos n) s = .next (s.endsIn 2 (s.rawWords * n) 8)) ∧
  (∀ s : State, s.container = .closed ∨ (s.container = .opened ∧ s.built = false) →
    exec .csEnum s = .next (s.endsIn 1 0 8) ∧
    ∀ pos n, exec (.csRead pos n) s = .next (s.endsIn 2 0 8)) ∧
  ∀ s : State, s.container = .closed ∨ s.built = false →
    ∀ pos, exec (.csClose pos) s = .next (s.endsIn 1 0 8)

/-- Round trip: from a fresh stream, a `CS.WRITE`, a rebuilding `CS.BUILD` and a `CS.READ` of as many samples answer the very
words that were written (R202, which the spec marks "derived: from rules R185, R191, R195, R197"). -/
def Obligations.RoundTrip : Prop :=
  ∀ (s : State) (pos len k : Nat) (c : ChannelStream) (own : Bool) (cap : Option Nat),
    s.Inv → s.StreamHolds s.streamLen.toNat → s.Usable pos k len c → c.cursor = 0 → s.Ready (.csWrite pos len) →
    (∀ v ∈ rawsOfWords s.rawWords len s.bufIn, v < 256 ^ s.md.bytesPerSample) →
    (∀ n, cap = some n → 1024 ≤ n ∧ n < 2 ^ 32) →
    ∃ t₁ t₂ t₃ : State,
      exec (.csWrite pos len) s = .next t₁ ∧ exec (.csBuild own cap) t₁ = .next t₂ ∧
        exec (.csRead pos len) t₂ = .next t₃ ∧
        t₃.responses = t₂.responses ++ [⟨0, s.bufIn.take (s.rawWords * len)⟩]

/-- Round trip of converted values: with any conversion that keeps the one law of `CONV`, the values a `CS.WRITE` was given
come back from a rebuilding `CS.BUILD` and a `CS.READ` as they were, "representation permitting" (R117, R202, which the spec
marks "derived"). -/
def Obligations.ConvertedRoundTrip : Prop :=
  ∀ (T : Type) (conv : Conv T) (s : State) (pos k : Nat) (c : ChannelStream) (ts : List T) (rest : List Word) (own : Bool)
    (cap : Option Nat),
    s.Inv → s.StreamHolds s.streamLen.toNat → s.Usable pos k ts.length c → c.cursor = 0 →
    conv.Lawful s.md → (∀ t ∈ ts, conv.Represents s.md t) → s.bufIn = conv.toPort s.md ts ++ rest →
    (∀ n, cap = some n → 1024 ≤ n ∧ n < 2 ^ 32) →
    ∃ (t₁ t₂ t₃ : State) (ws : List Word),
      exec (.csWrite pos ts.length) s = .next t₁ ∧ exec (.csBuild own cap) t₁ = .next t₂ ∧
        exec (.csRead pos ts.length) t₂ = .next t₃ ∧ t₃.responses = t₂.responses ++ [⟨0, ws⟩] ∧
        conv.ofPort s.md ts.length ws = ts

/-! ## Filter stages -/

/-- `FS.BIND` loads the five coefficients (those of `DESIGN` for a legal cutoff, any five for another), makes a constructed
stage bound, leaves the history, and raises nothing for any sample rate or cutoff; only the index is
checked (R222, R229). -/
def Obligations.BindLoads : Prop :=
  ∀ (s : State) (stage : Nat) (kind : FilterKind) (fs fc : Num64),
    (s.stages.length ≤ stage → exec (.fsBind stage kind fs fc) s = .next (s.endsIn 5 0 2)) ∧
    ∀ g, s.stages[stage]? = some g → ∃ c d, MayBind kind fs fc c ∧
      exec (.fsBind stage kind fs fc) s =
        .next { s.endsOk 5 0 [] with stages := s.stages.set stage (stageBound g c), draws := d }

/-- `FS.STEP` on a stage with coefficients answers the output equation's value, evaluated left to right, and shifts the
history; the stage is then `RUNNING` (R230 to R233). -/
def Obligations.StepFilters : Prop :=
  ∀ (s : State) (stage : Nat) (x : Num64) (g : Stage) (c : Coef Num64),
    s.stages[stage]? = some g → g.coef? = some c →
    ∃ nan y d, numIsNaN nan = true ∧
      y = numSub nan (numSub nan (numAdd nan (numAdd nan (numMul nan c.b0 x) (numMul nan c.b1 g.hist.x1))
        (numMul nan c.b2 g.hist.x2)) (numMul nan c.a1 g.hist.y1)) (numMul nan c.a2 g.hist.y2) ∧
      exec (.fsStep stage x) s = .next { s.endsOk 3 0 [lowWord y, highWord y] with
        stages := s.stages.set stage ⟨.running c, ⟨x, g.hist.x1, y, g.hist.y1⟩⟩
        draws := d }

/-- `FS.RUN` on a stage with coefficients answers one output a sample, each by the output equation from the two inputs and two
outputs before it, and leaves the last two of each as history; an empty buffer changes nothing (R235, R236). -/
def Obligations.RunFilters : Prop :=
  ∀ (s : State) (stage len : Nat) (g : Stage) (c : Coef Num64),
    s.stages[stage]? = some g → g.coef? = some c → s.Ready (.fsRun stage len) →
    let xs := numsOfWords len s.bufIn
    ∃ ys d, StageOutputs c g.hist xs ys ∧
      exec (.fsRun stage len) s =
        .next { s.endsOk 2 (2 * len) (ys.flatMap fun y => [lowWord y, highWord y]) with
          stages := s.stages.set stage (stageAfter g c xs ys)
          draws := d }

/-- Splitting a buffer changes nothing: `FS.RUN` of `m` samples and then of `n` gives the outputs and the registers of one
`FS.RUN` of `m + n` (R236, in a clause the spec marks "derived: from rules R231, R232"). That a NaN output is the
same NaN both ways is the model's, which draws one value a sample (log entries 15 and 24). -/
def Obligations.RunSplits : Prop :=
  ∀ (s t₁ t₂ t : State) (stage m n : Nat) (g : Stage) (c : Coef Num64),
    s.stages[stage]? = some g → g.coef? = some c → s.Ready (.fsRun stage (m + n)) →
    exec (.fsRun stage m) s = .next t₁ → exec (.fsRun stage n) t₁ = .next t₂ → exec (.fsRun stage (m + n)) s = .next t →
    t₂.stages = t.stages ∧ t₂.bufIn = t.bufIn ∧
      ∃ ws₁ ws₂, t₂.responses = s.responses ++ [⟨0, ws₁⟩, ⟨0, ws₂⟩] ∧ t.responses = s.responses ++ [⟨0, ws₁ ++ ws₂⟩]

/-- A stage without coefficients refuses `FS.STEP` and `FS.RUN`, and a crossover that was never initialised refuses
`XF.APPLY`, with `IllegalCommand` and no other change (R234, R264). -/
def Obligations.UnboundRefused : Prop :=
  (∀ (s : State) (stage len : Nat) (x : Num64) (g : Stage), s.stages[stage]? = some g → g.coef? = none →
    exec (.fsStep stage x) s = .next (s.endsIn 3 0 8) ∧
    (s.Ready (.fsRun stage len) → exec (.fsRun stage len) s = .next (s.endsIn 2 (2 * len) 8))) ∧
  ∀ (s : State) (f len : Nat) (fc : Num64) (x : Crossover), s.FilterInv → s.xovers[f]? = some x → x.inited = false →
    s.Ready (.xfApply f fc len) → exec (.xfApply f fc len) s = .next (s.endsIn 4 (2 * len) 8)

/-- A unit index out of range gives `ArgumentRange` and changes no state except `LASTERR` (R126). -/
def Obligations.UnitIndexRange : Prop :=
  (∀ (s : State) (stage len : Nat) (kind : FilterKind) (fs fc x : Num64), s.stages.length ≤ stage →
    exec (.fsBind stage kind fs fc) s = .next (s.endsIn 5 0 2) ∧
    exec (.fsStep stage x) s = .next (s.endsIn 3 0 2) ∧
    (s.Ready (.fsRun stage len) → exec (.fsRun stage len) s = .next (s.endsIn 2 (2 * len) 2))) ∧
  ∀ (s : State) (f len : Nat) (kind : FilterKind) (fs fc : Num64), s.xovers.length ≤ f →
    exec (.xfInit f kind fs) s = .next (s.endsIn 3 0 2) ∧
    (s.Ready (.xfApply f fc len) → exec (.xfApply f fc len) s = .next (s.endsIn 4 (2 * len) 2))

/-! ## Crossovers -/

/-- `XF.INIT` fixes kind and sample rate and puts both stages in `CONSTRUCTED` with `+0.0` history; a sample rate that is
zero, negative, infinite or NaN, and an index out of range, give `ArgumentRange` and no other change (R252, R253). -/
def Obligations.InitConstructs : Prop :=
  ∀ (s : State) (f : Nat) (kind : FilterKind) (fs : Num64),
    (s.xovers.length ≤ f → exec (.xfInit f kind fs) s = .next (s.endsIn 3 0 2)) ∧
    (f < s.xovers.length →
      if numIsNaN fs || numIsInf fs || numSign fs || numIsZero fs then
        exec (.xfInit f kind fs) s = .next (s.endsIn 3 0 2)
      else
        exec (.xfInit f kind fs) s = .next { s.endsOk 3 0 [] with
          xovers := s.xovers.set f ⟨true, kind, fs⟩
          stages := (s.stages.set (2 * f) ⟨.constructed, ⟨0, 0, 0, 0⟩⟩).set (2 * f + 1) ⟨.constructed, ⟨0, 0, 0, 0⟩⟩ })

/-- `XF.APPLY` on an initialised crossover loads one set of coefficients into both stages, also for an empty buffer, then
runs the buffer through stage 1 and stage 2 in series; each keeps its last two inputs and outputs (R254 to R256, R260). That
the set is one and the same in both stages for an illegal cutoff too is the model's choice (log entry 17). -/
def Obligations.ApplyCascades : Prop :=
  ∀ (s : State) (f len : Nat) (fc : Num64) (x : Crossover) (g₁ g₂ : Stage),
    s.xovers[f]? = some x → x.inited = true → s.stages[2 * f]? = some g₁ → s.stages[2 * f + 1]? = some g₂ →
    s.Ready (.xfApply f fc len) →
    let xs := numsOfWords len s.bufIn
    ∃ c us ys d, MayBind x.kind x.fs fc c ∧ StageOutputs c g₁.hist xs us ∧ StageOutputs c g₂.hist us ys ∧
      exec (.xfApply f fc len) s =
        .next { s.endsOk 4 (2 * len) (ys.flatMap fun y => [lowWord y, highWord y]) with
          stages := (s.stages.set (2 * f) (stageAfter (stageBound g₁ c) c xs us)).set (2 * f + 1)
            (stageAfter (stageBound g₂ c) c us ys)
          draws := d }

/-- Sample by sample through both stages is the whole buffer through the first and then the whole intermediate buffer
through the second, over any three operations (R257, which the spec marks "derived: from rules R255, R256"). -/
def Obligations.CascadeOrder : Prop :=
  ∀ (α : Type) (ops : NumOps α) (c : Coef α) (d : Nat) (h₁ h₂ : History α) (xs : List α),
    let first := biquadRun (fun _ => ops) c d h₁ xs
    let second := biquadRun (fun _ => ops) c d h₂ first.1
    cascadeRun (fun _ => ops) c d h₁ h₂ xs = (second.1, first.2, second.2)

/-! ## What a stage computes -/

/-- Addition and multiplication of finite numbers round once to nearest: no finite number is nearer to the exact result than a
finite result is (R12; log entry 14). A magnitude counts units of `2^-1074`. -/
def Obligations.RoundsToNearest : Prop :=
  ∀ nan x y : Num64, numIsFinite x = true → numIsFinite y = true →
    (numIsFinite (numAdd nan x y) = true → ∀ w, numIsFinite w = true →
      |numVal (numAdd nan x y) - (numVal x + numVal y)| ≤ |numVal w - (numVal x + numVal y)|) ∧
    (numIsFinite (numMul nan x y) = true → ∀ w, numIsFinite w = true →
      |numVal (numMul nan x y) * 2 ^ 1074 - numVal x * numVal y| ≤ |numVal w * 2 ^ 1074 - numVal x * numVal y|)

/-- With history and input all `+0.0`, every output is a zero for finite coefficients, and `+0.0` when `b0 > 0` (R240,
in a clause the spec marks "derived: from rule R231"; log entry 14). -/
def Obligations.SilenceStaysSilent : Prop :=
  ∀ (c : Coef Num64) (xs ys : List Num64), StageOutputs c ⟨0, 0, 0, 0⟩ xs ys → (∀ x ∈ xs, x = 0) →
    numIsFinite c.b0 = true → numIsFinite c.b1 = true → numIsFinite c.b2 = true → numIsFinite c.a1 = true →
    numIsFinite c.a2 = true →
    ∀ y ∈ ys, numIsZero y = true ∧ (numPositive c.b0 = true → y = 0)

/-- A NaN input, or a NaN in a history register, makes the output a NaN, and the feedback path keeps every later output a NaN
(R237; log entries 14 and 15). -/
def Obligations.NaNStays : Prop :=
  ∀ (c : Coef Num64) (h : History Num64) (xs ys : List Num64) (i : Nat), StageOutputs c h xs ys → i < xs.length →
    (numIsNaN (xs.getD i 0) = true ∨
      (i = 0 ∧ (numIsNaN h.x1 || numIsNaN h.x2 || numIsNaN h.y1 || numIsNaN h.y2) = true)) →
    ∀ j, i ≤ j → j < xs.length → numIsNaN (ys.getD j 0) = true

/-! ## The reference design over the reals -/

/-- The sine and cosine form of the reference design is the same as the `K` form (R227, which the spec marks "derived: from
rules R225, R226"). -/
def Obligations.ReferenceForms : Prop :=
  ∀ (fs fc : ℝ) (lp hp : Coef ℝ), 0 < fs → 0 < fc → fc < fs / 2 →
    IsReferenceDesign .lp fs fc lp → IsReferenceDesign .hp fs fc hp →
    let w0 := 2 * Real.pi * fc / fs
    let alpha := Real.sin w0 / Real.sqrt 2
    let a0 := 1 + alpha
    lp.b0 = (1 - Real.cos w0) / (2 * a0) ∧ lp.b2 = (1 - Real.cos w0) / (2 * a0) ∧ lp.b1 = (1 - Real.cos w0) / a0 ∧
      hp.b0 = (1 + Real.cos w0) / (2 * a0) ∧ hp.b2 = (1 + Real.cos w0) / (2 * a0) ∧ hp.b1 = -(1 + Real.cos w0) / a0 ∧
      lp.a1 = -2 * Real.cos w0 / a0 ∧ hp.a1 = -2 * Real.cos w0 / a0 ∧
      lp.a2 = (1 - alpha) / a0 ∧ hp.a2 = (1 - alpha) / a0

/-- The reference design is stable and has the gains of its kind, and takes the stated values at a quarter of the sample rate
(R228, which the spec marks "derived: from rules R225, R226"). -/
def Obligations.ReferenceStable : Prop :=
  ∀ (k : ℝ) (lp hp : Coef ℝ), 0 < k → IsReferenceLowPass k lp → IsReferenceHighPass k hp →
    1 < 1 + Real.sqrt 2 * k + k ^ 2 ∧
    (hp.a1 = lp.a1 ∧ hp.a2 = lp.a2 ∧ 0 < lp.a2 ∧ lp.a2 < 1 ∧ |lp.a1| < 1 + lp.a2 ∧
      ∀ z : ℂ, z ^ 2 + lp.a1 * z + lp.a2 = 0 → ‖z‖ < 1) ∧
    ((lp.b0 + lp.b1 + lp.b2) / (1 + lp.a1 + lp.a2) = 1 ∧ (hp.b0 + hp.b1 + hp.b2) / (1 + hp.a1 + hp.a2) = 0) ∧
    ((hp.b0 - hp.b1 + hp.b2) / (1 - hp.a1 + hp.a2) = 1 ∧ (lp.b0 - lp.b1 + lp.b2) / (1 - lp.a1 + lp.a2) = 0) ∧
    (∀ fs fc : ℝ, 0 < fs → fc = fs / 4 → IsReferenceK fs fc k →
      k = 1 ∧ lp.b0 = 1 - Real.sqrt 2 / 2 ∧ hp.b0 = 1 - Real.sqrt 2 / 2 ∧ lp.a1 = 0 ∧ lp.a2 = 3 - 2 * Real.sqrt 2 ∧
        lp.b1 = 2 * lp.b0 ∧ hp.b1 = -2 * hp.b0)

/-- At every frequency the low-pass and the high-pass cascade of the reference design sum to unit magnitude (R226, R262, in
clauses the spec marks "from general knowledge, not in source"). -/
def Obligations.CascadesSumToUnit : Prop :=
  ∀ (k : ℝ) (lp hp : Coef ℝ) (w zl zh : ℂ), 0 < k → IsReferenceLowPass k lp → IsReferenceHighPass k hp → ‖w‖ = 1 →
    HasTransfer lp w zl → HasTransfer hp w zh → ‖zl ^ 2 + zh ^ 2‖ = 1

/-! ## The whole machine -/

/-- Every step keeps the invariants of R61, from every state that meets them. The spec marks R61 "derived"; the layout of the
payload, the resolved mask and the pending bytes are added to it here, from the rules Safety.lean names. -/
def Obligations.StepKeepsInv : Prop := ∀ s t : State, s.Inv → step s = .next t → t.Inv

/-- No command faults in a state that meets the invariants, where the host has given the true stream length (R343, U9).
That the stream is a list of bytes, and an absent one a failed transfer, is the model's (log entry 4). -/
def Obligations.NoFaultWithTrueLength : Prop :=
  ∀ (i : Instr) (s : State) (r : Fault), s.Inv → s.HostOwes i → exec i s ≠ .fault r

/-- The model refuses a command exactly where the spec gives it no meaning: `CS.READ` and `CS.WRITE` on an extra stream (R184,
U4), and `CS.WRITE` past the payload (R196, U5). -/
def Obligations.RefusesExactly : Prop :=
  ∀ (i : Instr) (s : State) (r : Refusal), exec i s = .refused r ↔
    ∃ pos n k c, s.Finds pos k c ∧
      ((i = .csRead pos n ∧ s.md.channelCount.toNat ≤ k ∧ r = .extraStream) ∨
        (i = .csWrite pos n ∧ s.Ready i ∧ (∀ v ∈ rawsOfWords s.rawWords n s.bufIn, v < 256 ^ s.md.bytesPerSample) ∧
          ((s.md.channelCount.toNat ≤ k ∧ r = .extraStream) ∨
            (k < s.md.channelCount.toNat ∧ s.remaining c < n ∧ r = .writePastPayload))))

/-- A run that ends with no open container has nothing pending and every stream closed (R342). -/
def Obligations.CleanEndIsFlushed : Prop :=
  ∀ s : State, s.Inv → s.CleanEnd → s.pending = [] ∧ (∀ c ∈ s.streams, c.closed = true) ∧ ∀ a, s.byteAt a = s.stream.read a

/-- `LASTERR` is written by every error and by nothing else, and no command's behaviour depends on it (R43, R292). -/
def Obligations.LastErrInformational : Prop :=
  (∀ (i : Instr) (s t : State), exec i s = .next t →
    (t.lastErr = s.lastErr ∧ (t.responses = s.responses ∨ ∃ ws, t.responses = s.responses ++ [⟨0, ws⟩])) ∨
      (t.lastErr ≠ 0 ∧ t.responses = s.responses ++ [⟨t.lastErr.zeroExtend 32, []⟩])) ∧
  ∀ (i : Instr) (s : State) (e : BitVec 4),
    (∀ t, exec i s = .next t → ∃ e', exec i { s with lastErr := e } = .next { t with lastErr := e' }) ∧
    (∀ r, exec i s = .fault r → exec i { s with lastErr := e } = .fault r) ∧
    (∀ r, exec i s = .refused r → exec i { s with lastErr := e } = .refused r)

/-- A command that ends in an error has no effect: but for `HP.PARSE` and `HP.RESOLVE`, which have failure rules of their
own, nothing changes but the ports, `LASTERR` and the response (R290, R296). The draw counter is the model's own (log entry
24), and that a failing command flushes nothing is its reading (log entry 18). -/
def Obligations.ErrorsHaveNoEffect : Prop :=
  ∀ (i : Instr) (s t : State) (r : Response), (∀ len, i ≠ .hpParse len) → i ≠ .hpResolve → exec i s = .next t →
    t.responses = s.responses ++ [r] → r.status ≠ 0 →
    t = { s with
      cmdIn := t.cmdIn, bufIn := t.bufIn, lastErr := t.lastErr, responses := t.responses, draws := t.draws }

/-- What a filter command leaves alone: the container, its streams and the external stream, every stage it does not address,
and every crossover but the one an `XF.INIT` names (R57, R239, R253, R325). -/
def Obligations.FilterFrame : Prop :=
  ∀ (i : Instr) (s t : State), ofContainer i = false → exec i s = .next t →
    s.SameContainer t ∧ t.present = s.present ∧ t.resetIn = s.resetIn ∧
    (∀ k, usesStage k i = false → t.stages[k]? = s.stages[k]?) ∧ t.stages.length = s.stages.length ∧
    ∀ f, (∀ kind fs, i ≠ .xfInit f kind fs) → t.xovers[f]? = s.xovers[f]?

/-- What a container command leaves alone: the filter units always; the header registers, unless it is `HP.PARSE`; the mask,
unless it is one of the two `HP` commands; `CS_BUILT` and the other slots, for `CS.READ`, `CS.WRITE`, `CS.CLOSE` (R31, R38,
R44, R193, R325). -/
def Obligations.ContainerFrame : Prop :=
  ∀ (i : Instr) (s t : State), ofContainer i = true → exec i s = .next t →
    (t.stages = s.stages ∧ t.xovers = s.xovers ∧ t.present = s.present ∧ t.resetIn = s.resetIn) ∧
    ((∀ len, i ≠ .hpParse len) → t.md = s.md ∧ t.explMask = s.explMask ∧ t.dataStart = s.dataStart ∧ t.win = s.win ∧
      t.streamLen = s.streamLen ∧ (i ≠ .hpResolve → t.rm = s.rm ∧ t.resolved = s.resolved)) ∧
    ∀ pos n k, i = .csRead pos n ∨ i = .csWrite pos n ∨ i = .csClose pos → s.lookup pos ≠ some k →
      t.built = s.built ∧ t.container = s.container ∧ t.streams[k]? = s.streams[k]?

/-- Every byte of the external stream is unchanged but those a command may store to: the pending writes it flushes and, for
`CS.WRITE`, the bytes of its samples (R70, R78, R197). That no other command flushes early is the model's
reading (log entry 18). -/
def Obligations.MemoryFrame : Prop :=
  ∀ (i : Instr) (s t : State) (a : Nat), exec i s = .next t → ¬ s.mayStore a i → t.stream.read a = s.stream.read a

end
end

