-- ==== Sys2Proof/Laws/Bytes.lean ====
section
/-! SUPPORT. Byte strings and port words: a value survives being laid out least significant first, and a buffer of raw samples
survives the buffer port. -/

namespace Sys2Proof.Machine

@[simp] theorem leBytes_length (v n : Nat) : (leBytes v n).length = n := by
  induction n generalizing v with
  | zero => rfl
  | succ n ih => simp [leBytes, ih]

theorem leNat_leBytes (v n : Nat) : leNat (leBytes v n) = v % 256 ^ n := by
  induction n generalizing v with
  | zero => simp [leBytes, leNat, Nat.mod_one]
  | succ n ih =>
    rw [leBytes, leNat, ih, pow_succ', Nat.mod_mul]
    simp

theorem leNat_lt (bs : List Byte) : leNat bs < 256 ^ bs.length := by
  induction bs with
  | nil => simp [leNat]
  | cons b bs ih =>
    have := b.isLt
    simp only [leNat, List.length_cons, pow_succ]
    omega

theorem leBytes_leNat (bs : List Byte) : leBytes (leNat bs) bs.length = bs := by
  induction bs with
  | nil => rfl
  | cons b bs ih =>
    have hb := b.isLt
    have hdiv : (b.toNat + 256 * leNat bs) / 256 = leNat bs := by omega
    have hmod : BitVec.ofNat 8 (b.toNat + 256 * leNat bs) = b := by
      apply BitVec.eq_of_toNat_eq
      simp only [BitVec.toNat_ofNat]
      omega
    simp only [leNat, List.length_cons, leBytes, hdiv, hmod, ih]

@[simp] theorem wordsOfNat_length (v n : Nat) : (wordsOfNat v n).length = n := by
  induction n generalizing v with
  | zero => rfl
  | succ n ih => simp [wordsOfNat, ih]

theorem natOfWords_lt (ws : List Word) : natOfWords ws < (2 ^ 32) ^ ws.length := by
  induction ws with
  | nil => simp [natOfWords]
  | cons w ws ih =>
    have := w.isLt
    simp only [natOfWords, List.length_cons, pow_succ (2 ^ 32)]
    omega

theorem wordsOfNat_natOfWords (ws : List Word) : wordsOfNat (natOfWords ws) ws.length = ws := by
  induction ws with
  | nil => rfl
  | cons w ws ih =>
    have hw := w.isLt
    have hdiv : (w.toNat + 2 ^ 32 * natOfWords ws) / 2 ^ 32 = natOfWords ws := by omega
    have hmod : BitVec.ofNat 32 (w.toNat + 2 ^ 32 * natOfWords ws) = w := by
      apply BitVec.eq_of_toNat_eq
      simp only [BitVec.toNat_ofNat]
      omega
    simp only [natOfWords, List.length_cons, wordsOfNat, hdiv, hmod, ih]

@[simp] theorem rawsOfWords_length (width count : Nat) (ws : List Word) :
    (rawsOfWords width count ws).length = count := by
  induction count generalizing ws with
  | zero => rfl
  | succ count ih => simp [rawsOfWords, ih]

@[simp] theorem numsOfWords_length (count : Nat) (ws : List Word) : (numsOfWords count ws).length = count := by
  induction count generalizing ws with
  | zero => rfl
  | succ count ih => simp [numsOfWords, ih]

/-- A buffer of raw samples goes out on the port as the words it came in as (R124). -/
theorem wordsOfRaws_rawsOfWords {width count : Nat} {ws : List Word} (h : width * count ≤ ws.length) :
    wordsOfRaws width (rawsOfWords width count ws) = ws.take (width * count) := by
  induction count generalizing ws with
  | zero => simp [wordsOfRaws, rawsOfWords]
  | succ count ih =>
    have hw : width ≤ ws.length := by
      have : width * 1 ≤ width * (count + 1) := Nat.mul_le_mul_left _ (by omega)
      omega
    have h1 : wordsOfNat (natOfWords (ws.take width)) width = ws.take width := by
      have := wordsOfNat_natOfWords (ws.take width)
      rwa [List.length_take, Nat.min_eq_left hw] at this
    have h2 : width * count ≤ (ws.drop width).length := by
      rw [List.length_drop, Nat.mul_succ] at *; omega
    have h3 := ih h2
    simp only [wordsOfRaws] at h3
    simp only [wordsOfRaws, rawsOfWords, List.flatMap_cons, h1, h3]
    rw [Nat.mul_succ, Nat.add_comm, List.take_add]

theorem natOfWords_wordsOfNat (v n : Nat) : natOfWords (wordsOfNat v n) = v % (2 ^ 32) ^ n := by
  induction n generalizing v with
  | zero => simp [wordsOfNat, natOfWords, Nat.mod_one]
  | succ n ih =>
    rw [wordsOfNat, natOfWords, ih, BitVec.toNat_ofNat, pow_succ' (2 ^ 32 : Nat) n, Nat.mod_mul]

/-- Raw samples that fit their words come back from the port as they went out (R124). -/
theorem rawsOfWords_wordsOfRaws {width : Nat} {vs : List Nat} (rest : List Word) (h : ∀ v ∈ vs, v < (2 ^ 32) ^ width) :
    rawsOfWords width vs.length (wordsOfRaws width vs ++ rest) = vs := by
  induction vs with
  | nil => rfl
  | cons v vs ih =>
    have hv := h v (by simp)
    have ht := ih fun u hu => h u (by simp [hu])
    simp only [wordsOfRaws] at ht
    simp only [wordsOfRaws, List.flatMap_cons, List.length_cons, rawsOfWords, List.append_assoc]
    rw [List.take_left' (wordsOfNat_length v width), List.drop_left' (wordsOfNat_length v width), ht, natOfWords_wordsOfNat,
      Nat.mod_eq_of_lt hv]

theorem wordsOfRaws_length (width : Nat) (vs : List Nat) : (wordsOfRaws width vs).length = width * vs.length := by
  induction vs with
  | nil => rfl
  | cons v vs ih =>
    simp only [wordsOfRaws] at ih
    simp only [wordsOfRaws, List.flatMap_cons, List.length_append, wordsOfNat_length, ih, List.length_cons, Nat.mul_succ]
    omega

/-- A `NUM` value survives the port (R123). -/
@[simp] theorem joinWords_low_high (v : BitVec 64) : joinWords (lowWord v) (highWord v) = v := by
  simp only [joinWords, lowWord, highWord]
  apply BitVec.eq_of_getLsbD_eq
  intro i hi
  rw [BitVec.getLsbD_append]
  simp only [BitVec.getLsbD_extractLsb']
  by_cases h : i < 32
  · simp [h]
  · have h1 : 32 + (i - 32) = i := by omega
    have h2 : i - 32 < 32 := by omega
    simp [h, h1, h2]

end Sys2Proof.Machine
end

