-- ==== Sys2Proof/Laws/State.lean ====
section
/-! SUPPORT. What each named update of the state does to each field, so that no proof unfolds a record update: the field it
writes takes the value the update names, and every other field keeps its own. -/

namespace Sys2Proof.Machine

@[simp] theorem State.accept_container (s : State) (n m : Nat) : (s.accept n m).container = s.container := rfl
@[simp] theorem State.accept_lastErr (s : State) (n m : Nat) : (s.accept n m).lastErr = s.lastErr := rfl
@[simp] theorem State.accept_win (s : State) (n m : Nat) : (s.accept n m).win = s.win := rfl
@[simp] theorem State.accept_streamLen (s : State) (n m : Nat) : (s.accept n m).streamLen = s.streamLen := rfl
@[simp] theorem State.accept_md (s : State) (n m : Nat) : (s.accept n m).md = s.md := rfl
@[simp] theorem State.accept_explMask (s : State) (n m : Nat) : (s.accept n m).explMask = s.explMask := rfl
@[simp] theorem State.accept_dataStart (s : State) (n m : Nat) : (s.accept n m).dataStart = s.dataStart := rfl
@[simp] theorem State.accept_resolved (s : State) (n m : Nat) : (s.accept n m).resolved = s.resolved := rfl
@[simp] theorem State.accept_rm (s : State) (n m : Nat) : (s.accept n m).rm = s.rm := rfl
@[simp] theorem State.accept_built (s : State) (n m : Nat) : (s.accept n m).built = s.built := rfl
@[simp] theorem State.accept_streams (s : State) (n m : Nat) : (s.accept n m).streams = s.streams := rfl
@[simp] theorem State.accept_stages (s : State) (n m : Nat) : (s.accept n m).stages = s.stages := rfl
@[simp] theorem State.accept_xovers (s : State) (n m : Nat) : (s.accept n m).xovers = s.xovers := rfl
@[simp] theorem State.accept_stream (s : State) (n m : Nat) : (s.accept n m).stream = s.stream := rfl
@[simp] theorem State.accept_present (s : State) (n m : Nat) : (s.accept n m).present = s.present := rfl
@[simp] theorem State.accept_cmdIn (s : State) (n m : Nat) : (s.accept n m).cmdIn = s.cmdIn.drop n := rfl
@[simp] theorem State.accept_bufIn (s : State) (n m : Nat) : (s.accept n m).bufIn = s.bufIn.drop m := rfl
@[simp] theorem State.accept_responses (s : State) (n m : Nat) : (s.accept n m).responses = s.responses := rfl
@[simp] theorem State.accept_releases (s : State) (n m : Nat) : (s.accept n m).releases = s.releases := rfl
@[simp] theorem State.accept_reasons (s : State) (n m : Nat) : (s.accept n m).reasons = s.reasons := rfl
@[simp] theorem State.accept_resetIn (s : State) (n m : Nat) : (s.accept n m).resetIn = s.resetIn := rfl
@[simp] theorem State.accept_draws (s : State) (n m : Nat) : (s.accept n m).draws = s.draws := rfl

@[simp] theorem State.raise_container (s : State) (e : ErrorCode) : (s.raise e).container = s.container := rfl
@[simp] theorem State.raise_lastErr (s : State) (e : ErrorCode) : (s.raise e).lastErr = e.code := rfl
@[simp] theorem State.raise_win (s : State) (e : ErrorCode) : (s.raise e).win = s.win := rfl
@[simp] theorem State.raise_streamLen (s : State) (e : ErrorCode) : (s.raise e).streamLen = s.streamLen := rfl
@[simp] theorem State.raise_md (s : State) (e : ErrorCode) : (s.raise e).md = s.md := rfl
@[simp] theorem State.raise_explMask (s : State) (e : ErrorCode) : (s.raise e).explMask = s.explMask := rfl
@[simp] theorem State.raise_dataStart (s : State) (e : ErrorCode) : (s.raise e).dataStart = s.dataStart := rfl
@[simp] theorem State.raise_resolved (s : State) (e : ErrorCode) : (s.raise e).resolved = s.resolved := rfl
@[simp] theorem State.raise_rm (s : State) (e : ErrorCode) : (s.raise e).rm = s.rm := rfl
@[simp] theorem State.raise_built (s : State) (e : ErrorCode) : (s.raise e).built = s.built := rfl
@[simp] theorem State.raise_streams (s : State) (e : ErrorCode) : (s.raise e).streams = s.streams := rfl
@[simp] theorem State.raise_stages (s : State) (e : ErrorCode) : (s.raise e).stages = s.stages := rfl
@[simp] theorem State.raise_xovers (s : State) (e : ErrorCode) : (s.raise e).xovers = s.xovers := rfl
@[simp] theorem State.raise_stream (s : State) (e : ErrorCode) : (s.raise e).stream = s.stream := rfl
@[simp] theorem State.raise_present (s : State) (e : ErrorCode) : (s.raise e).present = s.present := rfl
@[simp] theorem State.raise_cmdIn (s : State) (e : ErrorCode) : (s.raise e).cmdIn = s.cmdIn := rfl
@[simp] theorem State.raise_bufIn (s : State) (e : ErrorCode) : (s.raise e).bufIn = s.bufIn := rfl
@[simp] theorem State.raise_responses (s : State) (e : ErrorCode) : (s.raise e).responses = s.responses ++ [errorResponse e] := rfl
@[simp] theorem State.raise_releases (s : State) (e : ErrorCode) : (s.raise e).releases = s.releases := rfl
@[simp] theorem State.raise_reasons (s : State) (e : ErrorCode) : (s.raise e).reasons = s.reasons := rfl
@[simp] theorem State.raise_resetIn (s : State) (e : ErrorCode) : (s.raise e).resetIn = s.resetIn := rfl
@[simp] theorem State.raise_draws (s : State) (e : ErrorCode) : (s.raise e).draws = s.draws := rfl

@[simp] theorem State.respond_container (s : State) (ws : List Word) : (s.respond ws).container = s.container := rfl
@[simp] theorem State.respond_lastErr (s : State) (ws : List Word) : (s.respond ws).lastErr = s.lastErr := rfl
@[simp] theorem State.respond_win (s : State) (ws : List Word) : (s.respond ws).win = s.win := rfl
@[simp] theorem State.respond_streamLen (s : State) (ws : List Word) : (s.respond ws).streamLen = s.streamLen := rfl
@[simp] theorem State.respond_md (s : State) (ws : List Word) : (s.respond ws).md = s.md := rfl
@[simp] theorem State.respond_explMask (s : State) (ws : List Word) : (s.respond ws).explMask = s.explMask := rfl
@[simp] theorem State.respond_dataStart (s : State) (ws : List Word) : (s.respond ws).dataStart = s.dataStart := rfl
@[simp] theorem State.respond_resolved (s : State) (ws : List Word) : (s.respond ws).resolved = s.resolved := rfl
@[simp] theorem State.respond_rm (s : State) (ws : List Word) : (s.respond ws).rm = s.rm := rfl
@[simp] theorem State.respond_built (s : State) (ws : List Word) : (s.respond ws).built = s.built := rfl
@[simp] theorem State.respond_streams (s : State) (ws : List Word) : (s.respond ws).streams = s.streams := rfl
@[simp] theorem State.respond_stages (s : State) (ws : List Word) : (s.respond ws).stages = s.stages := rfl
@[simp] theorem State.respond_xovers (s : State) (ws : List Word) : (s.respond ws).xovers = s.xovers := rfl
@[simp] theorem State.respond_stream (s : State) (ws : List Word) : (s.respond ws).stream = s.stream := rfl
@[simp] theorem State.respond_present (s : State) (ws : List Word) : (s.respond ws).present = s.present := rfl
@[simp] theorem State.respond_cmdIn (s : State) (ws : List Word) : (s.respond ws).cmdIn = s.cmdIn := rfl
@[simp] theorem State.respond_bufIn (s : State) (ws : List Word) : (s.respond ws).bufIn = s.bufIn := rfl
@[simp] theorem State.respond_responses (s : State) (ws : List Word) : (s.respond ws).responses = s.responses ++ [okResponse ws] := rfl
@[simp] theorem State.respond_releases (s : State) (ws : List Word) : (s.respond ws).releases = s.releases := rfl
@[simp] theorem State.respond_reasons (s : State) (ws : List Word) : (s.respond ws).reasons = s.reasons := rfl
@[simp] theorem State.respond_resetIn (s : State) (ws : List Word) : (s.respond ws).resetIn = s.resetIn := rfl
@[simp] theorem State.respond_draws (s : State) (ws : List Word) : (s.respond ws).draws = s.draws := rfl

@[simp] theorem State.draw_container (s : State) (n : Nat) : (s.draw n).container = s.container := rfl
@[simp] theorem State.draw_lastErr (s : State) (n : Nat) : (s.draw n).lastErr = s.lastErr := rfl
@[simp] theorem State.draw_win (s : State) (n : Nat) : (s.draw n).win = s.win := rfl
@[simp] theorem State.draw_streamLen (s : State) (n : Nat) : (s.draw n).streamLen = s.streamLen := rfl
@[simp] theorem State.draw_md (s : State) (n : Nat) : (s.draw n).md = s.md := rfl
@[simp] theorem State.draw_explMask (s : State) (n : Nat) : (s.draw n).explMask = s.explMask := rfl
@[simp] theorem State.draw_dataStart (s : State) (n : Nat) : (s.draw n).dataStart = s.dataStart := rfl
@[simp] theorem State.draw_resolved (s : State) (n : Nat) : (s.draw n).resolved = s.resolved := rfl
@[simp] theorem State.draw_rm (s : State) (n : Nat) : (s.draw n).rm = s.rm := rfl
@[simp] theorem State.draw_built (s : State) (n : Nat) : (s.draw n).built = s.built := rfl
@[simp] theorem State.draw_streams (s : State) (n : Nat) : (s.draw n).streams = s.streams := rfl
@[simp] theorem State.draw_stages (s : State) (n : Nat) : (s.draw n).stages = s.stages := rfl
@[simp] theorem State.draw_xovers (s : State) (n : Nat) : (s.draw n).xovers = s.xovers := rfl
@[simp] theorem State.draw_stream (s : State) (n : Nat) : (s.draw n).stream = s.stream := rfl
@[simp] theorem State.draw_present (s : State) (n : Nat) : (s.draw n).present = s.present := rfl
@[simp] theorem State.draw_cmdIn (s : State) (n : Nat) : (s.draw n).cmdIn = s.cmdIn := rfl
@[simp] theorem State.draw_bufIn (s : State) (n : Nat) : (s.draw n).bufIn = s.bufIn := rfl
@[simp] theorem State.draw_responses (s : State) (n : Nat) : (s.draw n).responses = s.responses := rfl
@[simp] theorem State.draw_releases (s : State) (n : Nat) : (s.draw n).releases = s.releases := rfl
@[simp] theorem State.draw_reasons (s : State) (n : Nat) : (s.draw n).reasons = s.reasons := rfl
@[simp] theorem State.draw_resetIn (s : State) (n : Nat) : (s.draw n).resetIn = s.resetIn := rfl
@[simp] theorem State.draw_draws (s : State) (n : Nat) : (s.draw n).draws = s.draws + n := rfl

@[simp] theorem State.dropContainer_container (s : State) : s.dropContainer.container = .closed := rfl
@[simp] theorem State.dropContainer_lastErr (s : State) : s.dropContainer.lastErr = s.lastErr := rfl
@[simp] theorem State.dropContainer_win (s : State) : s.dropContainer.win = s.win := rfl
@[simp] theorem State.dropContainer_streamLen (s : State) : s.dropContainer.streamLen = s.streamLen := rfl
@[simp] theorem State.dropContainer_md (s : State) : s.dropContainer.md = s.md := rfl
@[simp] theorem State.dropContainer_explMask (s : State) : s.dropContainer.explMask = s.explMask := rfl
@[simp] theorem State.dropContainer_dataStart (s : State) : s.dropContainer.dataStart = s.dataStart := rfl
@[simp] theorem State.dropContainer_resolved (s : State) : s.dropContainer.resolved = false := rfl
@[simp] theorem State.dropContainer_rm (s : State) : s.dropContainer.rm = s.rm := rfl
@[simp] theorem State.dropContainer_built (s : State) : s.dropContainer.built = false := rfl
@[simp] theorem State.dropContainer_streams (s : State) : s.dropContainer.streams = [] := rfl
@[simp] theorem State.dropContainer_stages (s : State) : s.dropContainer.stages = s.stages := rfl
@[simp] theorem State.dropContainer_xovers (s : State) : s.dropContainer.xovers = s.xovers := rfl
@[simp] theorem State.dropContainer_stream (s : State) : s.dropContainer.stream = s.stream := rfl
@[simp] theorem State.dropContainer_present (s : State) : s.dropContainer.present = s.present := rfl
@[simp] theorem State.dropContainer_cmdIn (s : State) : s.dropContainer.cmdIn = s.cmdIn := rfl
@[simp] theorem State.dropContainer_bufIn (s : State) : s.dropContainer.bufIn = s.bufIn := rfl
@[simp] theorem State.dropContainer_responses (s : State) : s.dropContainer.responses = s.responses := rfl
@[simp] theorem State.dropContainer_releases (s : State) : s.dropContainer.releases = s.releases := rfl
@[simp] theorem State.dropContainer_reasons (s : State) : s.dropContainer.reasons = s.reasons := rfl
@[simp] theorem State.dropContainer_resetIn (s : State) : s.dropContainer.resetIn = s.resetIn := rfl
@[simp] theorem State.dropContainer_draws (s : State) : s.dropContainer.draws = s.draws := rfl

@[simp] theorem State.commit_container (s : State) (h : Header) : (s.commit h).container = .opened := rfl
@[simp] theorem State.commit_lastErr (s : State) (h : Header) : (s.commit h).lastErr = s.lastErr := rfl
@[simp] theorem State.commit_win (s : State) (h : Header) : (s.commit h).win = s.win := rfl
@[simp] theorem State.commit_streamLen (s : State) (h : Header) : (s.commit h).streamLen = s.streamLen := rfl
@[simp] theorem State.commit_md (s : State) (h : Header) : (s.commit h).md = h.md := rfl
@[simp] theorem State.commit_explMask (s : State) (h : Header) : (s.commit h).explMask = h.explMask := rfl
@[simp] theorem State.commit_dataStart (s : State) (h : Header) : (s.commit h).dataStart = h.dataStart := rfl
@[simp] theorem State.commit_resolved (s : State) (h : Header) : (s.commit h).resolved = false := rfl
@[simp] theorem State.commit_rm (s : State) (h : Header) : (s.commit h).rm = s.rm := rfl
@[simp] theorem State.commit_built (s : State) (h : Header) : (s.commit h).built = false := rfl
@[simp] theorem State.commit_streams (s : State) (h : Header) : (s.commit h).streams = [] := rfl
@[simp] theorem State.commit_stages (s : State) (h : Header) : (s.commit h).stages = s.stages := rfl
@[simp] theorem State.commit_xovers (s : State) (h : Header) : (s.commit h).xovers = s.xovers := rfl
@[simp] theorem State.commit_stream (s : State) (h : Header) : (s.commit h).stream = s.stream := rfl
@[simp] theorem State.commit_present (s : State) (h : Header) : (s.commit h).present = s.present := rfl
@[simp] theorem State.commit_cmdIn (s : State) (h : Header) : (s.commit h).cmdIn = s.cmdIn := rfl
@[simp] theorem State.commit_bufIn (s : State) (h : Header) : (s.commit h).bufIn = s.bufIn := rfl
@[simp] theorem State.commit_responses (s : State) (h : Header) : (s.commit h).responses = s.responses := rfl
@[simp] theorem State.commit_releases (s : State) (h : Header) : (s.commit h).releases = s.releases := rfl
@[simp] theorem State.commit_reasons (s : State) (h : Header) : (s.commit h).reasons = s.reasons := rfl
@[simp] theorem State.commit_resetIn (s : State) (h : Header) : (s.commit h).resetIn = s.resetIn := rfl
@[simp] theorem State.commit_draws (s : State) (h : Header) : (s.commit h).draws = s.draws := rfl

@[simp] theorem State.createStreams_container (s : State) (own : Bool) (cap : Word) : (s.createStreams own cap).container = s.container := rfl
@[simp] theorem State.createStreams_lastErr (s : State) (own : Bool) (cap : Word) : (s.createStreams own cap).lastErr = s.lastErr := rfl
@[simp] theorem State.createStreams_win (s : State) (own : Bool) (cap : Word) : (s.createStreams own cap).win = s.win := rfl
@[simp] theorem State.createStreams_streamLen (s : State) (own : Bool) (cap : Word) : (s.createStreams own cap).streamLen = s.streamLen := rfl
@[simp] theorem State.createStreams_md (s : State) (own : Bool) (cap : Word) : (s.createStreams own cap).md = s.md := rfl
@[simp] theorem State.createStreams_explMask (s : State) (own : Bool) (cap : Word) : (s.createStreams own cap).explMask = s.explMask := rfl
@[simp] theorem State.createStreams_dataStart (s : State) (own : Bool) (cap : Word) : (s.createStreams own cap).dataStart = s.dataStart := rfl
@[simp] theorem State.createStreams_resolved (s : State) (own : Bool) (cap : Word) : (s.createStreams own cap).resolved = s.resolved := rfl
@[simp] theorem State.createStreams_rm (s : State) (own : Bool) (cap : Word) : (s.createStreams own cap).rm = s.rm := rfl
@[simp] theorem State.createStreams_built (s : State) (own : Bool) (cap : Word) : (s.createStreams own cap).built = true := rfl
@[simp] theorem State.createStreams_streams (s : State) (own : Bool) (cap : Word) : (s.createStreams own cap).streams = s.rm.positions.map (ChannelStream.fresh cap own) := rfl
@[simp] theorem State.createStreams_stages (s : State) (own : Bool) (cap : Word) : (s.createStreams own cap).stages = s.stages := rfl
@[simp] theorem State.createStreams_xovers (s : State) (own : Bool) (cap : Word) : (s.createStreams own cap).xovers = s.xovers := rfl
@[simp] theorem State.createStreams_stream (s : State) (own : Bool) (cap : Word) : (s.createStreams own cap).stream = s.stream := rfl
@[simp] theorem State.createStreams_present (s : State) (own : Bool) (cap : Word) : (s.createStreams own cap).present = s.present := rfl
@[simp] theorem State.createStreams_cmdIn (s : State) (own : Bool) (cap : Word) : (s.createStreams own cap).cmdIn = s.cmdIn := rfl
@[simp] theorem State.createStreams_bufIn (s : State) (own : Bool) (cap : Word) : (s.createStreams own cap).bufIn = s.bufIn := rfl
@[simp] theorem State.createStreams_responses (s : State) (own : Bool) (cap : Word) : (s.createStreams own cap).responses = s.responses := rfl
@[simp] theorem State.createStreams_releases (s : State) (own : Bool) (cap : Word) : (s.createStreams own cap).releases = s.releases := rfl
@[simp] theorem State.createStreams_reasons (s : State) (own : Bool) (cap : Word) : (s.createStreams own cap).reasons = s.reasons := rfl
@[simp] theorem State.createStreams_resetIn (s : State) (own : Bool) (cap : Word) : (s.createStreams own cap).resetIn = s.resetIn := rfl
@[simp] theorem State.createStreams_draws (s : State) (own : Bool) (cap : Word) : (s.createStreams own cap).draws = s.draws := rfl

@[simp] theorem State.setStream_container (s : State) (k : Nat) (c : ChannelStream) : (s.setStream k c).container = s.container := rfl
@[simp] theorem State.setStream_lastErr (s : State) (k : Nat) (c : ChannelStream) : (s.setStream k c).lastErr = s.lastErr := rfl
@[simp] theorem State.setStream_win (s : State) (k : Nat) (c : ChannelStream) : (s.setStream k c).win = s.win := rfl
@[simp] theorem State.setStream_streamLen (s : State) (k : Nat) (c : ChannelStream) : (s.setStream k c).streamLen = s.streamLen := rfl
@[simp] theorem State.setStream_md (s : State) (k : Nat) (c : ChannelStream) : (s.setStream k c).md = s.md := rfl
@[simp] theorem State.setStream_explMask (s : State) (k : Nat) (c : ChannelStream) : (s.setStream k c).explMask = s.explMask := rfl
@[simp] theorem State.setStream_dataStart (s : State) (k : Nat) (c : ChannelStream) : (s.setStream k c).dataStart = s.dataStart := rfl
@[simp] theorem State.setStream_resolved (s : State) (k : Nat) (c : ChannelStream) : (s.setStream k c).resolved = s.resolved := rfl
@[simp] theorem State.setStream_rm (s : State) (k : Nat) (c : ChannelStream) : (s.setStream k c).rm = s.rm := rfl
@[simp] theorem State.setStream_built (s : State) (k : Nat) (c : ChannelStream) : (s.setStream k c).built = s.built := rfl
@[simp] theorem State.setStream_streams (s : State) (k : Nat) (c : ChannelStream) : (s.setStream k c).streams = s.streams.set k c := rfl
@[simp] theorem State.setStream_stages (s : State) (k : Nat) (c : ChannelStream) : (s.setStream k c).stages = s.stages := rfl
@[simp] theorem State.setStream_xovers (s : State) (k : Nat) (c : ChannelStream) : (s.setStream k c).xovers = s.xovers := rfl
@[simp] theorem State.setStream_stream (s : State) (k : Nat) (c : ChannelStream) : (s.setStream k c).stream = s.stream := rfl
@[simp] theorem State.setStream_present (s : State) (k : Nat) (c : ChannelStream) : (s.setStream k c).present = s.present := rfl
@[simp] theorem State.setStream_cmdIn (s : State) (k : Nat) (c : ChannelStream) : (s.setStream k c).cmdIn = s.cmdIn := rfl
@[simp] theorem State.setStream_bufIn (s : State) (k : Nat) (c : ChannelStream) : (s.setStream k c).bufIn = s.bufIn := rfl
@[simp] theorem State.setStream_responses (s : State) (k : Nat) (c : ChannelStream) : (s.setStream k c).responses = s.responses := rfl
@[simp] theorem State.setStream_releases (s : State) (k : Nat) (c : ChannelStream) : (s.setStream k c).releases = s.releases := rfl
@[simp] theorem State.setStream_reasons (s : State) (k : Nat) (c : ChannelStream) : (s.setStream k c).reasons = s.reasons := rfl
@[simp] theorem State.setStream_resetIn (s : State) (k : Nat) (c : ChannelStream) : (s.setStream k c).resetIn = s.resetIn := rfl
@[simp] theorem State.setStream_draws (s : State) (k : Nat) (c : ChannelStream) : (s.setStream k c).draws = s.draws := rfl

@[simp] theorem State.release_container (s : State) (k : Nat) (own : Bool) : (s.release k own).container = s.container := rfl
@[simp] theorem State.release_lastErr (s : State) (k : Nat) (own : Bool) : (s.release k own).lastErr = s.lastErr := rfl
@[simp] theorem State.release_win (s : State) (k : Nat) (own : Bool) : (s.release k own).win = s.win := rfl
@[simp] theorem State.release_streamLen (s : State) (k : Nat) (own : Bool) : (s.release k own).streamLen = s.streamLen := rfl
@[simp] theorem State.release_md (s : State) (k : Nat) (own : Bool) : (s.release k own).md = s.md := rfl
@[simp] theorem State.release_explMask (s : State) (k : Nat) (own : Bool) : (s.release k own).explMask = s.explMask := rfl
@[simp] theorem State.release_dataStart (s : State) (k : Nat) (own : Bool) : (s.release k own).dataStart = s.dataStart := rfl
@[simp] theorem State.release_resolved (s : State) (k : Nat) (own : Bool) : (s.release k own).resolved = s.resolved := rfl
@[simp] theorem State.release_rm (s : State) (k : Nat) (own : Bool) : (s.release k own).rm = s.rm := rfl
@[simp] theorem State.release_built (s : State) (k : Nat) (own : Bool) : (s.release k own).built = s.built := rfl
@[simp] theorem State.release_streams (s : State) (k : Nat) (own : Bool) : (s.release k own).streams = s.streams := rfl
@[simp] theorem State.release_stages (s : State) (k : Nat) (own : Bool) : (s.release k own).stages = s.stages := rfl
@[simp] theorem State.release_xovers (s : State) (k : Nat) (own : Bool) : (s.release k own).xovers = s.xovers := rfl
@[simp] theorem State.release_stream (s : State) (k : Nat) (own : Bool) : (s.release k own).stream = s.stream := rfl
@[simp] theorem State.release_present (s : State) (k : Nat) (own : Bool) : (s.release k own).present = s.present := rfl
@[simp] theorem State.release_cmdIn (s : State) (k : Nat) (own : Bool) : (s.release k own).cmdIn = s.cmdIn := rfl
@[simp] theorem State.release_bufIn (s : State) (k : Nat) (own : Bool) : (s.release k own).bufIn = s.bufIn := rfl
@[simp] theorem State.release_responses (s : State) (k : Nat) (own : Bool) : (s.release k own).responses = s.responses := rfl
@[simp] theorem State.release_releases (s : State) (k : Nat) (own : Bool) : (s.release k own).releases = if own then s.releases ++ [k] else s.releases := rfl
@[simp] theorem State.release_reasons (s : State) (k : Nat) (own : Bool) : (s.release k own).reasons = s.reasons := rfl
@[simp] theorem State.release_resetIn (s : State) (k : Nat) (own : Bool) : (s.release k own).resetIn = s.resetIn := rfl
@[simp] theorem State.release_draws (s : State) (k : Nat) (own : Bool) : (s.release k own).draws = s.draws := rfl

@[simp] theorem State.setStage_container (s : State) (k : Nat) (g : Stage) : (s.setStage k g).container = s.container := rfl
@[simp] theorem State.setStage_lastErr (s : State) (k : Nat) (g : Stage) : (s.setStage k g).lastErr = s.lastErr := rfl
@[simp] theorem State.setStage_win (s : State) (k : Nat) (g : Stage) : (s.setStage k g).win = s.win := rfl
@[simp] theorem State.setStage_streamLen (s : State) (k : Nat) (g : Stage) : (s.setStage k g).streamLen = s.streamLen := rfl
@[simp] theorem State.setStage_md (s : State) (k : Nat) (g : Stage) : (s.setStage k g).md = s.md := rfl
@[simp] theorem State.setStage_explMask (s : State) (k : Nat) (g : Stage) : (s.setStage k g).explMask = s.explMask := rfl
@[simp] theorem State.setStage_dataStart (s : State) (k : Nat) (g : Stage) : (s.setStage k g).dataStart = s.dataStart := rfl
@[simp] theorem State.setStage_resolved (s : State) (k : Nat) (g : Stage) : (s.setStage k g).resolved = s.resolved := rfl
@[simp] theorem State.setStage_rm (s : State) (k : Nat) (g : Stage) : (s.setStage k g).rm = s.rm := rfl
@[simp] theorem State.setStage_built (s : State) (k : Nat) (g : Stage) : (s.setStage k g).built = s.built := rfl
@[simp] theorem State.setStage_streams (s : State) (k : Nat) (g : Stage) : (s.setStage k g).streams = s.streams := rfl
@[simp] theorem State.setStage_stages (s : State) (k : Nat) (g : Stage) : (s.setStage k g).stages = s.stages.set k g := rfl
@[simp] theorem State.setStage_xovers (s : State) (k : Nat) (g : Stage) : (s.setStage k g).xovers = s.xovers := rfl
@[simp] theorem State.setStage_stream (s : State) (k : Nat) (g : Stage) : (s.setStage k g).stream = s.stream := rfl
@[simp] theorem State.setStage_present (s : State) (k : Nat) (g : Stage) : (s.setStage k g).present = s.present := rfl
@[simp] theorem State.setStage_cmdIn (s : State) (k : Nat) (g : Stage) : (s.setStage k g).cmdIn = s.cmdIn := rfl
@[simp] theorem State.setStage_bufIn (s : State) (k : Nat) (g : Stage) : (s.setStage k g).bufIn = s.bufIn := rfl
@[simp] theorem State.setStage_responses (s : State) (k : Nat) (g : Stage) : (s.setStage k g).responses = s.responses := rfl
@[simp] theorem State.setStage_releases (s : State) (k : Nat) (g : Stage) : (s.setStage k g).releases = s.releases := rfl
@[simp] theorem State.setStage_reasons (s : State) (k : Nat) (g : Stage) : (s.setStage k g).reasons = s.reasons := rfl
@[simp] theorem State.setStage_resetIn (s : State) (k : Nat) (g : Stage) : (s.setStage k g).resetIn = s.resetIn := rfl
@[simp] theorem State.setStage_draws (s : State) (k : Nat) (g : Stage) : (s.setStage k g).draws = s.draws := rfl

@[simp] theorem State.setXover_container (s : State) (f : Nat) (x : Crossover) : (s.setXover f x).container = s.container := rfl
@[simp] theorem State.setXover_lastErr (s : State) (f : Nat) (x : Crossover) : (s.setXover f x).lastErr = s.lastErr := rfl
@[simp] theorem State.setXover_win (s : State) (f : Nat) (x : Crossover) : (s.setXover f x).win = s.win := rfl
@[simp] theorem State.setXover_streamLen (s : State) (f : Nat) (x : Crossover) : (s.setXover f x).streamLen = s.streamLen := rfl
@[simp] theorem State.setXover_md (s : State) (f : Nat) (x : Crossover) : (s.setXover f x).md = s.md := rfl
@[simp] theorem State.setXover_explMask (s : State) (f : Nat) (x : Crossover) : (s.setXover f x).explMask = s.explMask := rfl
@[simp] theorem State.setXover_dataStart (s : State) (f : Nat) (x : Crossover) : (s.setXover f x).dataStart = s.dataStart := rfl
@[simp] theorem State.setXover_resolved (s : State) (f : Nat) (x : Crossover) : (s.setXover f x).resolved = s.resolved := rfl
@[simp] theorem State.setXover_rm (s : State) (f : Nat) (x : Crossover) : (s.setXover f x).rm = s.rm := rfl
@[simp] theorem State.setXover_built (s : State) (f : Nat) (x : Crossover) : (s.setXover f x).built = s.built := rfl
@[simp] theorem State.setXover_streams (s : State) (f : Nat) (x : Crossover) : (s.setXover f x).streams = s.streams := rfl
@[simp] theorem State.setXover_stages (s : State) (f : Nat) (x : Crossover) : (s.setXover f x).stages = s.stages := rfl
@[simp] theorem State.setXover_xovers (s : State) (f : Nat) (x : Crossover) : (s.setXover f x).xovers = s.xovers.set f x := rfl
@[simp] theorem State.setXover_stream (s : State) (f : Nat) (x : Crossover) : (s.setXover f x).stream = s.stream := rfl
@[simp] theorem State.setXover_present (s : State) (f : Nat) (x : Crossover) : (s.setXover f x).present = s.present := rfl
@[simp] theorem State.setXover_cmdIn (s : State) (f : Nat) (x : Crossover) : (s.setXover f x).cmdIn = s.cmdIn := rfl
@[simp] theorem State.setXover_bufIn (s : State) (f : Nat) (x : Crossover) : (s.setXover f x).bufIn = s.bufIn := rfl
@[simp] theorem State.setXover_responses (s : State) (f : Nat) (x : Crossover) : (s.setXover f x).responses = s.responses := rfl
@[simp] theorem State.setXover_releases (s : State) (f : Nat) (x : Crossover) : (s.setXover f x).releases = s.releases := rfl
@[simp] theorem State.setXover_reasons (s : State) (f : Nat) (x : Crossover) : (s.setXover f x).reasons = s.reasons := rfl
@[simp] theorem State.setXover_resetIn (s : State) (f : Nat) (x : Crossover) : (s.setXover f x).resetIn = s.resetIn := rfl
@[simp] theorem State.setXover_draws (s : State) (f : Nat) (x : Crossover) : (s.setXover f x).draws = s.draws := rfl

@[simp] theorem State.setMemory_container (s : State) (m : Memory) : (s.setMemory m).container = s.container := rfl
@[simp] theorem State.setMemory_lastErr (s : State) (m : Memory) : (s.setMemory m).lastErr = s.lastErr := rfl
@[simp] theorem State.setMemory_win (s : State) (m : Memory) : (s.setMemory m).win = s.win := rfl
@[simp] theorem State.setMemory_streamLen (s : State) (m : Memory) : (s.setMemory m).streamLen = s.streamLen := rfl
@[simp] theorem State.setMemory_md (s : State) (m : Memory) : (s.setMemory m).md = s.md := rfl
@[simp] theorem State.setMemory_explMask (s : State) (m : Memory) : (s.setMemory m).explMask = s.explMask := rfl
@[simp] theorem State.setMemory_dataStart (s : State) (m : Memory) : (s.setMemory m).dataStart = s.dataStart := rfl
@[simp] theorem State.setMemory_resolved (s : State) (m : Memory) : (s.setMemory m).resolved = s.resolved := rfl
@[simp] theorem State.setMemory_rm (s : State) (m : Memory) : (s.setMemory m).rm = s.rm := rfl
@[simp] theorem State.setMemory_built (s : State) (m : Memory) : (s.setMemory m).built = s.built := rfl
@[simp] theorem State.setMemory_streams (s : State) (m : Memory) : (s.setMemory m).streams = s.streams := rfl
@[simp] theorem State.setMemory_stages (s : State) (m : Memory) : (s.setMemory m).stages = s.stages := rfl
@[simp] theorem State.setMemory_xovers (s : State) (m : Memory) : (s.setMemory m).xovers = s.xovers := rfl
@[simp] theorem State.setMemory_stream (s : State) (m : Memory) : (s.setMemory m).stream = m := rfl
@[simp] theorem State.setMemory_present (s : State) (m : Memory) : (s.setMemory m).present = s.present := rfl
@[simp] theorem State.setMemory_cmdIn (s : State) (m : Memory) : (s.setMemory m).cmdIn = s.cmdIn := rfl
@[simp] theorem State.setMemory_bufIn (s : State) (m : Memory) : (s.setMemory m).bufIn = s.bufIn := rfl
@[simp] theorem State.setMemory_responses (s : State) (m : Memory) : (s.setMemory m).responses = s.responses := rfl
@[simp] theorem State.setMemory_releases (s : State) (m : Memory) : (s.setMemory m).releases = s.releases := rfl
@[simp] theorem State.setMemory_reasons (s : State) (m : Memory) : (s.setMemory m).reasons = s.reasons := rfl
@[simp] theorem State.setMemory_resetIn (s : State) (m : Memory) : (s.setMemory m).resetIn = s.resetIn := rfl
@[simp] theorem State.setMemory_draws (s : State) (m : Memory) : (s.setMemory m).draws = s.draws := rfl

@[simp] theorem State.giveReason_container (s : State) (r : Option String) : (s.giveReason r).container = s.container := rfl
@[simp] theorem State.giveReason_lastErr (s : State) (r : Option String) : (s.giveReason r).lastErr = s.lastErr := rfl
@[simp] theorem State.giveReason_win (s : State) (r : Option String) : (s.giveReason r).win = s.win := rfl
@[simp] theorem State.giveReason_streamLen (s : State) (r : Option String) : (s.giveReason r).streamLen = s.streamLen := rfl
@[simp] theorem State.giveReason_md (s : State) (r : Option String) : (s.giveReason r).md = s.md := rfl
@[simp] theorem State.giveReason_explMask (s : State) (r : Option String) : (s.giveReason r).explMask = s.explMask := rfl
@[simp] theorem State.giveReason_dataStart (s : State) (r : Option String) : (s.giveReason r).dataStart = s.dataStart := rfl
@[simp] theorem State.giveReason_resolved (s : State) (r : Option String) : (s.giveReason r).resolved = s.resolved := rfl
@[simp] theorem State.giveReason_rm (s : State) (r : Option String) : (s.giveReason r).rm = s.rm := rfl
@[simp] theorem State.giveReason_built (s : State) (r : Option String) : (s.giveReason r).built = s.built := rfl
@[simp] theorem State.giveReason_streams (s : State) (r : Option String) : (s.giveReason r).streams = s.streams := rfl
@[simp] theorem State.giveReason_stages (s : State) (r : Option String) : (s.giveReason r).stages = s.stages := rfl
@[simp] theorem State.giveReason_xovers (s : State) (r : Option String) : (s.giveReason r).xovers = s.xovers := rfl
@[simp] theorem State.giveReason_stream (s : State) (r : Option String) : (s.giveReason r).stream = s.stream := rfl
@[simp] theorem State.giveReason_present (s : State) (r : Option String) : (s.giveReason r).present = s.present := rfl
@[simp] theorem State.giveReason_cmdIn (s : State) (r : Option String) : (s.giveReason r).cmdIn = s.cmdIn := rfl
@[simp] theorem State.giveReason_bufIn (s : State) (r : Option String) : (s.giveReason r).bufIn = s.bufIn := rfl
@[simp] theorem State.giveReason_responses (s : State) (r : Option String) : (s.giveReason r).responses = s.responses := rfl
@[simp] theorem State.giveReason_releases (s : State) (r : Option String) : (s.giveReason r).releases = s.releases := rfl
@[simp] theorem State.giveReason_reasons (s : State) (r : Option String) : (s.giveReason r).reasons = s.reasons ++ r.toList := rfl
@[simp] theorem State.giveReason_resetIn (s : State) (r : Option String) : (s.giveReason r).resetIn = s.resetIn := rfl
@[simp] theorem State.giveReason_draws (s : State) (r : Option String) : (s.giveReason r).draws = s.draws := rfl

end Sys2Proof.Machine
end

