-- ==== Sys2Proof/Laws/Memory.lean ====
section
/-! SUPPORT. The laws of the external stream: a byte written is read back, no other byte changes, a write succeeds exactly where a
byte is held, and every operation keeps the canonical form. The same for the writes of a flush, told through the latest write. -/

namespace Sys2Proof.Machine

theorem Memory.write_isSome (m : Memory) (a : Nat) (b : Byte) :
    (m.write a b).isSome = (m.read a).isSome := by
  induction m with
  | nil => rfl
  | cons c m ih =>
    obtain ⟨a', b'⟩ := c
    by_cases h : a' = a <;> simp [Memory.write, Memory.read, h, ih]

theorem Memory.read_write {m m' : Memory} {a : Nat} {b : Byte} (h : m.write a b = some m') (x : Nat) :
    m'.read x = if x = a then some b else m.read x := by
  induction m generalizing m' with
  | nil => simp [Memory.write] at h
  | cons c m ih =>
    obtain ⟨a', b'⟩ := c
    by_cases ha : a' = a
    · simp only [Memory.write, ha, if_true, Option.some.injEq] at h
      subst h ha
      by_cases hx : x = a' <;> simp [Memory.read, hx, eq_comm]
    · simp only [Memory.write, ha, if_false, Option.map_eq_some_iff] at h
      obtain ⟨m₁, hm, rfl⟩ := h
      by_cases hx : a' = x
      · subst hx; simp [Memory.read, ha]
      · simp [Memory.read, hx, ih hm]

theorem Memory.write_addresses {m m' : Memory} {a : Nat} {b : Byte} (h : m.write a b = some m') :
    m'.map (·.1) = m.map (·.1) := by
  induction m generalizing m' with
  | nil => simp [Memory.write] at h
  | cons c m ih =>
    obtain ⟨a', b'⟩ := c
    by_cases ha : a' = a
    · simp only [Memory.write, ha, if_true, Option.some.injEq] at h
      subst h ha; simp
    · simp only [Memory.write, ha, if_false, Option.map_eq_some_iff] at h
      obtain ⟨m₁, hm, rfl⟩ := h
      simp [ih hm]

theorem Memory.wf_iff_sorted (m : Memory) : m.wf = true ↔ (m.map (·.1)).Pairwise (· < ·) := by
  induction m with
  | nil => simp [Memory.wf]
  | cons c m ih => simp [Memory.wf, ih, List.pairwise_cons]

/-- A write keeps the canonical form. -/
theorem Memory.wf_write {m m' : Memory} {a : Nat} {b : Byte} (h : m.write a b = some m') : m'.wf = m.wf := by
  rw [Bool.eq_iff_iff, Memory.wf_iff_sorted, Memory.wf_iff_sorted, Memory.write_addresses h]

/-- What a flush leaves: each address holds its latest pending byte, or what it held. -/
theorem Memory.read_writeAll {limit : Nat} {m m' : Memory} {cells : List Host.Cell}
    (h : m.writeAll limit cells = some m') (x : Nat) : m'.read x = (lastWrite cells x).or (m.read x) := by
  induction cells generalizing m with
  | nil => simp_all [Memory.writeAll, lastWrite]
  | cons c cells ih =>
    obtain ⟨a, b⟩ := c
    simp only [Memory.writeAll] at h
    split at h
    · obtain ⟨m₁, h₁, h₂⟩ := Option.bind_eq_some_iff.1 h
      rw [ih h₂, Memory.read_write h₁ x, lastWrite]
      cases lastWrite cells x <;> by_cases hx : x = a <;> simp [hx, eq_comm]
    · simp at h

theorem Memory.wf_writeAll {limit : Nat} {m m' : Memory} {cells : List Host.Cell}
    (h : m.writeAll limit cells = some m') : m'.wf = m.wf := by
  induction cells generalizing m with
  | nil => simp_all [Memory.writeAll]
  | cons c cells ih =>
    simp only [Memory.writeAll] at h
    split at h
    · obtain ⟨m₁, h₁, h₂⟩ := Option.bind_eq_some_iff.1 h
      rw [ih h₂, Memory.wf_write h₁]
    · simp at h

/-- A flush changes no address from held to not held, or back. -/
theorem Memory.held_writeAll {limit : Nat} {m m' : Memory} {cells : List Host.Cell}
    (h : m.writeAll limit cells = some m') (x : Nat) : (m'.read x).isSome = (m.read x).isSome := by
  induction cells generalizing m with
  | nil => simp_all [Memory.writeAll]
  | cons c cells ih =>
    simp only [Memory.writeAll] at h
    split at h
    · obtain ⟨m₁, h₁, h₂⟩ := Option.bind_eq_some_iff.1 h
      rw [ih h₂, Memory.read_write h₁ x]
      have := Memory.write_isSome m c.1 c.2
      rw [h₁] at this
      by_cases hx : x = c.1
      · rw [hx, ← this]; simp
      · simp [hx]
    · simp at h

/-- A flush succeeds when every pending address is below the limit and held. -/
theorem Memory.writeAll_isSome {limit : Nat} {m : Memory} {cells : List Host.Cell}
    (h : ∀ p ∈ cells, p.1 < limit ∧ (m.read p.1).isSome = true) : ∃ m', m.writeAll limit cells = some m' := by
  induction cells generalizing m with
  | nil => exact ⟨m, rfl⟩
  | cons c cells ih =>
    obtain ⟨a, b⟩ := c
    have hc := h (a, b) (by simp)
    obtain ⟨m₁, hm⟩ := Option.isSome_iff_exists.1 ((Memory.write_isSome m a b).trans hc.2)
    simp only [Memory.writeAll, hc.1, if_true, hm, Option.bind_some]
    refine ih fun p hp => ?_
    have hp' := h p (by simp [hp])
    refine ⟨hp'.1, ?_⟩
    rw [Memory.read_write hm]
    split
    · simp
    · exact hp'.2

theorem lastWrite_append (xs ys : List Host.Cell) (a : Nat) :
    lastWrite (xs ++ ys) a = (lastWrite ys a).or (lastWrite xs a) := by
  induction xs with
  | nil => simp [lastWrite]
  | cons c xs ih =>
    simp only [List.cons_append, lastWrite, ih]
    cases lastWrite ys a <;> cases lastWrite xs a <;> simp

theorem lastWrite_eq_none {cells : List Host.Cell} {a : Nat} (h : ∀ p ∈ cells, p.1 ≠ a) : lastWrite cells a = none := by
  induction cells with
  | nil => rfl
  | cons c cells ih => simp [lastWrite, ih fun p hp => h p (by simp [hp]), h c (by simp)]

end Sys2Proof.Machine
end

