-- ==== Sys2Proof/Laws/Streams.lean ====
section
/-! SUPPORT. What the operations over the stream table do, said once: closing streams is one flush of their pending writes in slot
order; queueing samples leaves every stream byte, as the block reads it, at the sample written there or as it was. -/

namespace Sys2Proof.Machine

/-- The writes a close of this stream performs: none when it is already closed (R198). -/
def ChannelStream.openWb (c : ChannelStream) : List Host.Cell := if c.closed then [] else c.wb

/-- Does a close of slot `k` signal `RELEASE(k)` (R198)? -/
def State.releasable (s : State) (k : Nat) : Bool :=
  match s.streams[k]? with
  | some c => c.own && !c.closed
  | none => false

theorem Memory.writeAll_append (limit : Nat) (m : Memory) (xs ys : List Host.Cell) :
    m.writeAll limit (xs ++ ys) = (m.writeAll limit xs).bind fun m' => m'.writeAll limit ys := by
  induction xs generalizing m with
  | nil => simp [Memory.writeAll]
  | cons c xs ih =>
    obtain ⟨a, b⟩ := c
    simp only [List.cons_append, Memory.writeAll]
    split
    · cases m.write a b <;> simp [ih]
    · rfl

/-- One close, whole: the open stream's writes are performed, the entry is shut, and an owned handle is released. -/
theorem State.closeStream_eq {s : State} {k : Nat} {c : ChannelStream} (h : s.streams[k]? = some c) :
    s.closeStream k = (s.stream.writeAll s.streamLen.toNat c.openWb).map fun m =>
      ((s.setMemory m).setStream k c.shut).release k (c.own && !c.closed) := by
  obtain ⟨hk, rfl⟩ := List.getElem?_eq_some_iff.1 h
  unfold State.closeStream
  rw [h]
  by_cases hc : (s.streams[k]).closed = true
  · simp [hc, ChannelStream.openWb, ChannelStream.shut, Memory.writeAll, State.setStream, State.release, State.setMemory]
  · simp [hc, ChannelStream.openWb]

/-- The state after the first `n` closes: the stream's bytes are `m`, `n` entries are shut, the owned ones released. -/
def State.shutFirst (s : State) (n : Nat) (m : Memory) : State :=
  { s with
    stream := m
    streams := (s.streams.take n).map ChannelStream.shut ++ s.streams.drop n
    releases := s.releases ++ (List.range n).filter s.releasable }

/-- The state after every stream of the table is closed. -/
def State.shutAll (s : State) (m : Memory) : State :=
  { s with
    stream := m
    streams := s.streams.map ChannelStream.shut
    releases := s.releases ++ (List.range s.streams.length).filter s.releasable }

/-- The first `n` closes, whole: one flush in slot order, then `shutFirst`. -/
theorem State.closeFirst_eq (s : State) (n : Nat) (hn : n ≤ s.streams.length) :
    s.closeFirst n =
      (s.stream.writeAll s.streamLen.toNat ((s.streams.take n).flatMap ChannelStream.openWb)).map (s.shutFirst n) := by
  induction n with
  | zero => simp [State.closeFirst, Memory.writeAll, State.shutFirst]
  | succ n ih =>
    have hlt : n < s.streams.length := hn
    have hlen : ((s.streams.take n).map ChannelStream.shut).length = n := by simp; omega
    have htake : s.streams.take (n + 1) = s.streams.take n ++ [s.streams[n]] := by
      rw [List.take_append_getElem hlt]
    rw [State.closeFirst, ih (by omega), htake, List.flatMap_append, Memory.writeAll_append, List.flatMap_singleton]
    cases hm : s.stream.writeAll s.streamLen.toNat ((s.streams.take n).flatMap ChannelStream.openWb) with
    | none => rfl
    | some m =>
      have hget : (s.shutFirst n m).streams[n]? = some s.streams[n] := by
        simp only [State.shutFirst]
        rw [List.getElem?_append_right (by omega), hlen]
        simp [hlt]
      rw [Option.map_some, Option.bind_some, Option.bind_some, State.closeStream_eq hget]
      congr 1
      funext m'
      have hset : (s.shutFirst n m).streams.set n s.streams[n].shut = (s.shutFirst (n + 1) m').streams := by
        simp only [State.shutFirst, htake]
        rw [List.set_append_right _ _ (by omega), hlen, List.drop_eq_getElem_cons hlt, Nat.sub_self, List.set_cons_zero,
          List.map_append]
        simp only [List.map_cons, List.map_nil, List.append_assoc, List.singleton_append]
      have hrel : (s.shutFirst (n + 1) m').releases =
          if s.streams[n].own && !s.streams[n].closed then (s.shutFirst n m).releases ++ [n]
          else (s.shutFirst n m).releases := by
        have : s.releasable n = (s.streams[n].own && !s.streams[n].closed) := by
          simp [State.releasable, hlt]
        simp only [State.shutFirst, List.range_succ, List.filter_append, List.filter_singleton, this]
        cases s.streams[n].own && !s.streams[n].closed <;> simp
      unfold State.release State.setStream State.setMemory
      simp only [hset]
      rw [← hrel]
      rfl

/-- Every close, whole. -/
theorem State.closeAll_eq (s : State) :
    s.closeAll =
      (s.stream.writeAll s.streamLen.toNat (s.streams.flatMap ChannelStream.openWb)).map s.shutAll := by
  have h := State.closeFirst_eq s s.streams.length (Nat.le_refl _)
  rw [List.take_length] at h
  rw [State.closeAll, h]
  congr 1
  funext m
  simp [State.shutFirst, State.shutAll]

end Sys2Proof.Machine
end

