-- ==== Sys2Proof/Laws/Samples.lean ====
section
/-! SUPPORT. What reading and queueing samples do, said once: a sample read is the stream bytes of its frame and slot; queueing
samples flushes a beginning of the pending and new writes and leaves the rest pending; no two samples share a byte. -/

namespace Sys2Proof.Machine

/-! ## Bytes of a value -/

theorem leBytes_getElem (v n j : Nat) (h : j < (leBytes v n).length) :
    (leBytes v n)[j] = BitVec.ofNat 8 (v / 256 ^ j) := by
  induction n generalizing v j with
  | zero => simp at h
  | succ n ih =>
    cases j with
    | zero => simp [leBytes]
    | succ j =>
      simp only [leBytes, List.getElem_cons_succ]
      rw [ih, Nat.div_div_eq_div_mul, pow_succ', Nat.mul_comm]

theorem leNat_byte (bs : List Byte) (j : Nat) (h : j < bs.length) :
    BitVec.ofNat 8 (leNat bs / 256 ^ j) = bs[j] := by
  rw [← leBytes_getElem (leNat bs) bs.length j (by simpa using h)]
  simp [leBytes_leNat]

/-- A value below `256 ^ n` is the value of its `n` bytes, so those bytes determine it. -/
theorem eq_of_bytes {v w n : Nat} (hv : v < 256 ^ n) (hw : w < 256 ^ n)
    (h : ∀ j < n, BitVec.ofNat 8 (v / 256 ^ j) = BitVec.ofNat 8 (w / 256 ^ j)) : v = w := by
  have hb : leBytes v n = leBytes w n :=
    List.ext_getElem (by simp) fun j h₁ h₂ => by
      rw [leBytes_getElem, leBytes_getElem]; exact h j (by simpa using h₁)
  have := congrArg leNat hb
  rwa [leNat_leBytes, leNat_leBytes, Nat.mod_eq_of_lt hv, Nat.mod_eq_of_lt hw] at this

/-! ## Reading -/

theorem State.bytesAt_eq_some {s : State} {a n : Nat} {bs : List Byte} :
    s.bytesAt a n = some bs ↔ bs.length = n ∧ ∀ j, (h : j < bs.length) → s.byteAt (a + j) = some bs[j] := by
  induction n generalizing a bs with
  | zero =>
    constructor
    · intro h; cases h; simp
    · rintro ⟨h, -⟩; cases List.length_eq_zero_iff.1 h; rfl
  | succ n ih =>
    rw [State.bytesAt]
    constructor
    · intro h
      obtain ⟨b, hb, h⟩ := Option.bind_eq_some_iff.1 h
      obtain ⟨bs', h', rfl⟩ := Option.map_eq_some_iff.1 h
      obtain ⟨hl, hs⟩ := ih.1 h'
      refine ⟨by simp [hl], fun j hj => ?_⟩
      cases j with
      | zero => simpa using hb
      | succ j =>
        have := hs j (by simpa using hj)
        simpa [Nat.add_assoc, Nat.add_comm 1 j] using this
    · rintro ⟨hl, hs⟩
      cases bs with
      | nil => simp at hl
      | cons b bs =>
        have h0 := hs 0 (by simp)
        have ht : s.bytesAt (a + 1) n = some bs := ih.2 ⟨by simpa using hl, fun j hj => by
          have := hs (j + 1) (by simpa using hj)
          simpa [Nat.add_assoc, Nat.add_comm 1 j] using this⟩
        simp only [Nat.add_zero, List.getElem_cons_zero] at h0
        simp [h0, ht]

/-- The bytes of a range are there when each is. -/
theorem State.bytesAt_isSome {s : State} {a n : Nat} (h : ∀ j < n, (s.byteAt (a + j)).isSome = true) :
    ∃ bs, s.bytesAt a n = some bs := by
  induction n generalizing a with
  | zero => exact ⟨[], rfl⟩
  | succ n ih =>
    obtain ⟨b, hb⟩ := Option.isSome_iff_exists.1 (h 0 (by omega))
    obtain ⟨bs, hbs⟩ := ih (a := a + 1) fun j hj => by
      have := h (j + 1) (by omega)
      rwa [show a + (j + 1) = a + 1 + j by omega] at this
    exact ⟨b :: bs, by rw [State.bytesAt]; simp only [Nat.add_zero] at hb; simp [hb, hbs]⟩

/-- A value read is the one whose bytes, least significant first, are the stream's (R77). -/
theorem State.memRead_eq_some {s : State} {a n v : Nat} :
    s.memRead a n = some v ↔
      a + n ≤ s.streamLen.toNat ∧ v < 256 ^ n ∧ ∀ j < n, s.byteAt (a + j) = some (BitVec.ofNat 8 (v / 256 ^ j)) := by
  unfold State.memRead
  split
  case isFalse h => simp [h]
  case isTrue h =>
    simp only [h, true_and, Option.map_eq_some_iff]
    constructor
    · rintro ⟨bs, hbs, rfl⟩
      obtain ⟨hl, hs⟩ := State.bytesAt_eq_some.1 hbs
      refine ⟨by simpa [hl] using leNat_lt bs, fun j hj => ?_⟩
      rw [hs j (by omega), leNat_byte]
    · rintro ⟨hv, hs⟩
      refine ⟨leBytes v n, State.bytesAt_eq_some.2 ⟨by simp, fun j hj => ?_⟩, ?_⟩
      · rw [leBytes_getElem, hs j (by simpa using hj)]
      · rw [leNat_leBytes, Nat.mod_eq_of_lt hv]

theorem State.memRead_isSome {s : State} {a n : Nat} (hl : a + n ≤ s.streamLen.toNat)
    (h : ∀ j < n, (s.byteAt (a + j)).isSome = true) : ∃ v, s.memRead a n = some v := by
  obtain ⟨bs, hbs⟩ := State.bytesAt_isSome h
  exact ⟨leNat bs, by simp [State.memRead, hl, hbs]⟩

theorem State.readSamples_eq_some {s : State} {k n count : Nat} {vs : List Nat} :
    s.readSamples k n count = some vs ↔
      vs.length = count ∧
        ∀ i, (h : i < vs.length) → s.memRead (s.sampleAddr k (n + i)) s.md.bytesPerSample = some vs[i] := by
  induction count generalizing n vs with
  | zero =>
    constructor
    · intro h; cases h; simp
    · rintro ⟨h, -⟩; cases List.length_eq_zero_iff.1 h; rfl
  | succ count ih =>
    rw [State.readSamples]
    constructor
    · intro h
      obtain ⟨v, hv, h⟩ := Option.bind_eq_some_iff.1 h
      obtain ⟨vs', h', rfl⟩ := Option.map_eq_some_iff.1 h
      obtain ⟨hl, hs⟩ := ih.1 h'
      refine ⟨by simp [hl], fun i hi => ?_⟩
      cases i with
      | zero => simpa using hv
      | succ i =>
        have := hs i (by simpa using hi)
        simpa [Nat.add_assoc, Nat.add_comm 1 i] using this
    · rintro ⟨hl, hs⟩
      cases vs with
      | nil => simp at hl
      | cons v vs =>
        have h0 := hs 0 (by simp)
        have ht : s.readSamples k (n + 1) count = some vs := ih.2 ⟨by simpa using hl, fun i hi => by
          have := hs (i + 1) (by simpa using hi)
          simpa [Nat.add_assoc, Nat.add_comm 1 i] using this⟩
        simp only [Nat.add_zero, List.getElem_cons_zero] at h0
        simp [h0, ht]

theorem State.readSamples_isSome {s : State} {k n count : Nat}
    (h : ∀ i < count, ∃ v, s.memRead (s.sampleAddr k (n + i)) s.md.bytesPerSample = some v) :
    ∃ vs, s.readSamples k n count = some vs := by
  induction count generalizing n with
  | zero => exact ⟨[], rfl⟩
  | succ count ih =>
    obtain ⟨v, hv⟩ := h 0 (by omega)
    obtain ⟨vs, hvs⟩ := ih (n := n + 1) fun i hi => by
      have := h (i + 1) (by omega)
      rwa [show n + (i + 1) = n + 1 + i by omega] at this
    exact ⟨v :: vs, by rw [State.readSamples]; simp only [Nat.add_zero] at hv; simp [hv, hvs]⟩

/-! ## No two samples share a byte (R83) -/

/-- A byte of the payload is byte `j` of slot `k` of frame `n` for one `n`, `k` and `j` only. -/
theorem State.sampleAddr_inj {s : State} {k k' n n' j j' : Nat} (hk : k < s.md.channelCount.toNat)
    (hk' : k' < s.md.channelCount.toNat) (hj : j < s.md.bytesPerSample) (hj' : j' < s.md.bytesPerSample)
    (h : s.sampleAddr k n + j = s.sampleAddr k' n' + j') : n = n' ∧ k = k' ∧ j = j' := by
  have flat (n k j : Nat) : s.sampleAddr k n + j =
      s.dataStart.toNat + ((n * s.md.channelCount.toNat + k) * s.md.bytesPerSample + j) := by
    simp only [State.sampleAddr, Metadata.frameBytes]; ring
  rw [flat, flat] at h
  have h' : (n * s.md.channelCount.toNat + k) * s.md.bytesPerSample + j =
      (n' * s.md.channelCount.toNat + k') * s.md.bytesPerSample + j' := by omega
  have split {q q' b r r' : Nat} (hr : r < b) (hr' : r' < b) (e : q * b + r = q' * b + r') : q = q' ∧ r = r' := by
    have hq : q = q' := by
      have h₁ := congrArg (· / b) e
      simpa [Nat.add_comm, Nat.add_mul_div_right _ _ (by omega : 0 < b), Nat.div_eq_of_lt hr, Nat.div_eq_of_lt hr'] using h₁
    subst hq
    exact ⟨rfl, by omega⟩
  obtain ⟨h₁, h₂⟩ := split hj hj' h'
  obtain ⟨h₃, h₄⟩ := split hk hk' h₁
  exact ⟨h₃, h₄, h₂⟩

/-- A frame of the payload ends inside it (R83). -/
theorem State.sampleAddr_end {s : State} {k n : Nat} (hk : k < s.md.channelCount.toNat) (hn : n < s.md.nFrames) :
    s.sampleAddr k n + s.md.bytesPerSample ≤ s.dataStart.toNat + s.md.audioLengthBytes.toNat := by
  have h1 : (n + 1) * s.md.frameBytes ≤ s.md.audioLengthBytes.toNat :=
    (Nat.mul_le_mul_right _ hn).trans (Nat.div_mul_le_self _ _)
  have h2 : (k + 1) * s.md.bytesPerSample ≤ s.md.frameBytes := Nat.mul_le_mul_right _ hk
  simp only [State.sampleAddr]
  rw [Nat.succ_mul] at h1 h2
  omega

/-! ## Queueing -/

/-- The byte writes of the samples `n, n + 1, ...` of slot `k`, in order. -/
def State.sampleWrites (s : State) (k : Nat) : Nat → List Nat → List Host.Cell
  | _, [] => []
  | n, v :: vs => sampleCells (s.sampleAddr k n) s.md.bytesPerSample v ++ s.sampleWrites k (n + 1) vs

@[simp] theorem sampleCells_length (a n v : Nat) : (sampleCells a n v).length = n := by simp [sampleCells]

theorem mem_sampleCells {a n v : Nat} {p : Host.Cell} :
    p ∈ sampleCells a n v ↔ ∃ j < n, p = (a + j, BitVec.ofNat 8 (v / 256 ^ j)) := by
  constructor
  · intro h
    obtain ⟨j, hj, rfl⟩ := List.getElem_of_mem h
    refine ⟨j, by simpa using hj, ?_⟩
    simp [sampleCells, leBytes_getElem]
  · rintro ⟨j, hj, rfl⟩
    have : (sampleCells a n v)[j]'(by simpa using hj) = (a + j, BitVec.ofNat 8 (v / 256 ^ j)) := by
      simp [sampleCells, leBytes_getElem]
    rw [← this]
    exact List.getElem_mem _

theorem State.mem_sampleWrites {s : State} {k n : Nat} {vs : List Nat} {p : Host.Cell} :
    p ∈ s.sampleWrites k n vs ↔ ∃ i, ∃ h : i < vs.length, ∃ j < s.md.bytesPerSample,
      p = (s.sampleAddr k (n + i) + j, BitVec.ofNat 8 (vs[i] / 256 ^ j)) := by
  induction vs generalizing n with
  | nil => simp [State.sampleWrites]
  | cons v vs ih =>
    rw [State.sampleWrites, List.mem_append, mem_sampleCells, ih]
    constructor
    · rintro (⟨j, hj, rfl⟩ | ⟨i, hi, j, hj, rfl⟩)
      · exact ⟨0, by simp, j, hj, by simp⟩
      · exact ⟨i + 1, by simpa using hi, j, hj, by simp [Nat.add_assoc, Nat.add_comm 1 i]⟩
    · rintro ⟨i, hi, j, hj, rfl⟩
      cases i with
      | zero => exact .inl ⟨j, hj, by simp⟩
      | succ i => exact .inr ⟨i, by simpa using hi, j, hj, by simp [Nat.add_assoc, Nat.add_comm 1 i]⟩

/-- The latest write to an address, where every write to it writes the same byte. -/
theorem lastWrite_eq_some {cells : List Host.Cell} {a : Nat} {b : Byte} (hm : (a, b) ∈ cells)
    (hu : ∀ p ∈ cells, p.1 = a → p.2 = b) : lastWrite cells a = some b := by
  induction cells with
  | nil => simp at hm
  | cons c cells ih =>
    obtain ⟨a', b'⟩ := c
    by_cases h : ∃ p ∈ cells, p.1 = a
    · obtain ⟨p, hp, hpa⟩ := h
      have hpb := hu p (by simp [hp]) hpa
      have : (a, b) ∈ cells := by rw [← hpa, ← hpb]; exact hp
      simp [lastWrite, ih this fun q hq => hu q (by simp [hq])]
    · have hn : lastWrite cells a = none := lastWrite_eq_none fun p hp hpa => h ⟨p, hp, hpa⟩
      have : (a, b) = (a', b') := by
        rcases List.mem_cons.1 hm with h' | h'
        · exact h'
        · exact absurd ⟨_, h', rfl⟩ h
      obtain ⟨rfl, rfl⟩ := Prod.mk.inj this
      simp [lastWrite, hn]

/-- The latest write of queued samples to an address: the byte of the sample that lies there, and none elsewhere. -/
theorem State.lastWrite_sampleWrites {s : State} {k n : Nat} {vs : List Nat} (hk : k < s.md.channelCount.toNat) :
    (∀ i, (h : i < vs.length) → ∀ j < s.md.bytesPerSample,
        lastWrite (s.sampleWrites k n vs) (s.sampleAddr k (n + i) + j) = some (BitVec.ofNat 8 (vs[i] / 256 ^ j))) ∧
      ∀ a, ¬ s.SampleByte k n vs.length a → lastWrite (s.sampleWrites k n vs) a = none := by
  constructor
  · intro i hi j hj
    refine lastWrite_eq_some (State.mem_sampleWrites.2 ⟨i, hi, j, hj, rfl⟩) fun p hp hpa => ?_
    obtain ⟨i', hi', j', hj', rfl⟩ := State.mem_sampleWrites.1 hp
    obtain ⟨h₁, -, h₂⟩ := State.sampleAddr_inj hk hk hj' hj hpa
    obtain rfl : i' = i := by omega
    rw [h₂]
  · intro a ha
    refine lastWrite_eq_none fun p hp hpa => ha ?_
    obtain ⟨i, hi, j, hj, rfl⟩ := State.mem_sampleWrites.1 hp
    exact ⟨i, hi, j, hj, hpa.symm⟩

/-- The loop of `CS.WRITE`, whole: a beginning of the pending and new writes is performed, the rest is pending; either nothing
was flushed or all that was pending before is. -/
theorem State.queueSamples_eq {s : State} {k cap n : Nat} {vs : List Nat} {m m' : Memory} {wb wb' : List Host.Cell}
    (h : s.queueSamples k cap n vs m wb = some (m', wb')) :
    ∃ pre, pre ++ wb' = wb ++ s.sampleWrites k n vs ∧ m.writeAll s.streamLen.toNat pre = some m' ∧
      (pre = [] ∨ wb <+: pre) := by
  induction vs generalizing n m wb with
  | nil =>
    simp only [State.queueSamples, Option.some.injEq, Prod.mk.injEq] at h
    obtain ⟨rfl, rfl⟩ := h
    exact ⟨[], by simp [State.sampleWrites], rfl, .inl rfl⟩
  | cons v vs ih =>
    simp only [State.queueSamples] at h
    split at h
    · obtain ⟨m₁, h₁, h₂⟩ := Option.bind_eq_some_iff.1 h
      obtain ⟨pre, hp, hw, -⟩ := ih h₂
      refine ⟨wb ++ pre, by rw [List.append_assoc, hp, State.sampleWrites], ?_, .inr (List.prefix_append _ _)⟩
      rw [Memory.writeAll_append, h₁]
      exact hw
    · obtain ⟨pre, hp, hw, hd⟩ := ih h
      refine ⟨pre, by rw [hp, State.sampleWrites, List.append_assoc], hw, hd.imp id fun hd => ?_⟩
      exact (List.prefix_append _ _).trans hd

/-- At most `cap` bytes stay pending, where one sample fits (R197). -/
theorem State.queueSamples_length {s : State} {k cap n : Nat} {vs : List Nat} {m m' : Memory} {wb wb' : List Host.Cell}
    (h : s.queueSamples k cap n vs m wb = some (m', wb')) (hb : s.md.bytesPerSample ≤ cap) (hw : wb.length ≤ cap) :
    wb'.length ≤ cap := by
  induction vs generalizing n m wb with
  | nil =>
    simp only [State.queueSamples, Option.some.injEq, Prod.mk.injEq] at h
    obtain ⟨rfl, rfl⟩ := h
    exact hw
  | cons v vs ih =>
    simp only [State.queueSamples] at h
    split at h
    · obtain ⟨m₁, h₁, h₂⟩ := Option.bind_eq_some_iff.1 h
      exact ih h₂ (by simpa using hb)
    · exact ih h (by simp; omega)

/-- The loop succeeds when every pending and new write can be performed. -/
theorem State.queueSamples_isSome {s : State} {k cap n : Nat} {vs : List Nat} {m : Memory} {wb : List Host.Cell}
    (h : ∀ p ∈ wb ++ s.sampleWrites k n vs, p.1 < s.streamLen.toNat ∧ (m.read p.1).isSome = true) :
    ∃ q, s.queueSamples k cap n vs m wb = some q := by
  induction vs generalizing n m wb with
  | nil => exact ⟨_, rfl⟩
  | cons v vs ih =>
    simp only [State.queueSamples]
    simp only [State.sampleWrites] at h
    split
    · obtain ⟨m₁, h₁⟩ := Memory.writeAll_isSome (limit := s.streamLen.toNat) (m := m) (cells := wb) fun p hp => h p (by simp [hp])
      rw [h₁]
      refine ih fun p hp => ?_
      have := h p (by simp only [List.mem_append] at hp ⊢; tauto)
      exact ⟨this.1, by rw [Memory.held_writeAll h₁]; exact this.2⟩
    · exact ih fun p hp => h p (by simp only [List.mem_append] at hp ⊢; tauto)

/-! ## The stream table -/

/-- A position looked up is found at the first slot that has it (R187). -/
theorem State.lookup_eq_some {s : State} {pos k : Nat} (h : s.lookup pos = some k) :
    ∃ c, s.streams[k]? = some c ∧ c.pos.toNat = pos := by
  obtain ⟨hk, hp, -⟩ := List.findIdx?_eq_some_iff_getElem.1 h
  exact ⟨s.streams[k], by simp [hk], by simpa using hp⟩

/-- What `findStream` answers when it finds a stream: all the checks of R180, R187 and R201 passed. -/
theorem State.findStream_eq_ok {s : State} {pos k : Nat} {c : ChannelStream} :
    s.findStream pos = .ok (k, c) ↔
      s.container = .opened ∧ s.built = true ∧ s.lookup pos = some k ∧ s.streams[k]? = some c ∧ c.closed = false := by
  unfold State.findStream State.streamCheck
  cases hc : s.container <;> cases hb : s.built <;> simp
  cases hl : s.lookup pos with
  | none => simp
  | some k' =>
    by_cases hkk : k' = k
    · subst hkk
      cases hk : s.streams[k']? with
      | none => simp [hk]
      | some c' =>
        by_cases hd : c'.closed = true <;> simp [hk, hd] <;> rintro rfl <;> simpa using hd
    · cases hk : s.streams[k']? with
      | none => simp [hk, hkk]
      | some c' => by_cases hd : c'.closed = true <;> simp [hk, hd, hkk]

/-- The latest pending write to an address that only slot `k` can have pending is that slot's. -/
theorem State.lastWrite_pending {s : State} {k a : Nat} {c : ChannelStream} (hk : s.streams[k]? = some c)
    (h : ∀ k' c', s.streams[k']? = some c' → k' ≠ k → ∀ p ∈ c'.wb, p.1 ≠ a) :
    lastWrite s.pending a = lastWrite c.wb a := by
  obtain ⟨hlt, rfl⟩ := List.getElem?_eq_some_iff.1 hk
  have split : s.streams = s.streams.take k ++ (s.streams[k] :: s.streams.drop (k + 1)) := by
    rw [← List.drop_eq_getElem_cons hlt, List.take_append_drop]
  have none_of {l : List ChannelStream} (hl : ∀ x ∈ l, ∀ p ∈ x.wb, p.1 ≠ a) : lastWrite (l.flatMap (·.wb)) a = none :=
    lastWrite_eq_none fun p hp => by
      obtain ⟨x, hx, hp⟩ := List.mem_flatMap.1 hp
      exact hl x hx p hp
  have h1 : lastWrite ((s.streams.take k).flatMap (·.wb)) a = none := none_of fun x hx => by
    obtain ⟨i, hi, rfl⟩ := List.getElem_of_mem hx
    have hi' : i < k := by simp at hi; omega
    exact h i _ (by simp [List.getElem_take]) (by omega)
  have h2 : lastWrite ((s.streams.drop (k + 1)).flatMap (·.wb)) a = none := none_of fun x hx => by
    obtain ⟨i, hi, rfl⟩ := List.getElem_of_mem hx
    have hi' : k + 1 + i < s.streams.length := by simp at hi; omega
    exact h (k + 1 + i) _ (by simp [List.getElem_drop, hi']) (by omega)
  have whole := congrArg (List.flatMap (·.wb)) split
  rw [List.flatMap_append, List.flatMap_cons] at whole
  rw [State.pending, whole, lastWrite_append, lastWrite_append, h1, h2]
  simp

end Sys2Proof.Machine
end

