-- ==== Sys2Proof/Laws/Commands.lean ====
section
/-! SUPPORT. What each command can do, said once: every next state of a command, with the condition under which it is reached.
A proof about commands takes these cases and never unfolds a meaning. -/

namespace Sys2Proof.Machine

/-- An error end, in the terms of the claims. -/
theorem State.accept_raise (s : State) (n m : Nat) (e : ErrorCode) :
    (s.accept n m).raise e = s.endsIn n m e.code.toNat := by cases e <;> rfl

/-- An `OK` end, in the terms of the claims. -/
theorem State.accept_respond (s : State) (n m : Nat) (ws : List Word) : (s.accept n m).respond ws = s.endsOk n m ws := rfl

theorem ErrorCode.code_pos (e : ErrorCode) : 1 ≤ e.code.toNat ∧ e.code.toNat ≤ 8 := by cases e <;> decide

theorem nextOrFault_eq_next {o : Option State} {t : State} : nextOrFault o = .next t ↔ o = some t := by
  cases o <;> simp [nextOrFault]

theorem nextOrFault_eq_fault {o : Option State} {r : Fault} : nextOrFault o = .fault r ↔ o = none := by
  cases o <;> cases r <;> simp [nextOrFault]

theorem nextOrFault_ne_refused {o : Option State} {r : Refusal} : nextOrFault o ≠ .refused r := by
  cases o <;> simp [nextOrFault]

/-- What the block reads from the stream depends on the stream and the pending writes alone. -/
theorem State.bytesAt_congr {s t : State} (h : ∀ a, t.byteAt a = s.byteAt a) (a n : Nat) : t.bytesAt a n = s.bytesAt a n := by
  induction n generalizing a with
  | zero => rfl
  | succ n ih => simp only [State.bytesAt, h, ih]

/-! ## Header parser -/

theorem execHpParse_eq (len : Nat) (s : State) : execHpParse len s =
    if s.container = .opened then .next (s.endsIn 3 0 8)
    else if s.present = false then .next (s.endsIn 3 0 6).noContainer
    else if Config.maxStreamLen < len then .next (s.endsIn 3 0 5).noContainer
    else match s.bytesAt 0 (min Config.winBytes len) with
      | none => .fault .streamTransfer
      | some w => match parseHeader Config.params w len with
        | .error e => .next { (s.endsIn 3 0 1).noContainer with
            streamLen := BitVec.ofNat 32 len, win := w,
            reasons := s.reasons ++ (Config.parseReason e w len).toList }
        | .ok h => .next { s.endsOk 3 0 h.md.words with
            container := .opened, streamLen := BitVec.ofNat 32 len, win := w, md := h.md, explMask := h.explMask,
            dataStart := h.dataStart, resolved := false, built := false, streams := [] } := by
  unfold execHpParse
  have hb : (s.accept 3 0).bytesAt 0 (min Config.winBytes len) = s.bytesAt 0 (min Config.winBytes len) :=
    State.bytesAt_congr (s := s) (t := s.accept 3 0) (fun _ => rfl) _ _
  simp only [State.accept_container, State.accept_present, State.loadWindow, hb]
  split
  · rfl
  split
  · rfl
  split
  · rfl
  cases s.bytesAt 0 (min Config.winBytes len) with
  | none => rfl
  | some w =>
    simp only [Option.map_some, nextOrFault, State.finishParse]
    cases parseHeader Config.params w len <;> rfl

theorem execHpResolve_eq (s : State) : execHpResolve s =
    match s.container with
    | .disposed => .next (s.endsIn 1 0 7)
    | .closed => .next (s.endsIn 1 0 8)
    | .opened => match resolveMask Config.params s.md.channelCount.toNat s.explMask with
      | none => .next { s.endsIn 1 0 1 with
          container := .closed, resolved := false,
          reasons := s.reasons ++ (Config.resolveReason s.md.channelCount.toNat).toList }
      | some r => .next { s.endsOk 1 0 r.words with rm := r, resolved := true } := by
  unfold execHpResolve
  simp only [State.accept_container, State.accept_md, State.accept_explMask]
  cases s.container
  · rfl
  · cases resolveMask Config.params s.md.channelCount.toNat s.explMask <;> rfl
  · rfl

/-! ## Channel streams -/

theorem encode_csBuild_length (own : Bool) (cap : Option Nat) :
    (encode (.csBuild own cap)).length = if cap.isSome then 2 else 1 := by cases cap <;> rfl

/-- `CS.BUILD` of an open container, every case: a rebuild is one flush of the open streams' pending writes before the new
table. -/
theorem execCsBuild_eq (own : Bool) (cap : Option Nat) {s : State} (ho : s.container = .opened) : execCsBuild own cap s =
    let n := (encode (.csBuild own cap)).length
    let table := s.rm.positions.map (ChannelStream.fresh (buildCap cap) own)
    if s.resolved = false then .next (s.endsIn n 0 8)
    else if (buildCap cap).toNat < Config.minCap then .next (s.endsIn n 0 2)
    else if s.built = true then
      match s.stream.writeAll s.streamLen.toNat (s.streams.flatMap ChannelStream.openWb) with
      | none => .fault .streamTransfer
      | some m => .next { s.endsOk n 0 [BitVec.ofNat 32 table.length] with
          built := true, stream := m, streams := table,
          releases := s.releases ++ (List.range s.streams.length).filter s.releasable }
    else .next { s.endsOk n 0 [BitVec.ofNat 32 table.length] with built := true, streams := table } := by
  unfold execCsBuild
  rw [encode_csBuild_length]
  conv_lhs => simp only [State.accept_container, ho]
  simp only []
  by_cases hr : s.resolved = false
  · exact (if_pos hr).trans (if_pos hr).symm
  refine (if_neg hr).trans (Eq.trans ?_ (if_neg hr).symm)
  by_cases hc : (buildCap cap).toNat < Config.minCap
  · exact (if_pos hc).trans (if_pos hc).symm
  refine (if_neg hc).trans (Eq.trans ?_ (if_neg hc).symm)
  by_cases hb : s.built = true
  · refine Eq.trans ?_ (if_pos hb).symm
    have old (n : Nat) : (s.accept n 0).closeOld = (s.accept n 0).closeAll := if_pos hb
    rw [old, State.closeAll_eq, State.accept_stream, State.accept_streamLen, State.accept_streams]
    cases s.stream.writeAll s.streamLen.toNat (s.streams.flatMap ChannelStream.openWb) <;> rfl
  · refine Eq.trans ?_ (if_neg hb).symm
    have old (n : Nat) : (s.accept n 0).closeOld = some (s.accept n 0) := if_neg hb
    rw [old]
    rfl

theorem execCsBuild_refused (own : Bool) (cap : Option Nat) {s : State} (ho : s.container ≠ .opened) :
    execCsBuild own cap s =
      .next (s.endsIn (encode (.csBuild own cap)).length 0 (if s.container = .disposed then 7 else 8)) := by
  unfold execCsBuild
  rw [encode_csBuild_length]
  cases hc : s.container with
  | closed => simp only [State.accept_container, hc]; exact congrArg Host.Outcome.next (State.accept_raise s _ _ .illegalCommand)
  | opened => exact absurd hc ho
  | disposed => simp only [State.accept_container, hc]; exact congrArg Host.Outcome.next (State.accept_raise s _ _ .disposed)

theorem execCsEnum_eq (s : State) : execCsEnum s =
    match s.streamCheck with
    | some e => .next (s.endsIn 1 0 e.code.toNat)
    | none => .next (s.endsOk 1 0 s.enumWords) := by
  unfold execCsEnum
  have h : (s.accept 1 0).streamCheck = s.streamCheck := rfl
  simp only [h]
  cases s.streamCheck with
  | none => rfl
  | some e => simp only [State.accept_raise]

theorem State.readSamples_congr {s t : State} (hb : ∀ a, t.byteAt a = s.byteAt a) (hl : t.streamLen = s.streamLen)
    (hm : t.md = s.md) (hd : t.dataStart = s.dataStart) (k n count : Nat) :
    t.readSamples k n count = s.readSamples k n count := by
  induction count generalizing n with
  | zero => rfl
  | succ count ih =>
    have hmem (a n : Nat) : t.memRead a n = s.memRead a n := by
      simp only [State.memRead, hl, State.bytesAt_congr hb]
    simp only [State.readSamples, State.sampleAddr, hm, hd, hmem, ih]

theorem execCsRead_eq (pos count : Nat) (s : State) : execCsRead pos count s =
    match s.findStream pos with
    | .error e => .next (s.endsIn 2 0 e.code.toNat)
    | .ok (k, c) =>
      if s.md.channelCount.toNat ≤ k then .refused .extraStream
      else if s.remaining c < count then .next (s.endsIn 2 0 4)
      else match s.readSamples k c.cursor.toNat count with
        | none => .fault .streamTransfer
        | some vs => .next { s.endsOk 2 0 (wordsOfRaws (rawWidth s.md.bytesPerSample) vs) with
            streams := s.streams.set k (c.advance count) } := by
  unfold execCsRead
  have h : (s.accept 2 0).findStream pos = s.findStream pos := rfl
  have hr (k n c : Nat) : (s.accept 2 0).readSamples k n c = s.readSamples k n c :=
    State.readSamples_congr (s := s) (t := s.accept 2 0) (fun _ => rfl) rfl rfl rfl _ _ _
  simp only [h]
  cases s.findStream pos with
  | error e => simp only [State.accept_raise]
  | ok p =>
    obtain ⟨k, c⟩ := p
    simp only [State.accept_md, hr]
    split
    · rfl
    · have hm : (s.accept 2 0).remaining c = s.remaining c := rfl
      simp only [hm]
      split
      · rfl
      · cases s.readSamples k c.cursor.toNat count <;> rfl

theorem State.queueSamples_congr {s t : State} (hl : t.streamLen = s.streamLen) (hm : t.md = s.md)
    (hd : t.dataStart = s.dataStart) (k cap n : Nat) (vs : List Nat) (m : Memory) (wb : List Host.Cell) :
    t.queueSamples k cap n vs m wb = s.queueSamples k cap n vs m wb := by
  induction vs generalizing n m wb with
  | nil => rfl
  | cons v vs ih => simp only [State.queueSamples, State.sampleAddr, hl, hm, hd, ih]

/-- `CS.WRITE` with its buffer there and a stream found (the container is then open). -/
theorem execCsWrite_eq {pos len : Nat} {s : State} (hr : s.Ready (.csWrite pos len)) : execCsWrite pos len s =
    let n := s.rawWords * len
    let vs := rawsOfWords s.rawWords len s.bufIn
    match s.findStream pos with
    | .error e => .next { s.endsIn 2 n e.code.toNat with draws := if s.container = .closed then s.draws + 1 else s.draws }
    | .ok (k, c) =>
      if vs.any fun v => decide (2 ^ (8 * s.md.bytesPerSample) ≤ v) then .next (s.endsIn 2 n 2)
      else if s.md.channelCount.toNat ≤ k then .refused .extraStream
      else if s.remaining c < len then .refused .writePastPayload
      else match (s.queueSamples k c.cap.toNat c.cursor.toNat vs s.stream c.wb).bind fun q =>
          flushIf (Config.earlyFlush s.draws) s.streamLen.toNat q.1 q.2 with
        | none => .fault .streamTransfer
        | some (m, wb) => .next { s.endsOk 2 n [] with
            stream := m, streams := s.streams.set k { c.advance len with wb := wb }, draws := s.draws + 1 } := by
  unfold execCsWrite
  rw [if_neg (by simpa [State.bufferWords] using hr)]
  have hm (c : ChannelStream) : (s.accept 2 (s.rawWords * len)).remaining c = s.remaining c := rfl
  have hq (k cap n : Nat) (vs : List Nat) (m : Memory) (wb : List Host.Cell) :
      (s.accept 2 (s.rawWords * len)).queueSamples k cap n vs m wb = s.queueSamples k cap n vs m wb :=
    State.queueSamples_congr (s := s) (t := s.accept 2 (s.rawWords * len)) rfl rfl rfl _ _ _ _ _ _
  have hf : (s.accept 2 (s.rawWords * len)).findStream pos = s.findStream pos := rfl
  have hfd : ((s.accept 2 (s.rawWords * len)).draw 1).findStream pos = s.findStream pos := rfl
  by_cases hcl : s.container = .closed
  · have he : s.findStream pos = .error .illegalCommand := by simp [State.findStream, State.streamCheck, hcl]
    conv_lhs => simp only [State.accept_container, hcl, if_true, State.finishWrite, hfd, he]
    simp only [he, if_pos hcl]
    rfl
  · simp only [if_neg hcl, State.finishWrite, hf]
    cases s.findStream pos with
    | error e => simp only [State.accept_raise]
    | ok p =>
      obtain ⟨k, c⟩ := p
      simp only [State.accept_md, rawsOfWords_length, hm, State.writeSamples, hq, State.accept_stream,
        State.accept_streamLen, State.accept_draws]
      by_cases h1 : ((rawsOfWords s.rawWords len s.bufIn).any fun v => decide (2 ^ (8 * s.md.bytesPerSample) ≤ v)) = true
      · exact (if_pos h1).trans (Eq.trans (congrArg Host.Outcome.next (State.accept_raise s 2 _ .argumentRange)) (if_pos h1).symm)
      refine (if_neg h1).trans (Eq.trans ?_ (if_neg h1).symm)
      by_cases h2 : s.md.channelCount.toNat ≤ k
      · exact (if_pos h2).trans (if_pos h2).symm
      refine (if_neg h2).trans (Eq.trans ?_ (if_neg h2).symm)
      by_cases h3 : s.remaining c < len
      · exact (if_pos h3).trans (if_pos h3).symm
      refine (if_neg h3).trans (Eq.trans ?_ (if_neg h3).symm)
      cases s.queueSamples k c.cap.toNat c.cursor.toNat (rawsOfWords s.rawWords len s.bufIn) s.stream c.wb with
      | none => rfl
      | some q =>
        simp only [Option.bind_some]
        cases flushIf (Config.earlyFlush s.draws) s.streamLen.toNat q.1 q.2 <;> rfl

theorem execCsWrite_waits {pos len : Nat} {s : State} (hr : ¬ s.Ready (.csWrite pos len)) : execCsWrite pos len s = .next s := by
  unfold execCsWrite
  rw [if_pos (by simpa [State.bufferWords] using hr)]

theorem execCsClose_eq (pos : Nat) (s : State) : execCsClose pos s =
    if s.container = .closed ∨ s.built = false then .next (s.endsIn 1 0 8)
    else match s.lookup pos with
      | none => .next (s.endsIn 1 0 3)
      | some k => match s.streams[k]? with
        | none => .next (s.endsOk 1 0 [])
        | some c => match s.stream.writeAll s.streamLen.toNat c.openWb with
          | none => .fault .streamTransfer
          | some m => .next { s.endsOk 1 0 [] with
              stream := m, streams := s.streams.set k c.shut,
              releases := if c.own && !c.closed then s.releases ++ [k] else s.releases } := by
  unfold execCsClose
  have h : (s.accept 1 0).lookup pos = s.lookup pos := rfl
  simp only [State.accept_container, State.accept_built, h]
  split
  · rfl
  cases s.lookup pos with
  | none => rfl
  | some k =>
    simp only
    cases hk : s.streams[k]? with
    | none => simp [State.closeStream, hk, nextOrFault, State.accept_respond]
    | some c =>
      have hk' : (s.accept 1 0).streams[k]? = some c := hk
      rw [State.closeStream_eq hk']
      simp only [State.accept_stream, State.accept_streamLen]
      cases s.stream.writeAll s.streamLen.toNat c.openWb <;> rfl

theorem execCsDispose_eq (s : State) : execCsDispose s =
    if s.container = .opened then
      match s.stream.writeAll s.streamLen.toNat (s.streams.flatMap ChannelStream.openWb) with
      | none => .fault .streamTransfer
      | some m => .next { s.endsOk 1 0 [] with
          container := .disposed, stream := m, streams := s.streams.map ChannelStream.shut,
          releases := s.releases ++ (List.range s.streams.length).filter s.releasable }
    else .next (s.endsOk 1 0 []) := by
  unfold execCsDispose
  simp only [State.accept_container]
  cases s.container <;> try rfl
  simp only [if_true, State.closeAll_eq, State.accept_stream, State.accept_streamLen, State.accept_streams]
  cases s.stream.writeAll s.streamLen.toNat (s.streams.flatMap ChannelStream.openWb) <;> rfl

/-! ## Filters -/

theorem execFsBind_eq (stage : Nat) (kind : FilterKind) (fs fc : Num64) (s : State) : execFsBind stage kind fs fc s =
    match s.stages[stage]? with
    | none => .next (s.endsIn 5 0 2)
    | some g => .next { s.endsOk 5 0 [] with
        stages := s.stages.set stage (g.bind (boundCoef kind fs fc s.draws)), draws := s.draws + boundDraws fs fc } := by
  unfold execFsBind State.bindStage
  simp only [State.accept_stages, State.accept_draws]
  cases s.stages[stage]? <;> rfl

/-- `FS.STEP` and `FS.RUN` once their words are taken. -/
theorem State.runStage_eq (s : State) (n m stage : Nat) (xs : List Num64) : (s.accept n m).runStage stage xs =
    match s.stages[stage]? with
    | none => s.endsIn n m 2
    | some g => match g.coef? with
      | none => s.endsIn n m 8
      | some c =>
        let r := biquadRun binary64At c s.draws g.hist xs
        { s.endsOk n m (wordsOfNums r.1) with
          stages := s.stages.set stage (g.ran c r.2 xs.length), draws := s.draws + xs.length } := by
  unfold State.runStage
  simp only [State.accept_stages, State.accept_draws]
  cases s.stages[stage]? with
  | none => rfl
  | some g => simp only; cases g.coef? <;> rfl

theorem execFsStep_eq (stage : Nat) (x : Num64) (s : State) :
    execFsStep stage x s = .next ((s.accept 3 0).runStage stage [x]) := rfl

theorem execFsRun_eq {stage len : Nat} {s : State} (hr : s.Ready (.fsRun stage len)) :
    execFsRun stage len s = .next ((s.accept 2 (2 * len)).runStage stage (numsOfWords len s.bufIn)) := by
  unfold execFsRun
  rw [if_neg (by simpa [State.bufferWords] using hr)]

theorem execFsRun_waits {stage len : Nat} {s : State} (hr : ¬ s.Ready (.fsRun stage len)) :
    execFsRun stage len s = .next s := by
  unfold execFsRun
  rw [if_pos (by simpa [State.bufferWords] using hr)]

theorem execXfInit_eq (f : Nat) (kind : FilterKind) (fs : Num64) (s : State) : execXfInit f kind fs s =
    if s.xovers.length ≤ f then .next (s.endsIn 3 0 2)
    else if numPositive fs = false then .next (s.endsIn 3 0 2)
    else .next { s.endsOk 3 0 [] with
      xovers := s.xovers.set f ⟨true, kind, fs⟩
      stages := (s.stages.set (2 * f) Stage.fresh).set (2 * f + 1) Stage.fresh } := by
  unfold execXfInit State.initXover
  simp only [State.accept_xovers]
  by_cases h1 : s.xovers.length ≤ f
  · simp only [h1, if_true]; rfl
  by_cases h2 : numPositive fs = false
  · simp only [h1, h2, if_true, if_false]; rfl
  simp only [h1, h2, if_false]
  rfl

theorem execXfApply_eq {f len : Nat} {fc : Num64} {s : State} (hr : s.Ready (.xfApply f fc len)) : execXfApply f fc len s =
    match s.xovers[f]?, s.stages[2 * f]?, s.stages[2 * f + 1]? with
    | some x, some g1, some g2 =>
      if x.inited then
        let c := boundCoef x.kind x.fs fc s.draws
        let xs := numsOfWords len s.bufIn
        let r := cascadeRun binary64At c (s.draws + boundDraws x.fs fc) g1.hist g2.hist xs
        .next { s.endsOk 4 (2 * len) (wordsOfNums r.1) with
          stages := (s.stages.set (2 * f) ((g1.bind c).ran c r.2.1 len)).set (2 * f + 1) ((g2.bind c).ran c r.2.2 len)
          draws := s.draws + boundDraws x.fs fc + 2 * len }
      else .next (s.endsIn 4 (2 * len) 8)
    | _, _, _ => .next (s.endsIn 4 (2 * len) 2) := by
  unfold execXfApply
  rw [if_neg (by simpa [State.bufferWords] using hr)]
  unfold State.applyXover
  simp only [State.accept_xovers, State.accept_stages, State.accept_draws]
  cases s.xovers[f]? with
  | none => rfl
  | some x =>
    cases s.stages[2 * f]? with
    | none => rfl
    | some g1 =>
      cases s.stages[2 * f + 1]? with
      | none => rfl
      | some g2 =>
        simp only
        split
        · simp only [State.applyStages, numsOfWords_length, State.draw, State.setStage, State.accept]
          rfl
        · exact congrArg Host.Outcome.next (State.accept_raise s 4 (2 * len) .illegalCommand)

theorem execXfApply_waits {f len : Nat} {fc : Num64} {s : State} (hr : ¬ s.Ready (.xfApply f fc len)) :
    execXfApply f fc len s = .next s := by
  unfold execXfApply
  rw [if_pos (by simpa [State.bufferWords] using hr)]

end Sys2Proof.Machine
end

