-- ==== Sys2Proof/Laws/Decode.lean ====
section
/-! SUPPORT. What a command word written by the encoder reads as: its row, its index field and its two flag bits (R119, R120). -/

namespace Sys2Proof.Machine

/-- The command words whose index is a field: the row selected and the index read back, for every index of 8 bits. -/
theorem commandWord_idx (idx : Nat) (h : idx < 256) :
    ∀ p ∈ ([(0x12, .csRead), (0x13, .csWrite), (0x14, .csClose), (0x21, .fsStep), (0x22, .fsRun), (0x31, .xfApply)] :
        List (BitVec 8 × Opc)),
      selectOpc (commandWord p.1 idx false false) = some p.2 ∧ idxField (commandWord p.1 idx false false) = idx := by
  have all : ∀ i : Fin 256, ∀ p ∈ ([(0x12, .csRead), (0x13, .csWrite), (0x14, .csClose), (0x21, .fsStep), (0x22, .fsRun),
      (0x31, .xfApply)] : List (BitVec 8 × Opc)),
      selectOpc (commandWord p.1 i.val false false) = some p.2 ∧ idxField (commandWord p.1 i.val false false) = i.val := by
    decide +kernel
  exact all ⟨idx, h⟩

/-- The command words that name a kind as well. -/
theorem commandWord_kind (idx : Nat) (h : idx < 256) (b : Bool) :
    ∀ p ∈ ([(0x20, .fsBind), (0x30, .xfInit)] : List (BitVec 8 × Opc)),
      selectOpc (commandWord p.1 idx false b) = some p.2 ∧ idxField (commandWord p.1 idx false b) = idx ∧
        flagField (commandWord p.1 idx false b) = b := by
  have all : ∀ i : Fin 256, ∀ b, ∀ p ∈ ([(0x20, .fsBind), (0x30, .xfInit)] : List (BitVec 8 × Opc)),
      selectOpc (commandWord p.1 i.val false b) = some p.2 ∧ idxField (commandWord p.1 i.val false b) = i.val ∧
        flagField (commandWord p.1 i.val false b) = b := by
    decide +kernel
  exact all ⟨idx, h⟩ b

/-- The command word of `CS.BUILD`. -/
theorem commandWord_build : ∀ capv own, selectOpc (commandWord 0x10 0 capv own) = some .csBuild ∧
    capvField (commandWord 0x10 0 capv own) = capv ∧ flagField (commandWord 0x10 0 capv own) = own := by decide

@[simp] theorem kindOfFlag_flagOfKind (k : FilterKind) : kindOfFlag (flagOfKind k) = k := by cases k <;> rfl

@[simp] theorem flagOfKind_kindOfFlag (b : Bool) : flagOfKind (kindOfFlag b) = b := by cases b <;> rfl

/-- The word a row selects has the row's pattern under the row's mask. -/
theorem selectOpc_eq_some {w : Word} {o : Opc} (h : selectOpc w = some o) :
    ∃ r ∈ opcTable, r.opc = o ∧ w &&& r.mask = r.pattern := by
  obtain ⟨r, hr, rfl⟩ := Option.map_eq_some_iff.1 h
  exact ⟨r, List.mem_of_find?_eq_some hr, rfl, by simpa [OpcRow.selects] using List.find?_some hr⟩

end Sys2Proof.Machine
end

