-- ==== Sys2Proof/Laws/Filters.lean ====
section
/-! SUPPORT. What a stage and a cascade do with a buffer, said once: the outputs solve the difference equation, and the history
left is the last two inputs and outputs. -/

namespace Sys2Proof.Machine

/-- A NaN drawn is a NaN (U8). -/
theorem nanOf_isNaN (bits : Num64) : numIsNaN (nanOf bits) = true := by
  have frac : ∃ f : Nat, 1 ≤ f ∧ f < 2 ^ 52 ∧ nanOf bits = numPack (numSign bits) (infPattern + f) := by
    unfold nanOf
    split
    · exact ⟨1, by omega, by omega, rfl⟩
    · exact ⟨numFrac bits, by omega, BitVec.isLt _, rfl⟩
  obtain ⟨f, h1, h2, e⟩ := frac
  have he : infPattern = 2047 * 2 ^ 52 := rfl
  rw [e, numIsNaN, numExp, numFrac, numPack, he]
  simp only [BitVec.extractLsb'_toNat, BitVec.toNat_ofNat, Nat.shiftRight_eq_div_pow]
  have a1 : (2047 * 2 ^ 52 + f + if numSign bits = true then 2 ^ 63 else 0) % 2 ^ 64 / 2 ^ 52 % 2 ^ 11 = 2047 := by
    split <;> omega
  have a2 : (2047 * 2 ^ 52 + f + if numSign bits = true then 2 ^ 63 else 0) % 2 ^ 64 / 2 ^ 0 % 2 ^ 52 = f := by
    split <;> omega
  rw [a1, a2]
  simp
  omega

/-- One sample in front shifts the index by one. -/
theorem getD_shift (a b c : Num64) (l : List Num64) (i k : Nat) (hk : k ≤ 2) :
    (a :: b :: c :: l).getD (i + 1 + 2 - k) 0 = (b :: c :: l).getD (i + 2 - k) 0 := by
  rw [show i + 1 + 2 - k = (i + 2 - k) + 1 by omega]
  rfl

/-- Outputs of a buffer from outputs of its tail: the first sample computed, the rest from the pushed history. -/
theorem StageOutputs.cons {c : Coef Num64} {h : History Num64} {x : Num64} {xs ys : List Num64} (d : Nat)
    (hs : StageOutputs c (h.push x (biquadOut (binary64At d) c h x)) xs ys) :
    StageOutputs c h (x :: xs) (biquadOut (binary64At d) c h x :: ys) := by
  refine ⟨by simp [hs.1], fun i hi => ?_⟩
  cases i with
  | zero => exact ⟨nanOf (Config.freeNaNBits d), nanOf_isNaN _, rfl⟩
  | succ i =>
    obtain ⟨nan, hn, he⟩ := hs.2 i (by simpa using hi)
    refine ⟨nan, hn, ?_⟩
    simp only at he ⊢
    simp only [getD_shift _ _ _ _ _ 0 (by omega), getD_shift _ _ _ _ _ 1 (by omega), getD_shift _ _ _ _ _ 2 (by omega)]
    exact he

/-- One stage over a buffer. -/
theorem biquadRun_outputs (c : Coef Num64) (d : Nat) (h : History Num64) (xs : List Num64) :
    StageOutputs c h xs (biquadRun binary64At c d h xs).1 ∧
      (biquadRun binary64At c d h xs).2 = historyAfter h xs (biquadRun binary64At c d h xs).1 := by
  induction xs generalizing d h with
  | nil => exact ⟨⟨rfl, by simp⟩, by simp [biquadRun, historyAfter]⟩
  | cons x xs ih =>
    obtain ⟨h1, h2⟩ := ih (d + 1) (h.push x (biquadOut (binary64At d) c h x))
    refine ⟨h1.cons d, ?_⟩
    simp only [biquadRun]
    rw [h2]
    rfl

/-- Two stages in cascade: the outputs of the first are the inputs of the second. -/
theorem cascadeRun_outputs (c : Coef Num64) (d : Nat) (h1 h2 : History Num64) (xs : List Num64) :
    ∃ us, StageOutputs c h1 xs us ∧ StageOutputs c h2 us (cascadeRun binary64At c d h1 h2 xs).1 ∧
      (cascadeRun binary64At c d h1 h2 xs).2.1 = historyAfter h1 xs us ∧
      (cascadeRun binary64At c d h1 h2 xs).2.2 = historyAfter h2 us (cascadeRun binary64At c d h1 h2 xs).1 := by
  induction xs generalizing d h1 h2 with
  | nil => exact ⟨[], ⟨rfl, by simp⟩, ⟨rfl, by simp⟩, by simp [cascadeRun, historyAfter], by simp [cascadeRun, historyAfter]⟩
  | cons x xs ih =>
    obtain ⟨us, a, b, e1, e2⟩ := ih (d + 2) (h1.push x (biquadOut (binary64At d) c h1 x))
      (h2.push (biquadOut (binary64At d) c h1 x) (biquadOut (binary64At (d + 1)) c h2 (biquadOut (binary64At d) c h1 x)))
    refine ⟨biquadOut (binary64At d) c h1 x :: us, a.cons d, b.cons (d + 1), ?_, ?_⟩
    · simp only [cascadeRun]; rw [e1]; rfl
    · simp only [cascadeRun]; rw [e2]; rfl

/-- A bind, in the terms of the claims. -/
theorem Stage.bind_eq (g : Stage) (c : Coef Num64) : g.bind c = stageBound g c := by
  obtain ⟨p, h⟩ := g
  cases p <;> rfl

/-- A stage is `CONSTRUCTED` exactly when it has no coefficients (R54). -/
theorem Stage.st_eq_zero (g : Stage) : g.st = 0 ↔ g.coef? = none := by
  obtain ⟨p, h⟩ := g
  cases p <;> simp [Stage.st, Stage.coef?]

end Sys2Proof.Machine
end

