-- ==== Sys2Proof/Laws/Form.lean ====
section
/-! SUPPORT. The external stream keeps its canonical form: it has it at reset, and every operation over it that answers keeps
it. -/

namespace Sys2Proof.Machine

theorem State.reset_stream_wf : State.reset.stream.wf = true := rfl

theorem flushIf_eq_some {flush : Bool} {limit : Nat} {m : Memory} {wb : List Host.Cell} {q : Memory × List Host.Cell}
    (h : flushIf flush limit m wb = some q) :
    (flush = true ∧ q.2 = [] ∧ m.writeAll limit wb = some q.1) ∨ (flush = false ∧ q = (m, wb)) := by
  cases flush with
  | false => exact .inr ⟨rfl, (Option.some.inj h).symm⟩
  | true =>
    obtain ⟨m', hm, rfl⟩ := Option.map_eq_some_iff.1 h
    exact .inl ⟨rfl, rfl, hm⟩

theorem wf_flushIf {flush : Bool} {limit : Nat} {m : Memory} {wb : List Host.Cell} {q : Memory × List Host.Cell}
    (h : flushIf flush limit m wb = some q) : q.1.wf = m.wf := by
  rcases flushIf_eq_some h with ⟨-, -, h⟩ | ⟨-, rfl⟩
  · exact Memory.wf_writeAll h
  · rfl

theorem State.wf_queueSamples {s : State} {k cap n : Nat} {vs : List Nat} {m : Memory} {wb : List Host.Cell}
    {q : Memory × List Host.Cell} (h : s.queueSamples k cap n vs m wb = some q) : q.1.wf = m.wf := by
  obtain ⟨pre, -, hw, -⟩ := State.queueSamples_eq (m' := q.1) (wb' := q.2) h
  exact Memory.wf_writeAll hw

theorem State.wf_writeSamples {s t : State} {k : Nat} {c : ChannelStream} {vs : List Nat} {flush : Bool}
    (h : s.writeSamples k c vs flush = some t) : t.stream.wf = s.stream.wf := by
  obtain ⟨q, hq, h⟩ := Option.bind_eq_some_iff.1 h
  obtain ⟨r, hr, rfl⟩ := Option.map_eq_some_iff.1 h
  exact (wf_flushIf hr).trans (State.wf_queueSamples hq)

theorem State.wf_closeStream {s t : State} {k : Nat} (h : s.closeStream k = some t) : t.stream.wf = s.stream.wf := by
  cases hk : s.streams[k]? with
  | none =>
    rw [State.closeStream, hk] at h
    exact congrArg (fun u : State => u.stream.wf) (Option.some.inj h).symm
  | some c =>
    rw [State.closeStream_eq hk] at h
    obtain ⟨m, hm, rfl⟩ := Option.map_eq_some_iff.1 h
    exact Memory.wf_writeAll hm

theorem State.wf_closeAll {s t : State} (h : s.closeAll = some t) : t.stream.wf = s.stream.wf := by
  rw [State.closeAll_eq] at h
  obtain ⟨m, hm, rfl⟩ := Option.map_eq_some_iff.1 h
  exact Memory.wf_writeAll hm

end Sys2Proof.Machine
end

