-- ==== Sys2Proof/Laws/Header.lean ====
section
/-! SUPPORT. What the parts of the header parser answer, said once. -/

namespace Sys2Proof.Machine

/-- A parser step answers when its parts do. -/
theorem except_bind_eq_ok {ε α β : Type} {x : Except ε α} {f : α → Except ε β} {b : β} :
    (x >>= f) = .ok b ↔ ∃ a, x = .ok a ∧ f a = .ok b := by
  cases x <;> simp [bind, Except.bind]

/-- The scan from offset `p`: the first place where the four bytes lie, or none where they lie nowhere. -/
theorem findFrom_spec {pat : List Byte} (hp : pat.length = 4) (l : List Byte) (p : Nat) :
    (∀ r, findFrom pat l p = some r →
      p ≤ r ∧ (l.drop (r - p)).take 4 = pat ∧ ∀ o, p ≤ o → o < r → (l.drop (o - p)).take 4 ≠ pat) ∧
    (findFrom pat l p = none → ∀ o, (l.drop o).take 4 ≠ pat) := by
  induction l generalizing p with
  | nil =>
    refine ⟨fun r h => by simp [findFrom] at h, fun _ o h => ?_⟩
    rw [← h] at hp
    simp at hp
  | cons b bs ih =>
    have hpre : pat.isPrefixOf (b :: bs) = true ↔ (b :: bs).take 4 = pat := by
      rw [List.isPrefixOf_iff_prefix, List.prefix_iff_eq_take, hp, eq_comm]
    obtain ⟨i1, i2⟩ := ih (p + 1)
    simp only [findFrom]
    by_cases h : pat.isPrefixOf (b :: bs) = true
    · simp only [h, if_true]
      refine ⟨?_, nofun⟩
      rintro r ⟨⟩
      exact ⟨Nat.le_refl _, by simpa using hpre.1 h, fun o h1 h2 => by omega⟩
    · simp only [h]
      refine ⟨fun r hr => ?_, fun hn o => ?_⟩
      · obtain ⟨h1, h2, h3⟩ := i1 r (by simpa using hr)
        refine ⟨by omega, ?_, fun o ho hor => ?_⟩
        · rw [show r - p = (r - (p + 1)) + 1 by omega]
          simpa using h2
        · by_cases e : o = p
          · subst e
            simpa using fun h' => h (hpre.2 h')
          · rw [show o - p = (o - (p + 1)) + 1 by omega]
            simpa using h3 o (by omega) hor
      · cases o with
        | zero => simpa using fun h' => h (hpre.2 h')
        | succ o => simpa using i2 (by simpa using hn) o

/-- A window read that answers: the bytes are in the window, and the value is theirs. -/
theorem winRead_eq_ok {win : List Byte} {o n v : Nat} :
    winRead win o n = .ok v ↔ o + n ≤ win.length ∧ v = leNat ((win.drop o).take n) := by
  unfold winRead
  split
  · rename_i h
    simp [h, eq_comm]
  · simp
    omega

/-- A value of `n` bytes is below `256 ^ n`. -/
theorem winRead_lt {win : List Byte} {o n v : Nat} (h : winRead win o n = .ok v) : v < 256 ^ n := by
  obtain ⟨-, rfl⟩ := winRead_eq_ok.1 h
  exact (leNat_lt _).trans_le (Nat.pow_le_pow_right (by omega) (by simp))

/-- A value laid out least significant byte first is the sum of its bytes by weight. -/
theorem leNat_eq_sum (l : List Byte) : leNat l = ∑ i ∈ Finset.range l.length, 256 ^ i * (l.getD i 0).toNat := by
  induction l with
  | nil => rfl
  | cons b l ih =>
    rw [leNat, ih, List.length_cons, Finset.sum_range_succ', Finset.mul_sum]
    simp only [List.getD_cons_succ, List.getD_cons_zero, pow_zero, one_mul]
    rw [Nat.add_comm]
    congr 1
    exact Finset.sum_congr rfl fun i _ => by rw [pow_succ]; ring

/-- A tag names a format exactly when it gives one other than `Unknown`. -/
theorem formatOf_iff (tag : Nat) (f : SampleFormat) : (formatOf tag = f ∧ f ≠ .unknown) ↔ NamesFormat tag f := by
  unfold formatOf NamesFormat
  split
  · rename_i h
    subst h
    cases f <;> simp
  split
  · rename_i h
    subst h
    cases f <;> simp
  · rename_i h1 h2
    cases f <;> simp [h1, h2]

end Sys2Proof.Machine
end

