-- ==== Sys2Proof/Laws/Invariant.lean ====
section
/-! SUPPORT. How the invariants pass from one state to another that agrees with it on the fields they read, and what they say of
the pending bytes. -/

namespace Sys2Proof.Machine

/-- An entry's legality reads `MD.*` and `DATA_START` only. -/
theorem ChannelStream.legal_congr {s t : State} {k : Nat} {c : ChannelStream} (hm : t.md = s.md)
    (hd : t.dataStart = s.dataStart) (h : c.Legal s k) : c.Legal t k := by
  unfold ChannelStream.Legal State.SampleByte State.sampleAddr at *
  rw [hm, hd]
  exact h

/-- The invariants read neither the ports nor `LASTERR`, `WIN` and the draw counter. -/
theorem State.inv_congr {s t : State} (h : s.Inv) (hc : t.container = s.container) (hl : t.streamLen = s.streamLen)
    (hm : t.md = s.md) (he : t.explMask = s.explMask) (hd : t.dataStart = s.dataStart) (hr : t.resolved = s.resolved)
    (hrm : t.rm = s.rm) (hb : t.built = s.built) (hs : t.streams = s.streams) (hf : t.FilterInv)
    (hst : t.stream.wf = s.stream.wf) : t.Inv := by
  obtain ⟨h1, h2, ⟨h3, h4, h5, h6⟩, h7, h8⟩ := h
  refine ⟨?_, ?_, ⟨?_, ?_, fun k hk => ?_, ?_⟩, hf, ?_⟩
  · unfold State.HeaderInv State.LayoutLegal; rw [hc, hm, hd, hl]; exact h1
  · unfold State.ResolveInv; rw [hr, hc, hrm, hm, he]; exact h2
  · rw [hb, hr, hs, hrm]; exact h3
  · rw [hb, hs]; exact h4
  · have hk' : k < s.streams.length := hs ▸ hk
    have e : t.streams[k] = s.streams[k] := by simp [hs]
    rw [e]
    exact ChannelStream.legal_congr hm hd (h5 k hk')
  · rw [hc, hs]; exact h6
  · unfold State.MemoryInv; rw [hst]; exact h8

/-- An entry found in the table is legal. -/
theorem State.legal_of_inv {s : State} {k : Nat} {c : ChannelStream} (h : s.Inv) (hk : s.streams[k]? = some c) :
    c.Legal s k := by
  obtain ⟨hlt, rfl⟩ := List.getElem?_eq_some_iff.1 hk
  exact h.2.2.1.2.2.1 k hlt

/-- Every position of a mask is a position code (R118). -/
theorem ResolvedMask.positions_le (r : ResolvedMask) : ∀ p ∈ r.positions, p ≤ 32 := by
  intro p hp
  unfold ResolvedMask.positions at hp
  split at hp
  · simp [monoPos] at hp; omega
  · simp at hp; omega

/-- Fresh streams have the positions they were created for (R183). -/
theorem ResolvedMask.fresh_positions (r : ResolvedMask) (cap : Word) (own : Bool) :
    (r.positions.map (ChannelStream.fresh cap own)).map (·.pos.toNat) = r.positions := by
  rw [List.map_map]
  conv_rhs => rw [← List.map_id r.positions]
  refine List.map_congr_left fun p hp => ?_
  have := r.positions_le p hp
  simp [ChannelStream.fresh]
  omega

/-- With the invariants, closed streams have nothing pending, so a close of every stream performs all that is pending. -/
theorem State.openWb_eq_pending {s : State} (h : s.Inv) : s.streams.flatMap ChannelStream.openWb = s.pending := by
  unfold State.pending
  rw [List.flatMap_def, List.flatMap_def]
  congr 1
  refine List.map_congr_left fun c hc => ?_
  unfold ChannelStream.openWb
  split
  · obtain ⟨k, hk, rfl⟩ := List.getElem_of_mem hc
    exact ((h.2.2.1.2.2.1 k hk).2.2.2.2 (by assumption)).symm
  · rfl

/-- A byte of a frame inside the payload lies below `STREAM_LEN`. -/
theorem State.sampleByte_lt {s : State} (h : s.Inv) (ho : s.container = .opened) {k n len a : Nat}
    (hk : k < s.md.channelCount.toNat) (hn : n + len ≤ s.md.nFrames) (ha : s.SampleByte k n len a) : a < s.streamLen.toNat := by
  obtain ⟨i, hi, j, hj, rfl⟩ := ha
  have h1 := State.sampleAddr_end (s := s) (k := k) (n := n + i) hk (by omega)
  have h2 := (h.1 ho).2.2.2.1
  omega

/-- Every pending byte lies below `STREAM_LEN`. -/
theorem State.pending_lt {s : State} (h : s.Inv) (ho : s.container = .opened) : ∀ p ∈ s.pending, p.1 < s.streamLen.toNat := by
  intro p hp
  obtain ⟨c, hc, hp⟩ := List.mem_flatMap.1 hp
  obtain ⟨k, hk, rfl⟩ := List.getElem_of_mem hc
  obtain ⟨-, l2, -, l4, -⟩ := h.2.2.1.2.2.1 k hk
  obtain ⟨a, b⟩ := l4 p hp
  exact State.sampleByte_lt h ho a (by omega) b

/-- No other stream has a byte of this slot's frames pending. -/
theorem State.others_not_pending {s : State} (h : s.Inv) {k k' : Nat} {c' : ChannelStream} {a n len : Nat}
    (hk : k < s.md.channelCount.toNat) (hk' : s.streams[k']? = some c') (hne : k' ≠ k) (ha : s.SampleByte k n len a) :
    ∀ p ∈ c'.wb, p.1 ≠ a := by
  intro p hp e
  obtain ⟨-, -, -, l4, -⟩ := State.legal_of_inv h hk'
  obtain ⟨hk'', i', hi', j', hj', e'⟩ := l4 p hp
  obtain ⟨i, hi, j, hj, rfl⟩ := ha
  have := State.sampleAddr_inj (s := s) hk'' hk hj' hj (by rw [← e', e])
  omega

end Sys2Proof.Machine
end

