-- ==== Sys2Proof/Laws/PerInstr.lean ====
section
/-! SUPPORT. Statements made command by command. `EncodeSelects`: the first word the encoder writes for a well-formed command
selects the row of that command (R120), and no command is longer than the longest. -/

namespace Sys2Proof.Laws.EncodeSelects
open Sys2Proof Sys2Proof.Machine

/-- The opcode a command is encoded with (R120). -/
def opcOf : Instr → Opc
  | .hpParse _ => .hpParse
  | .hpResolve => .hpResolve
  | .csBuild _ _ => .csBuild
  | .csEnum => .csEnum
  | .csRead _ _ => .csRead
  | .csWrite _ _ => .csWrite
  | .csClose _ => .csClose
  | .csDispose => .csDispose
  | .fsBind _ _ _ _ => .fsBind
  | .fsStep _ _ => .fsStep
  | .fsRun _ _ => .fsRun
  | .xfInit _ _ _ => .xfInit
  | .xfApply _ _ _ => .xfApply

/-- A well-formed command's first word selects its row, and its words number at most `longestCommand`. -/
def Statement (i : Instr) : Prop :=
  i.WellFormed → selectOpc ((encode i).headD 0) = some (opcOf i) ∧ (encode i).length ≤ longestCommand

theorem fits {n : Nat} (h : fitsIdx n = true) : n < 256 := by simpa [fitsIdx] using h

theorem hpParse (len : Nat) : Statement (.hpParse len) := fun _ =>
  ⟨(by decide : selectOpc (commandWord 0x01 0 false false) = some .hpParse), by simp [encode, longestCommand]⟩

theorem hpResolve : Statement .hpResolve := fun _ => ⟨by decide, by decide⟩

theorem csBuild (own : Bool) (cap : Option Nat) : Statement (.csBuild own cap) := by
  intro _
  cases cap <;> exact ⟨(commandWord_build _ _).1, by simp [encode, longestCommand]⟩

theorem csEnum : Statement .csEnum := fun _ => ⟨by decide, by decide⟩

theorem csRead (pos count : Nat) : Statement (.csRead pos count) := fun h =>
  ⟨(commandWord_idx pos (fits (Bool.and_eq_true_iff.1 h).1) (0x12, .csRead) (by simp)).1, by simp [encode, longestCommand]⟩

theorem csWrite (pos len : Nat) : Statement (.csWrite pos len) := fun h =>
  ⟨(commandWord_idx pos (fits (Bool.and_eq_true_iff.1 h).1) (0x13, .csWrite) (by simp)).1, by simp [encode, longestCommand]⟩

theorem csClose (pos : Nat) : Statement (.csClose pos) := fun h =>
  ⟨(commandWord_idx pos (fits h) (0x14, .csClose) (by simp)).1, by simp [encode, longestCommand]⟩

theorem csDispose : Statement .csDispose := fun _ => ⟨by decide, by decide⟩

theorem fsBind (stage : Nat) (kind : FilterKind) (fs fc : Num64) : Statement (.fsBind stage kind fs fc) := fun h =>
  ⟨(commandWord_kind stage (fits h) (flagOfKind kind) (0x20, .fsBind) (by simp)).1, by simp [encode, longestCommand]⟩

theorem fsStep (stage : Nat) (x : Num64) : Statement (.fsStep stage x) := fun h =>
  ⟨(commandWord_idx stage (fits h) (0x21, .fsStep) (by simp)).1, by simp [encode, longestCommand]⟩

theorem fsRun (stage len : Nat) : Statement (.fsRun stage len) := fun h =>
  ⟨(commandWord_idx stage (fits (Bool.and_eq_true_iff.1 h).1) (0x22, .fsRun) (by simp)).1, by simp [encode, longestCommand]⟩

theorem xfInit (xover : Nat) (kind : FilterKind) (fs : Num64) : Statement (.xfInit xover kind fs) := fun h =>
  ⟨(commandWord_kind xover (fits h) (flagOfKind kind) (0x30, .xfInit) (by simp)).1, by simp [encode, longestCommand]⟩

theorem xfApply (xover : Nat) (fc : Num64) (len : Nat) : Statement (.xfApply xover fc len) := fun h =>
  ⟨(commandWord_idx xover (fits (Bool.and_eq_true_iff.1 h).1) (0x31, .xfApply) (by simp)).1, by simp [encode, longestCommand]⟩

end Sys2Proof.Laws.EncodeSelects
end

