-- ==== Sys2Proof/Tests/Slice0.lean ====
section
/-! SUPPORT. Small tests, each about one step on a small state, with expected results from spec/95_test_vectors.md (named in each
comment) or worked by hand from the rule named; and, for each statement with hypotheses, a witness that meets them together. -/

namespace Sys2Proof.Tests
open Sys2Proof Sys2Proof.Machine

set_option Elab.async false

/-! ## Well-formedness: an ill-formed command for each check (R119, R121) -/

theorem test_wf_parse_length : ¬ (Instr.hpParse (2 ^ 64)).WellFormed := by decide
theorem test_wf_build_capacity : ¬ (Instr.csBuild true (some (2 ^ 32))).WellFormed := by decide
theorem test_wf_read_position : ¬ (Instr.csRead 256 1).WellFormed := by decide
theorem test_wf_read_count : ¬ (Instr.csRead 0 (2 ^ 32)).WellFormed := by decide
theorem test_wf_write_position : ¬ (Instr.csWrite 256 1).WellFormed := by decide
theorem test_wf_write_length : ¬ (Instr.csWrite 0 (2 ^ 32)).WellFormed := by decide
theorem test_wf_close_position : ¬ (Instr.csClose 256).WellFormed := by decide
theorem test_wf_bind_stage : ¬ (Instr.fsBind 256 .lp 0 0).WellFormed := by decide
theorem test_wf_step_stage : ¬ (Instr.fsStep 256 0).WellFormed := by decide
theorem test_wf_run_stage : ¬ (Instr.fsRun 256 1).WellFormed := by decide
theorem test_wf_run_length : ¬ (Instr.fsRun 0 (2 ^ 32)).WellFormed := by decide
theorem test_wf_init_xover : ¬ (Instr.xfInit 256 .lp 0).WellFormed := by decide
theorem test_wf_apply_xover : ¬ (Instr.xfApply 256 0 1).WellFormed := by decide
theorem test_wf_apply_length : ¬ (Instr.xfApply 0 0 (2 ^ 32)).WellFormed := by decide

/-! ## Decoding: every constructor from a word written out from R119 to R121 -/

/-- P4, step 1. -/
theorem test_decode_hpParse : decode [0x01000000#32, 0x0000004C#32, 0x00000000#32] = .instr (.hpParse 76) [] := by decide
/-- The length is 64 bits, low word first (R121). -/
theorem test_decode_hpParse_high : decode [0x01000000#32, 0x00000001#32, 0x00000002#32] = .instr (.hpParse 0x200000001) [] := by
  decide
theorem test_decode_hpResolve : decode [0x02000000#32] = .instr .hpResolve [] := by decide
/-- V125. -/
theorem test_decode_csBuild : decode [0x10000003#32, 0x00001000#32] = .instr (.csBuild true (some 4096)) [] := by decide
/-- P4, step 3: with `CAPV` = 0 no operand word is taken. -/
theorem test_decode_csBuild_default : decode [0x10000001#32, 0x11000000#32] = .instr (.csBuild true none) [0x11000000#32] := by
  decide
theorem test_decode_csEnum : decode [0x11000000#32] = .instr .csEnum [] := by decide
/-- V126. -/
theorem test_decode_csRead : decode [0x12200000#32, 0x0000AC44#32] = .instr (.csRead 32 44100) [] := by decide
/-- P2, step 7. -/
theorem test_decode_csWrite : decode [0x13010000#32, 0x00000002#32] = .instr (.csWrite 1 2) [] := by decide
theorem test_decode_csClose : decode [0x141F0000#32] = .instr (.csClose 31) [] := by decide
theorem test_decode_csDispose : decode [0x15000000#32] = .instr .csDispose [] := by decide
/-- V127. -/
theorem test_decode_fsBind :
    decode [0x20020001#32, 0x00000000#32, 0x40E77000#32, 0x00000000#32, 0x408F4000#32] =
      .instr (.fsBind 2 .hp 0x40E7700000000000#64 0x408F400000000000#64) [] := by decide
/-- V130. -/
theorem test_decode_fsStep : decode [0x21FF0000#32, 0x00000000#32, 0x3FF00000#32] =
    .instr (.fsStep 255 0x3FF0000000000000#64) [] := by decide
theorem test_decode_fsRun : decode [0x22050000#32, 0x00000008#32] = .instr (.fsRun 5 8) [] := by decide
/-- P3, step 2. -/
theorem test_decode_xfInit : decode [0x30000000#32, 0x00000000#32, 0x40E77000#32] =
    .instr (.xfInit 0 .lp 0x40E7700000000000#64) [] := by decide
/-- P3, step 3: the cutoff comes before the length. -/
theorem test_decode_xfApply : decode [0x31000000#32, 0x00000000#32, 0x40C77000#32, 0x00000002#32] =
    .instr (.xfApply 0 0x40C7700000000000#64 2) [] := by decide
/-- V120 to V124, V128, V129: no row selects the word. -/
theorem test_decode_illegal :
    [0x00000000#32, 0x01000001#32, 0x02010000#32, 0x12000100#32, 0x10000004#32, 0x30000003#32, 0xFF000000#32].all
      (fun w => decode [w, 0x11000000#32] == .illegal [0x11000000#32]) = true := by decide
/-- A command word without its operand word is not complete. -/
theorem test_decode_incomplete : decode [0x12200000#32] = .incomplete := by decide
/-- The bits of the table: the second word of `CS.READ` is bits 63..32. -/
theorem test_decodeTableWord : decodeTableWord 64 0x0000000412200000 = some (.csRead 32 4) := by decide

/-! ## Small states -/

/-- V1's stream: a stereo 16-bit header and two frames. -/
def stereoBytes : List Byte := [
  0x52, 0x49, 0x46, 0x46, 0x2C, 0x00, 0x00, 0x00, 0x57, 0x41, 0x56, 0x45, 0x66, 0x6D, 0x74, 0x20] ++ [
  0x10, 0x00, 0x00, 0x00, 0x01, 0x00, 0x02, 0x00, 0x80, 0xBB, 0x00, 0x00, 0x00, 0xEE, 0x02, 0x00] ++ [
  0x04, 0x00, 0x10, 0x00, 0x64, 0x61, 0x74, 0x61, 0x08, 0x00, 0x00, 0x00] ++ [
  0x01, 0x00, 0x02, 0x00, 0x03, 0x00, 0x04, 0x00]

/-- V7's stream: an extensible header. -/
def extensibleBytes : List Byte := [
  0x52, 0x49, 0x46, 0x46, 0x3C, 0x00, 0x00, 0x00, 0x57, 0x41, 0x56, 0x45, 0x66, 0x6D, 0x74, 0x20] ++ [
  0x28, 0x00, 0x00, 0x00, 0xFE, 0xFF, 0x06, 0x00, 0x80, 0xBB, 0x00, 0x00, 0x00, 0x2F, 0x0D, 0x00, 0x12, 0x00] ++ [
  0x18, 0x00, 0x16, 0x00, 0x14, 0x00, 0x3F, 0x00, 0x00, 0x00] ++ [
  0x00, 0x00, 0x00, 0x01, 0x00, 0x00, 0x00, 0x00, 0x00, 0x00, 0x00, 0x00, 0x00, 0x00, 0x00, 0x00] ++ [
  0x64, 0x61, 0x74, 0x61, 0x00, 0x00, 0x00, 0x00]

/-- A stream holding these bytes from address 0. -/
def streamOf (bs : List Byte) : Memory := bs.mapIdx fun i b => (i, b)

/-- One crossover and two stages, a stream attached, nothing opened. -/
def attached (bs : List Byte) : State :=
  { State.reset with
    stages := [Stage.fresh, Stage.fresh], xovers := [Crossover.fresh], stream := streamOf bs, present := true }

/-- V1's container opened, with an explicit mask (0 for none). -/
def openedWith (explicit : Word) : State :=
  { attached stereoBytes with
    container := .opened, win := stereoBytes, streamLen := 52, md := ⟨.pcm, 2, 48000, 16, 16, 8⟩, dataStart := 44,
    explMask := explicit }

/-- The container open and resolved. -/
def resolvedTo (explicit mask : Word) : State := { openedWith explicit with resolved := true, rm := ⟨false, mask⟩ }

/-- An entry of the stream table, fresh, at the least capacity. -/
def freshAt (pos : BitVec 6) (own : Bool) : ChannelStream := ⟨pos, 0, 1024, own, false, []⟩

/-- The start S-A of spec/95_test_vectors.md 2.3, with handles owned or not. -/
def built (own : Bool) : State :=
  { resolvedTo 0 3 with built := true, streams := [freshAt 0 own, freshAt 1 own] }

/-- S-A after `CS.WRITE P0, [0xBEEF]` that did not flush, with a `CS.DISPOSE` on the command port. -/
def written : State :=
  { built true with
    streams := [⟨0, 1, 1024, true, false, [(44, 0xEF), (45, 0xBE)]⟩, freshAt 1 true], cmdIn := [0x15000000] }

/-- V74's container: two channels, explicit mask 0x7, three streams, the third extra. -/
def extra : State :=
  { resolvedTo 7 7 with built := true, streams := [freshAt 0 false, freshAt 1 false, freshAt 2 false] }

/-- S-A with a buffer of two samples on the buffer port. -/
def loaded : State := { built true with bufIn := [0xBEEF, 0x1234] }

/-- S-A disposed. -/
def disposed : State :=
  { built false with
    container := .disposed, streams := [⟨0, 2, 1024, false, true, []⟩, ⟨1, 0, 1024, false, true, []⟩] }

/-- The dyadic coefficients of S-B in spec/95_test_vectors.md 2.4. -/
def dyadic : Coef Num64 :=
  ⟨0x3FE0000000000000, 0x3FD0000000000000, 0x3FC0000000000000, 0xBFE0000000000000, 0x3FD0000000000000⟩

/-- 48000.0. -/
def rate48k : Num64 := 0x40E7700000000000

/-- S-B: stage 0 bound with the dyadic coefficients; the crossover initialised. -/
def filters : State :=
  { attached [] with stages := [⟨.bound dyadic, History.zero⟩, Stage.fresh], xovers := [⟨true, .lp, rate48k⟩] }

/-- The next state of an outcome, if it is one. -/
def next? (o : Host.Outcome State Fault Refusal) : Option State :=
  match o with
  | .next t => some t
  | .fault _ => none
  | .refused _ => none

/-- The refusal of an outcome, if it is one. -/
def refusal? (o : Host.Outcome State Fault Refusal) : Option Refusal :=
  match o with
  | .next _ => none
  | .fault _ => none
  | .refused r => some r

/-- What the last response was, if the command answered a next state. -/
def answer (o : Host.Outcome State Fault Refusal) : Option Response := (next? o).bind fun t => t.responses.getLast?

/-- The unaudited literals are legal (U1 to U3). -/
theorem test_params_legal : Config.params.legal = true := by decide

/-! ## One step -/

/-- V1. -/
theorem test_parse_stereo : answer (exec (.hpParse 52) (attached stereoBytes)) = some ⟨0, [1, 2, 48000, 16, 16, 8]⟩ := by
  decide +kernel
/-- V7: mask, valid bits and the tag at GUID byte 3. -/
theorem test_parse_extensible : (next? (exec (.hpParse 68) (attached extensibleBytes))).map
    (fun t => (t.md, t.explMask, t.dataStart)) = some (⟨.pcm, 6, 48000, 24, 20, 0⟩, 0x3F, 68) := by decide +kernel
/-- V34: eight channels resolve to 0x33F, not 0xFF. -/
theorem test_resolve_eight : answer (exec .hpResolve { openedWith 0 with md := ⟨.pcm, 8, 48000, 16, 16, 0⟩ }) =
    some ⟨0, [0, 0x33F]⟩ := by decide +kernel
/-- V37: nineteen channels without a mask are fatal. -/
theorem test_resolve_nineteen : (next? (exec .hpResolve { openedWith 0 with md := ⟨.pcm, 19, 48000, 16, 16, 0⟩ })).map
    (fun t => (t.container, t.lastErr)) = some (.closed, 1) := by decide +kernel
/-- The worked example of R185. -/
theorem test_build_positions : (next? (exec (.csBuild true (some 4096)) (resolvedTo 0x33F 0x33F))).map
    (fun t => t.streams.map fun c => c.pos.toNat) = some [0, 1, 2, 3, 4, 5, 8, 9] := by decide +kernel
/-- E3. -/
theorem test_build_1023 : answer (exec (.csBuild false (some 1023)) (resolvedTo 0 3)) = some ⟨2, []⟩ := by decide +kernel
/-- V50. -/
theorem test_enum : answer (exec .csEnum (built false)) = some ⟨0, [2, 0, 1]⟩ := by decide +kernel
/-- V51: the other channel is skipped. -/
theorem test_read_left : answer (exec (.csRead 0 2) (built false)) = some ⟨0, [1, 3]⟩ := by decide +kernel
/-- V53. -/
theorem test_read_past_end : (next? (exec (.csRead 0 3) (built false))).map (fun t => (t.lastErr, t.streams)) =
    some (4, (built false).streams) := by decide +kernel
/-- The worked example of R195, whichever way the early flush goes: what is queued, seen through the block. -/
theorem test_write_queues : ∀ flush : Bool, ((built false).writeSamples 0 (freshAt 0 false) [0xBEEF, 0x1234] flush).map
    (fun t => ([44, 45, 46, 48, 49, 51].map fun a => t.byteAt a)) =
      some [some 0xEF, some 0xBE, some 2, some 0x34, some 0x12, some 0] := by decide +kernel
/-- V59: a word wider than 16 bits. -/
theorem test_write_wide : answer (exec (.csWrite 0 1) { built false with bufIn := [0x12345] }) = some ⟨2, []⟩ := by
  decide +kernel
/-- V58's close, on what a write left pending: the bytes land and the owned handle is released. -/
theorem test_close : (next? (exec (.csClose 0) written)).map (fun t => (t.stream.read 44, t.stream.read 45, t.releases)) =
    some (some 0xEF, some 0xBE, [0]) := by decide +kernel
/-- V64: a close after the disposal is a no-op. -/
theorem test_close_disposed : (next? (exec (.csClose 0) disposed)).map (fun t => (t.streams, t.lastErr)) =
    some (disposed.streams, 0) := by decide +kernel
/-- E6: both owned handles released once, pending bytes written. -/
theorem test_dispose : (next? (exec .csDispose written)).map (fun t => (t.container, t.stream.read 44, t.releases)) =
    some (.disposed, some 0xEF, [0, 1]) := by decide +kernel
/-- V65: a disposal with no container is `OK`. -/
theorem test_dispose_closed : answer (exec .csDispose (attached [])) = some ⟨0, []⟩ := by decide +kernel
/-- V91: a cutoff at Nyquist raises nothing and binds. -/
theorem test_bind_nyquist : (next? (exec (.fsBind 1 .lp rate48k 0x40D7700000000000) filters)).map
    (fun t => t.stages.map Stage.st) = some [1, 1] := by decide +kernel
/-- V84, first sample: 0.5 x 1. -/
theorem test_step : (next? (exec (.fsStep 0 0x3FF0000000000000) filters)).map
    (fun t => (t.responses, t.stages.map Stage.st)) = some ([⟨0, [0, 0x3FE00000]⟩], [2, 0]) := by decide +kernel
/-- V87: no coefficients. -/
theorem test_step_constructed : answer (exec (.fsStep 1 0x3FF0000000000000) filters) = some ⟨8, []⟩ := by decide +kernel
/-- V80, four samples: `[0.5, 0.5, 0.25, 0.0]` (R241). -/
theorem test_run : answer (exec (.fsRun 0 4) { filters with bufIn := [0, 0x3FF00000, 0, 0, 0, 0, 0, 0] }) =
    some ⟨0, [0, 0x3FE00000, 0, 0x3FE00000, 0, 0x3FD00000, 0, 0]⟩ := by decide +kernel
/-- V85: an empty buffer leaves a bound stage bound. -/
theorem test_run_empty : (next? (exec (.fsRun 0 0) filters)).map (·.stages) = some filters.stages := by decide +kernel
/-- The worked example of R253. -/
theorem test_init : (next? (exec (.xfInit 0 .hp rate48k) filters)).map (fun t => (t.stages, t.xovers)) =
    some ([Stage.fresh, Stage.fresh], [⟨true, .hp, rate48k⟩]) := by decide +kernel
/-- V100: zero, negative, infinite and NaN sample rates. -/
theorem test_init_rates : ([0x0, 0xC0E7700000000000, 0x7FF0000000000000, 0x7FF8000000000000] : List Num64).all
    (fun fs => answer (exec (.xfInit 0 .lp fs) filters) == some ⟨2, []⟩) = true := by decide +kernel
/-- V102: the exact cascade. -/
theorem test_cascade : (cascadeRun binary64At dyadic 0 History.zero History.zero
    [0x3FF0000000000000, 0, 0, 0, 0, 0]).1 =
      [0x3FD0000000000000, 0x3FE0000000000000, 0x3FE0000000000000, 0x3FD0000000000000, 0, 0xBFB8000000000000] := by
  decide +kernel
/-- V101: never initialised. -/
theorem test_apply_uninitialised : answer (exec (.xfApply 0 0x408F400000000000 1)
    { attached [] with bufIn := [0, 0x3FF00000] }) = some ⟨8, []⟩ := by decide +kernel
/-- V92(b): the sign of a zero output. -/
theorem test_negative_zero : (biquadRun binary64At ⟨0xBFE0000000000000, 0xBFD0000000000000, 0xBFC0000000000000,
    0x3FE0000000000000, 0x3FD0000000000000⟩ 0 History.zero [0, 0, 0, 0, 0]).1 =
      [0x8000000000000000, 0, 0, 0x8000000000000000, 0] := by decide +kernel
/-- The reset input forgets what is pending (R321). -/
theorem test_reset_input : (next? (step { written with resetIn := true })).map
    (fun t => (t.container, t.pending, t.stream.read 44, t.releases)) = some (.closed, [], some 1, []) := by decide +kernel
/-- V120: an illegal word takes one word only. -/
theorem test_illegal_word : (next? (step { built false with cmdIn := [0, 0x11000000] })).map
    (fun t => (t.lastErr, t.cmdIn)) = some (8, [0x11000000]) := by decide +kernel
/-- V74: the extra stream is refused. -/
theorem test_extra : refusal? (exec (.csRead 2 1) extra) = some .extraStream := by decide +kernel
/-- V60: past the payload is refused. -/
theorem test_past_payload : refusal? (exec (.csWrite 0 3) { built false with bufIn := [1, 2, 3] }) =
    some .writePastPayload := by decide +kernel

/-! ## Witnesses: the hypotheses of a statement are met together -/

theorem witness_DecodeOfEncode : (Instr.xfApply 255 rate48k (2 ^ 32 - 1)).WellFormed := by decide
theorem witness_EncodeOfDecode : decode [0x10000002#32, 0xFFFFFFFF#32] = .instr (.csBuild false (some (2 ^ 32 - 1))) [] := by
  decide
theorem witness_OneRowPerWord : ∃ r ∈ opcTable, r.selects 0x20FF0001 = true := by decide
theorem witness_StepRunsCommand : (built false).resetIn = false ∧
    decode { built false with cmdIn := [0x11000000] }.cmdIn = .instr .csEnum [] := by decide
theorem witness_IncompleteWaits : (attached []).resetIn = false ∧ decode (attached []).cmdIn = .incomplete ∧
    ¬ (attached []).Ready (.fsRun 0 1) := by decide +kernel
theorem witness_IllegalWordEnds : ∀ r ∈ opcTable, 0x12000100#32 &&& r.mask ≠ r.pattern := by decide
theorem witness_OneResponsePerCommand : (built false).Ready .csEnum ∧ next? (exec .csEnum (built false)) ≠ none := by
  decide +kernel
theorem witness_ResetAsserted : { written with resetIn := true }.resetIn = true := by decide
/-- The request is cleared, so the step after a reset runs a command again (R320). -/
theorem test_reset_once : (next? (step { written with resetIn := true })).map (·.resetIn) = some false := by decide +kernel
theorem witness_FindIsFirst : fmtMark.length = 4 ∧ FirstAt stereoBytes fmtMark 0 12 := by decide +kernel
theorem witness_WindowReads : 50 + 2 ≤ stereoBytes.length ∧ stereoBytes.length < 51 + 2 := by decide
theorem witness_ParseCommits : (attached stereoBytes).container ≠ .opened ∧ (attached stereoBytes).present = true ∧
    (attached stereoBytes).bytesAt 0 (min 1024 52) = some stereoBytes ∧
    HeaderAccepted stereoBytes 52 ⟨⟨.pcm, 2, 48000, 16, 16, 8⟩, 0, 44⟩ :=
  ⟨by decide, by decide, by decide +kernel, 16, 36, .pcm, 0, 0, by decide +kernel⟩
/-- The extensible form of an acceptable header. -/
theorem witness_ParseCommits_extensible :
    HeaderAccepted extensibleBytes 68 ⟨⟨.pcm, 6, 48000, 24, 20, 0⟩, 0x3F, 68⟩ :=
  ⟨16, 60, .pcm, 20, 0x3F, by decide +kernel⟩
theorem witness_ParseRejects : (attached []).container ≠ .opened ∧ (attached []).present = true ∧
    (attached []).bytesAt 0 (min 1024 0) = some [] ∧ ∀ h, ¬ HeaderAccepted [] 0 h :=
  ⟨by decide, by decide, by decide, fun _ ⟨_, _, _, _, _, h⟩ => absurd h.1 (by decide)⟩
theorem witness_OpenTimeChecks : (openedWith 0).container = .opened ∧
    ({ attached [] with present := false }.container ≠ .opened ∧ { attached [] with present := false }.present = false) ∧
    ((attached []).container ≠ .opened ∧ (attached []).present = true ∧ 2 ^ 31 - 1 < 2 ^ 31) := by decide
theorem witness_ParseReadsWindowOnly : (attached stereoBytes).container ≠ .opened ∧
    disposed.container ≠ .opened ∧ disposed.present = (attached stereoBytes).present ∧
    disposed.bytesAt 0 (min 1024 52) = (attached stereoBytes).bytesAt 0 (min 1024 52) ∧
    next? (exec (.hpParse 52) (attached stereoBytes)) ≠ none := by decide +kernel
theorem witness_ResolveTable : (openedWith 0).container = .opened ∧ (openedWith 0).md.channelCount.toNat ≤ 18 ∧
    { openedWith 0 with md := ⟨.pcm, 19, 48000, 16, 16, 0⟩ }.container = .opened ∧
    { openedWith 0 with md := ⟨.pcm, 19, 48000, 16, 16, 0⟩ }.explMask = 0 ∧
    18 < { openedWith 0 with md := ⟨.pcm, 19, 48000, 16, 16, 0⟩ }.md.channelCount.toNat := by decide
theorem witness_ResolveDeterministic : (built false).container = (openedWith 0).container ∧
    (built false).md.channelCount = (openedWith 0).md.channelCount ∧ (built false).explMask = (openedWith 0).explMask ∧
    next? (exec .hpResolve (openedWith 0)) ≠ none := by decide +kernel
theorem witness_BuildCreates : (resolvedTo 0 3).container = .opened ∧ (resolvedTo 0 3).resolved = true ∧
    (resolvedTo 0 3).built = false ∧ (resolvedTo 0 3).rm.Exclusive ∧ ∀ n, some 1024 = some n → 1024 ≤ n ∧ n < 2 ^ 32 :=
  ⟨by decide, by decide, by decide, by decide, by rintro n ⟨⟩; decide⟩
theorem written_inv : written.Inv := ⟨by decide +kernel, by decide +kernel, by decide +kernel, by decide +kernel, by decide +kernel⟩
theorem built_inv : (built true).Inv := ⟨by decide +kernel, by decide +kernel, by decide +kernel, by decide +kernel, by decide +kernel⟩
theorem loaded_inv : loaded.Inv := ⟨by decide +kernel, by decide +kernel, by decide +kernel, by decide +kernel, by decide +kernel⟩
theorem disposed_inv : disposed.Inv := ⟨by decide +kernel, by decide +kernel, by decide +kernel, by decide +kernel, by decide +kernel⟩
theorem witness_RebuildFlushes : written.Inv ∧ written.StreamHolds written.streamLen.toNat ∧
    written.container = .opened ∧ written.built = true := ⟨written_inv, by decide +kernel⟩
theorem witness_CapacityTooSmall : (resolvedTo 0 3).container = .opened ∧ (resolvedTo 0 3).resolved = true ∧ 1023 < 1024 := by
  decide
theorem witness_EnumLists : (built true).container = .opened ∧ (built true).built = true := by decide
theorem witness_ReadSamples : (built true).Inv ∧ (built true).StreamHolds (built true).streamLen.toNat ∧
    (built true).Usable 1 1 2 (freshAt 1 true) := ⟨built_inv, by decide +kernel⟩
theorem witness_EndOfStream : (built true).Finds 1 1 (freshAt 1 true) ∧ 1 < (built true).md.channelCount.toNat ∧
    (built true).md.nFrames - (freshAt 1 true).cursor.toNat < 3 := by decide +kernel
theorem witness_MissingChannel : ((built true).container = .opened ∧ (built true).built = true ∧
    (∀ c ∈ (built true).streams, c.pos.toNat ≠ 2) ∧ (built true).Ready (.csWrite 2 0)) ∧
    (disposed.container ≠ .closed ∧ disposed.built = true ∧ ∀ c ∈ disposed.streams, c.pos.toNat ≠ 2) ∧
    (built true).lookup 1 = some 1 ∧ (built true).Inv ∧ 32 < 33 :=
  ⟨by decide +kernel, by decide +kernel, by decide +kernel, built_inv, by decide⟩
theorem witness_WriteSamples : loaded.Inv ∧ loaded.StreamHolds loaded.streamLen.toNat ∧
    loaded.Usable 0 0 2 (freshAt 0 true) ∧ loaded.Ready (.csWrite 0 2) ∧
    ∀ v ∈ rawsOfWords loaded.rawWords 2 loaded.bufIn, v < 256 ^ loaded.md.bytesPerSample :=
  ⟨loaded_inv, by decide +kernel, by decide +kernel, by decide +kernel⟩
theorem witness_WriteTooWide : (built true).Finds 0 0 (freshAt 0 true) ∧
    { built true with bufIn := [0x12345] }.Ready (.csWrite 0 1) ∧
    ∃ v ∈ rawsOfWords (built true).rawWords 1 [0x12345], 2 ^ (8 * (built true).md.bytesPerSample) ≤ v := by decide +kernel
theorem witness_CloseFlushes : (written.container ≠ .closed ∧ written.built = true ∧ written.lookup 0 = some 0 ∧
    written.Inv ∧ written.StreamHolds written.streamLen.toNat ∧ (written.streams[0]?).map (·.closed) = some false) ∧
    (disposed.container ≠ .closed ∧ disposed.built = true ∧ disposed.lookup 0 = some 0 ∧
      (disposed.streams[0]?).map (·.closed) = some true) :=
  ⟨⟨by decide, by decide, by decide +kernel, written_inv, by decide +kernel⟩, by decide +kernel⟩
theorem witness_DisposeFlushes : written.Inv ∧ written.StreamHolds written.streamLen.toNat ∧ written.container = .opened :=
  ⟨written_inv, by decide +kernel⟩
theorem witness_DisposeIdempotent : next? (exec .csDispose written) ≠ none ∧ disposed.container ≠ .opened := by decide +kernel
/-- A stream of an open container that was closed. -/
def oneClosed : State := { built false with streams := [⟨0, 0, 1024, false, true, []⟩, freshAt 1 false] }
theorem witness_UseAfterDispose : (disposed.container = .disposed ∧ disposed.Ready (.csWrite 0 0)) ∧
    oneClosed.container = .opened ∧ oneClosed.built = true ∧ oneClosed.lookup 0 = some 0 ∧
    (oneClosed.streams[0]?).map (·.closed) = some true ∧ oneClosed.Ready (.csWrite 0 0) := by decide +kernel
theorem witness_OutOfOrder : ((attached []).container = .closed ∧ (attached []).Ready (.csWrite 0 0)) ∧
    ((openedWith 0).container = .opened ∧ (openedWith 0).resolved = false) ∧
    ((openedWith 0).built = false ∧ (openedWith 0).Ready (.csWrite 0 0)) ∧
    { openedWith 0 with container := .disposed }.built = false :=
  ⟨⟨by decide, Nat.zero_le _⟩, by decide, by decide +kernel, by decide⟩
/-- `CS.CLOSE` on a disposed container whose table was never built (R198, R289). -/
theorem test_close_never_built :
    (next? (exec (.csClose 0) { openedWith 0 with container := .disposed })).map (fun t => (t.lastErr, t.container)) =
      some (8, .disposed) := by decide +kernel
/-- A rejected parse gives the text of its failing test, if there is one, to the side channel (R122, R282). -/
theorem test_reject_reason :
    (next? (exec (.hpParse 0) (attached []))).map (·.reasons) = some (Config.parseReason .noRiff [] 0).toList := by rfl
theorem witness_RoundTrip : loaded.Inv ∧ loaded.StreamHolds loaded.streamLen.toNat ∧
    loaded.Usable 0 0 2 (freshAt 0 true) ∧ (freshAt 0 true).cursor = 0 ∧ loaded.Ready (.csWrite 0 2) ∧
    (∀ v ∈ rawsOfWords loaded.rawWords 2 loaded.bufIn, v < 256 ^ loaded.md.bytesPerSample) ∧
    ∀ n, (none : Option Nat) = some n → 1024 ≤ n ∧ n < 2 ^ 32 :=
  ⟨loaded_inv, by decide +kernel, by decide +kernel, by decide, by decide +kernel, by decide +kernel, nofun⟩
/-- A conversion of 16-bit samples that adds 5 on the way out. -/
def plusFive : Conv Nat := ⟨fun _ _ _ raw => raw + 5, fun _ _ _ v => v - 5⟩
theorem plusFive_lawful (m : Metadata) : plusFive.Lawful m := by
  rintro t ⟨raw, h, rfl⟩
  exact ⟨by simpa [Conv.encodeRaw, Conv.decodeRaw, plusFive] using h, by simp [Conv.encodeRaw, Conv.decodeRaw, plusFive]⟩
theorem witness_ConvertedRoundTrip : loaded.Inv ∧ loaded.StreamHolds loaded.streamLen.toNat ∧
    loaded.Usable 0 0 [0xBEF4, 0x1239].length (freshAt 0 true) ∧ (freshAt 0 true).cursor = 0 ∧ plusFive.Lawful loaded.md ∧
    (∀ t ∈ [0xBEF4, 0x1239], plusFive.Represents loaded.md t) ∧
    loaded.bufIn = plusFive.toPort loaded.md [0xBEF4, 0x1239] ++ [] ∧
    ∀ n, (none : Option Nat) = some n → 1024 ≤ n ∧ n < 2 ^ 32 := by
  refine ⟨loaded_inv, by decide +kernel, by decide +kernel, by decide, plusFive_lawful _, ?_, by decide +kernel, nofun⟩
  rintro t ht
  simp only [List.mem_cons, List.not_mem_nil, or_false] at ht
  obtain rfl | rfl := ht
  · exact ⟨0xBEEF, by decide +kernel, rfl⟩
  · exact ⟨0x1234, by decide +kernel, rfl⟩
theorem witness_BindLoads : filters.stages[0]? = some ⟨.bound dyadic, History.zero⟩ ∧ filters.stages.length ≤ 2 := by decide
theorem witness_StepFilters : filters.stages[0]? = some ⟨.bound dyadic, History.zero⟩ ∧
    Stage.coef? ⟨.bound dyadic, History.zero⟩ = some dyadic := by decide
theorem witness_RunFilters : filters.stages[0]? = some ⟨.bound dyadic, History.zero⟩ ∧
    { filters with bufIn := [0, 0x3FF00000, 0, 0] }.Ready (.fsRun 0 2) := by decide
theorem witness_RunSplits :
    let s := { filters with bufIn := [0, 0x3FF00000, 0, 0] }
    s.Ready (.fsRun 0 (1 + 1)) ∧ ((next? (exec (.fsRun 0 1) s)).bind fun t => next? (exec (.fsRun 0 1) t)) ≠ none ∧
      next? (exec (.fsRun 0 (1 + 1)) s) ≠ none := by decide +kernel
theorem witness_UnboundRefused : (filters.stages[1]? = some Stage.fresh ∧ Stage.fresh.coef? = none ∧
    filters.Ready (.fsRun 1 0)) ∧ (attached []).FilterInv ∧ (attached []).xovers[0]? = some Crossover.fresh ∧
    Crossover.fresh.inited = false ∧ (attached []).Ready (.xfApply 0 0 0) := by decide +kernel
theorem witness_UnitIndexRange : (filters.stages.length ≤ 2 ∧ filters.Ready (.fsRun 2 0)) ∧ filters.xovers.length ≤ 1 ∧
    filters.Ready (.xfApply 1 0 0) := by decide
theorem witness_InitConstructs : filters.xovers.length ≤ 1 ∧ 0 < filters.xovers.length ∧
    (numIsNaN rate48k || numIsInf rate48k || numSign rate48k || numIsZero rate48k) = false ∧
    numIsZero 0 = true := by decide +kernel
theorem witness_ApplyCascades : filters.xovers[0]? = some ⟨true, .lp, rate48k⟩ ∧
    filters.stages[2 * 0]? = some ⟨.bound dyadic, History.zero⟩ ∧ filters.stages[2 * 0 + 1]? = some Stage.fresh ∧
    { filters with bufIn := [0, 0x3FF00000] }.Ready (.xfApply 0 0x40C7700000000000 1) ∧
    legalCutoff rate48k 0x40C7700000000000 = true := by decide +kernel
theorem witness_RoundsToNearest : numIsFinite rate48k = true ∧ numIsFinite (numAdd 0 rate48k rate48k) = true ∧
    numIsFinite (numMul 0 rate48k rate48k) = true := by decide +kernel
/-- An output stream of the difference equation for two zero samples. -/
theorem witness_SilenceStaysSilent : StageOutputs dyadic ⟨0, 0, 0, 0⟩ [0, 0] [0, 0] ∧ numPositive dyadic.b0 = true := by
  refine ⟨⟨rfl, fun i hi => ⟨0x7FF8000000000000, by decide +kernel, ?_⟩⟩, by decide +kernel⟩
  have : i = 0 ∨ i = 1 := by simp at hi; omega
  rcases this with rfl | rfl <;> decide +kernel
theorem witness_NaNStays : StageOutputs dyadic ⟨0, 0, 0, 0⟩ [0x7FF8000000000000, 0] [0x7FF8000000000000, 0x7FF8000000000000] ∧
    numIsNaN ([0x7FF8000000000000, 0].getD 0 0) = true := by
  refine ⟨⟨rfl, fun i hi => ⟨0x7FF8000000000000, by decide +kernel, ?_⟩⟩, by decide +kernel⟩
  have : i = 0 ∨ i = 1 := by simp at hi; omega
  rcases this with rfl | rfl <;> decide +kernel
theorem witness_ReferenceForms : (0 : ℝ) < 48000 ∧ (0 : ℝ) < 12000 ∧ (12000 : ℝ) < 48000 / 2 ∧
    ∃ lp hp, IsReferenceDesign .lp 48000 12000 lp ∧ IsReferenceDesign .hp 48000 12000 hp :=
  ⟨by norm_num, by norm_num, by norm_num, ⟨_, _, _, _, _⟩, ⟨_, _, _, _, _⟩, ⟨_, rfl, _, rfl, rfl, rfl, rfl, rfl, rfl⟩,
    ⟨_, rfl, _, rfl, rfl, rfl, rfl, rfl, rfl⟩⟩
theorem witness_ReferenceStable : (0 : ℝ) < 1 ∧ IsReferenceK 48000 (48000 / 4) 1 ∧
    ∃ lp hp, IsReferenceLowPass 1 lp ∧ IsReferenceHighPass 1 hp := by
  refine ⟨by norm_num, ?_, ⟨_, _, _, _, _⟩, ⟨_, _, _, _, _⟩, ⟨_, rfl, rfl, rfl, rfl, rfl, rfl⟩, ⟨_, rfl, rfl, rfl, rfl, rfl, rfl⟩⟩
  rw [IsReferenceK, show Real.pi * (48000 / 4) / 48000 = Real.pi / 4 by ring, Real.tan_pi_div_four]
theorem witness_CascadesSumToUnit : ∃ (lp hp : Coef ℝ) (zl zh : ℂ), IsReferenceLowPass 1 lp ∧ IsReferenceHighPass 1 hp ∧
    ‖(1 : ℂ)‖ = 1 ∧ HasTransfer lp 1 zl ∧ HasTransfer hp 1 zh := by
  have h2 : (0 : ℝ) < Real.sqrt 2 := Real.sqrt_pos.2 (by norm_num)
  have hd : (2 + Real.sqrt 2 : ℝ) ≠ 0 := by positivity
  let c (b0 b1 : ℝ) : Coef ℝ := ⟨b0 / (2 + Real.sqrt 2), b1 / (2 + Real.sqrt 2), b0 / (2 + Real.sqrt 2), 0,
    (2 - Real.sqrt 2) / (2 + Real.sqrt 2)⟩
  have ha : (1 : ℝ) + (2 - Real.sqrt 2) / (2 + Real.sqrt 2) = 4 / (2 + Real.sqrt 2) := by field_simp; ring
  have hn : (1 + ((0 : ℝ) : ℂ) * 1 + (((2 - Real.sqrt 2) / (2 + Real.sqrt 2) : ℝ) : ℂ) * 1 ^ 2) =
      ((4 / (2 + Real.sqrt 2) : ℝ) : ℂ) := by rw [← ha]; push_cast; ring
  have h0 : ((4 / (2 + Real.sqrt 2) : ℝ) : ℂ) ≠ 0 := by
    exact_mod_cast div_ne_zero (by norm_num) hd
  refine ⟨c 1 2, c 1 (-2), 1, 0, ⟨2 + Real.sqrt 2, by ring, ?_, ?_, ?_, ?_, ?_⟩, ⟨2 + Real.sqrt 2, by ring, ?_, ?_, ?_, ?_, ?_⟩,
    by simp, ⟨by rw [hn]; exact h0, ?_⟩, ⟨by rw [hn]; exact h0, ?_⟩⟩
  case refine_11 => rw [hn]; simp only [c]; push_cast; ring
  case refine_12 => rw [hn]; simp only [c]; push_cast; ring
  all_goals simp only [c]
  all_goals ring
theorem witness_StepKeepsInv : written.Inv ∧ next? (step written) ≠ none := ⟨written_inv, by decide +kernel⟩
theorem witness_NoFaultWithTrueLength : written.Inv ∧ written.HostOwes .csDispose ∧
    (attached stereoBytes).Inv ∧ (attached stereoBytes).HostOwes (.hpParse 52) :=
  ⟨written_inv, ⟨by decide +kernel, trivial⟩,
    ⟨by decide +kernel, by decide +kernel, by decide +kernel, by decide +kernel, by decide +kernel⟩,
    ⟨by decide +kernel, by decide +kernel⟩⟩
theorem witness_RefusesExactly : extra.Finds 2 2 (freshAt 2 false) ∧ extra.md.channelCount.toNat ≤ 2 := by
  decide +kernel
theorem witness_CleanEndIsFlushed : disposed.Inv ∧ disposed.CleanEnd := ⟨disposed_inv, by decide⟩
theorem witness_LastErrInformational : next? (exec (.csRead 9 1) (built false)) ≠ none ∧
    next? (exec .csEnum (built false)) ≠ none := by decide +kernel
theorem witness_ErrorsHaveNoEffect : (next? (exec (.csRead 9 1) (built false))).map (·.responses) =
    some ((built false).responses ++ [⟨3, []⟩]) := by decide +kernel
theorem witness_FilterFrame : ofContainer (.fsStep 0 0) = false ∧ next? (exec (.fsStep 0 0) filters) ≠ none ∧
    usesStage 1 (.fsStep 0 0) = false := by decide +kernel
theorem witness_ContainerFrame : ofContainer (.csRead 0 1) = true ∧ next? (exec (.csRead 0 1) (built false)) ≠ none ∧
    (built false).lookup 0 ≠ some 1 := by decide +kernel
theorem witness_MemoryFrame : next? (exec (.csClose 0) written) ≠ none ∧ ¬ written.mayStore 46 (.csClose 0) := by
  refine ⟨by decide +kernel, ?_⟩
  rintro ⟨k, c, hk, hc, p, hp, ha⟩
  have h0 : written.lookup 0 = some 0 := by decide +kernel
  rw [h0] at hk
  cases hk
  cases hc
  rcases List.mem_cons.1 hp with rfl | hp
  · exact absurd ha (by decide)
  · cases List.mem_singleton.1 hp
    exact absurd ha (by decide)

end Sys2Proof.Tests
end

/-! SUPPORT. The header parser's claims: the marker search as the first place of the marker (R143), the checks of `HP.PARSE`
before any byte is read (R140 to R142), and the table of `HP.RESOLVE` (R164 to R168). -/

namespace Sys2Proof.Machine

/-- The meaning of `HP.PARSE` (R120). -/
theorem exec_hpParse (len : Nat) (s : State) : exec (.hpParse len) s = execHpParse len s := rfl

/-- The meaning of `HP.RESOLVE` (R120). -/
theorem exec_hpResolve (s : State) : exec .hpResolve s = execHpResolve s := rfl

/-! ## The marker search -/

/-- Two first places of one marker are the same. -/
theorem FirstAt.unique {win pat : List Byte} {lo p q : Nat} (hp : FirstAt win pat lo p) (hq : FirstAt win pat lo q) :
    p = q := by
  obtain ⟨hlop, hmp, hfirstp⟩ := hp
  obtain ⟨hloq, hmq, hfirstq⟩ := hq
  rcases Nat.lt_trichotomy p q with h | h | h
  · exact absurd hmp (hfirstq p h hlop)
  · exact h
  · exact absurd hmq (hfirstp q h hloq)

/-- A place of a four-byte marker lies inside the window. -/
theorem FirstAt.add_four_le {win pat : List Byte} {lo p : Nat} (hpat : pat.length = 4) (h : FirstAt win pat lo p) :
    p + 4 ≤ win.length := by
  obtain ⟨-, hmark, -⟩ := h
  have hlen := congrArg List.length hmark
  simp only [List.length_take, List.length_drop, hpat] at hlen
  omega

/-- What the search answers is the first place of the marker. -/
theorem findMark_firstAt {win pat : List Byte} {lo p : Nat} (hpat : pat.length = 4) (h : findMark win pat lo = some p) :
    FirstAt win pat lo p := by
  obtain ⟨hlo, hmark, hfirst⟩ := (findFrom_spec hpat (win.drop lo) lo).1 p h
  rw [List.drop_drop, Nat.add_sub_cancel' hlo] at hmark
  refine ⟨hlo, hmark, fun o hop hloo => ?_⟩
  have hne := hfirst o hloo hop
  rwa [List.drop_drop, Nat.add_sub_cancel' hloo] at hne

/-- The search answers none exactly when the marker lies nowhere from `lo` on. -/
theorem findMark_eq_none {win pat : List Byte} {lo : Nat} (hpat : pat.length = 4) :
    findMark win pat lo = none ↔ ∀ o, lo ≤ o → (win.drop o).take 4 ≠ pat := by
  refine ⟨fun h o hlo => ?_, fun h => ?_⟩
  · have hne := (findFrom_spec hpat (win.drop lo) lo).2 h (o - lo)
    rwa [List.drop_drop, Nat.add_sub_cancel' hlo] at hne
  · refine Option.eq_none_iff_forall_ne_some.2 fun p hp => ?_
    obtain ⟨hlo, hmark, -⟩ := findMark_firstAt hpat hp
    exact h p hlo hmark

/-- The search answers an offset exactly when it is the first place of the marker. -/
theorem findMark_eq_some {win pat : List Byte} {lo p : Nat} (hpat : pat.length = 4) :
    findMark win pat lo = some p ↔ FirstAt win pat lo p := by
  refine ⟨findMark_firstAt hpat, fun h => ?_⟩
  cases hq : findMark win pat lo with
  | none =>
    obtain ⟨hlo, hmark, -⟩ := h
    exact absurd hmark ((findMark_eq_none hpat).1 hq p hlo)
  | some q => rw [(findMark_firstAt hpat hq).unique h]

/-- Settles O12: the scan's own law, carried from the dropped window back to window offsets; a first place is unique. -/
theorem findIsFirst : Obligations.FindIsFirst := by
  intro win pat lo hpat
  exact ⟨fun _ => findMark_eq_some hpat, fun _ h => (findMark_firstAt hpat h).add_four_le hpat, findMark_eq_none hpat⟩

/-! ## The channel mask -/

/-- The word of the `n` lowest bits with bit `n` set as well is the word of the `n + 1` lowest bits. -/
theorem lowBits_or_bit (n : Nat) : BitVec.ofNat 32 (2 ^ n - 1) ||| 1#32 <<< n = BitVec.ofNat 32 (2 ^ (n + 1) - 1) := by
  refine BitVec.eq_of_getLsbD_eq fun i hi => ?_
  simp only [← BitVec.twoPow_eq, BitVec.getLsbD_or, BitVec.getLsbD_ofNat, BitVec.getLsbD_twoPow,
    Nat.testBit_two_pow_sub_one, hi, decide_true, Bool.true_and]
  rw [← Bool.decide_and, ← Bool.decide_or, decide_eq_decide]
  omega

/-- The first `n` single-bit flags together are the word of the `n` lowest bits. -/
theorem foldl_or_flags (n : Nat) :
    ((List.range n).map fun i => 1#32 <<< i).foldl (· ||| ·) 0 = BitVec.ofNat 32 (2 ^ n - 1) := by
  induction n with
  | zero => rfl
  | succ n ih => rw [List.range_succ, List.map_append, List.foldl_append, ih]; exact lowBits_or_bit n

/-- The first `n` flags of the speaker table (R167, R171). -/
theorem speakerTable_take_foldl {n : Nat} (h : n ≤ 18) :
    (Config.params.speakerTable.take n).foldl (· ||| ·) 0 = BitVec.ofNat 32 (2 ^ n - 1) := by
  have htake : Config.params.speakerTable.take n = (List.range n).map fun i => 1#32 <<< i := by
    change ((List.range 18).map fun i => 1#32 <<< i).take n = _
    rw [← List.map_take, List.take_range, Nat.min_eq_left h]
  rw [htake, foldl_or_flags]

/-- With an explicit mask, or a count the speaker table covers, the mask is that of R164 to R167. -/
theorem resolveMask_eq_some {n : Nat} {em : Word} (h : em ≠ 0 ∨ n ≤ 18) :
    resolveMask Config.params n em = some
      (if em ≠ 0 then ⟨false, em⟩ else if n = 1 then ⟨true, 0⟩ else if n = 8 then ⟨false, 0x33F⟩
        else ⟨false, BitVec.ofNat 32 (2 ^ n - 1)⟩) := by
  unfold resolveMask
  split
  · rfl
  next hem =>
    have hn : n ≤ 18 := h.resolve_left hem
    have hlen : n ≤ Config.params.speakerTable.length := hn
    rw [speakerTable_take_foldl hn, if_pos hlen]
    split_ifs <;> rfl

/-- Without an explicit mask, a count beyond the speaker table has none (R168). -/
theorem resolveMask_eq_none {n : Nat} (h : 18 < n) : resolveMask Config.params n 0 = none := by
  have hlen : Config.params.speakerTable.length = 18 := rfl
  unfold resolveMask
  rw [if_neg (by simp), if_neg (by omega), if_neg (by omega), if_neg (by omega)]

/-- The `RM.mono` result word is 0 or 1 (R122). -/
theorem ResolvedMask.words_eq (r : ResolvedMask) : r.words = [if r.mono then 1 else 0, r.mask] := by
  obtain ⟨mono, mask⟩ := r
  cases mono <;> rfl

/-- `HP.RESOLVE` of an open container whose header has a mask. -/
theorem exec_hpResolve_of_some {s : State} {r : ResolvedMask} (ho : s.container = .opened)
    (hr : resolveMask Config.params s.md.channelCount.toNat s.explMask = some r) :
    exec .hpResolve s = .next { s.endsOk 1 0 [if r.mono then 1 else 0, r.mask] with rm := r, resolved := true } := by
  rw [← r.words_eq, exec_hpResolve, execHpResolve_eq, ho]
  simp only [hr]

/-- `HP.RESOLVE` of an open container whose header has no mask. -/
theorem exec_hpResolve_of_none {s : State} (ho : s.container = .opened)
    (hr : resolveMask Config.params s.md.channelCount.toNat s.explMask = none) :
    exec .hpResolve s = .next { s.endsIn 1 0 1 with
      container := .closed, resolved := false,
      reasons := s.reasons ++ (Config.resolveReason s.md.channelCount.toNat).toList } := by
  rw [exec_hpResolve, execHpResolve_eq, ho]
  simp only [hr]

/-- Settles O18: `HP.RESOLVE` follows `resolveMask`, whose table of flags adds up to the `n` lowest bits. -/
theorem resolveTable : Obligations.ResolveTable := by
  intro s ho
  refine ⟨fun h => exec_hpResolve_of_some ho (resolveMask_eq_some h), fun hem hn => ⟨_, exec_hpResolve_of_none ho ?_⟩⟩
  rw [hem]
  exact resolveMask_eq_none hn

/-! ## The checks of `HP.PARSE` before any byte is read -/

/-- Settles O16: the first three branches of `HP.PARSE`, in their order. -/
theorem openTimeChecks : Obligations.OpenTimeChecks := by
  intro s len
  rw [exec_hpParse, execHpParse_eq]
  refine ⟨fun ho => ?_, fun ho hp => ?_, fun ho hp hlen => ?_⟩
  · rw [if_pos ho]
  · rw [if_neg ho, if_pos hp]
  · rw [if_neg ho, if_neg (by simp [hp]), if_pos (show Config.maxStreamLen < len from hlen)]

end Sys2Proof.Machine

/-! SUPPORT. The channel streams' claims: the table of a first `CS.BUILD` in rank order (R181 to R183), positions that name no
stream (R187, R284), and the end of a stream (R190). -/

namespace Sys2Proof.Machine

/-- The meaning of `CS.BUILD` (R120). -/
theorem exec_csBuild (own : Bool) (cap : Option Nat) (s : State) : exec (.csBuild own cap) s = execCsBuild own cap s := rfl

/-- The meaning of `CS.READ` (R120). -/
theorem exec_csRead (pos count : Nat) (s : State) : exec (.csRead pos count) s = execCsRead pos count s := rfl

/-- The meaning of `CS.WRITE` (R120). -/
theorem exec_csWrite (pos len : Nat) (s : State) : exec (.csWrite pos len) s = execCsWrite pos len s := rfl

/-- The meaning of `CS.CLOSE` (R120). -/
theorem exec_csClose (pos : Nat) (s : State) : exec (.csClose pos) s = execCsClose pos s := rfl

/-! ## The capacity of a build -/

/-- The capacity is the operand, or the default (R182). -/
theorem buildCap_eq_elim (cap : Option Nat) : buildCap cap = cap.elim Config.bufCapDefault (BitVec.ofNat 32) := by
  cases cap <;> rfl

/-- The default capacity is a legal one (R8, D16). -/
theorem minCap_le_bufCapDefault : Config.minCap ≤ Config.bufCapDefault.toNat := by
  unfold Config.bufCapDefault
  split
  case isTrue => decide
  case isFalse h => exact Nat.le_of_not_lt h

/-- A legal capacity operand that fits a word gives a legal capacity (R182). -/
theorem minCap_le_buildCap {cap : Option Nat} (h : ∀ n, cap = some n → Config.minCap ≤ n ∧ n < 2 ^ 32) :
    Config.minCap ≤ (buildCap cap).toNat := by
  cases cap with
  | none => exact minCap_le_bufCapDefault
  | some n =>
    obtain ⟨hlo, hhi⟩ := h n rfl
    rwa [buildCap, BitVec.toNat_ofNat, Nat.mod_eq_of_lt hhi]

/-- A first `CS.BUILD` with a legal capacity creates the fresh streams of the mask's positions (R181 to R183). -/
theorem exec_csBuild_of_unbuilt {s : State} (own : Bool) {cap : Option Nat} (ho : s.container = .opened)
    (hr : s.resolved = true) (hb : s.built = false) (hc : Config.minCap ≤ (buildCap cap).toNat) :
    exec (.csBuild own cap) s =
      let table := s.rm.positions.map (ChannelStream.fresh (buildCap cap) own)
      .next { s.endsOk (encode (.csBuild own cap)).length 0 [BitVec.ofNat 32 table.length] with
        built := true, streams := table } := by
  rw [exec_csBuild, execCsBuild_eq own cap ho]
  dsimp only
  rw [if_neg (by simp [hr]), if_neg (Nat.not_lt.2 hc), if_neg (by simp [hb])]

/-! ## The positions of a mask -/

theorem ResolvedMask.positions_of_mono {r : ResolvedMask} (h : r.mono = true) : r.positions = [32] := if_pos h

theorem ResolvedMask.positions_of_not_mono {r : ResolvedMask} (h : r.mono = false) :
    r.positions = (List.range 32).filter fun i => r.mask.getLsbD i := if_neg (by simp [h])

/-- A word that is not 0 has a bit that is 1. -/
theorem popcount_pos {w : Word} (h : w ≠ 0) : 1 ≤ popcount w := by
  obtain ⟨i, hi, hbit⟩ : ∃ i < 32, w.getLsbD i = true := by
    by_contra hno
    push Not at hno
    exact h (BitVec.eq_of_getLsbD_eq fun i hi => by simpa using hno i hi)
  exact List.length_pos_of_mem (List.mem_filter.2 ⟨List.mem_range.2 hi, hbit⟩)

theorem popcount_le (w : Word) : popcount w ≤ 32 := (List.length_filter_le _ _).trans_eq List.length_range

/-- An exclusive mask has 1 to 32 positions (R42, R183). -/
theorem ResolvedMask.Exclusive.positions_length {r : ResolvedMask} (h : r.Exclusive) :
    1 ≤ r.positions.length ∧ r.positions.length ≤ 32 := by
  rcases h with ⟨hm, -⟩ | ⟨hm, hmask⟩
  · simp [ResolvedMask.positions_of_mono hm]
  · rw [ResolvedMask.positions_of_not_mono hm]
    exact ⟨popcount_pos hmask, popcount_le r.mask⟩

/-- The set bits below bit `i` are counted by `popcount(w AND (2^i - 1))`, the rank of bit `i` (R183). -/
theorem popcount_and_lowBits (w : Word) {i : Nat} (hi : i ≤ 32) :
    popcount (w &&& BitVec.ofNat 32 (2 ^ i - 1)) = ((List.range i).filter fun j => w.getLsbD j).length := by
  have hlow : (List.range 32).filter (fun j => decide (j < i)) = List.range i := by
    rw [← List.Ico.zero_bot, List.Ico.filter_lt, Nat.min_eq_right hi, List.Ico.zero_bot]
  rw [popcount, ← hlow, List.filter_filter]
  refine congrArg List.length (List.filter_congr fun j hj => ?_)
  have hj32 : j < 32 := List.mem_range.1 hj
  simp only [BitVec.getLsbD_and, BitVec.getLsbD_ofNat, Nat.testBit_two_pow_sub_one, hj32, decide_true, Bool.true_and]

/-- Among the numbers below `n` that satisfy `p`, the slot of `i` is how many smaller ones satisfy it. -/
theorem getElem?_filter_range_rank {p : Nat → Bool} {n i : Nat} (hi : i < n) (hp : p i = true) :
    ((List.range n).filter p)[((List.range i).filter p).length]? = some i := by
  obtain ⟨m, rfl⟩ : ∃ m, n = i + (m + 1) := ⟨n - i - 1, by omega⟩
  rw [List.range_add, List.filter_append, List.getElem?_append_right (Nat.le_refl _), Nat.sub_self, List.range_succ_eq_map]
  simp [hp]

/-- In the enumeration order, a set bit stands at its rank (R183). -/
theorem ResolvedMask.positions_getElem?_rank {r : ResolvedMask} {i : Nat} (hm : r.mono = false) (hi : i < 32)
    (hbit : r.mask.getLsbD i = true) : r.positions[popcount (r.mask &&& BitVec.ofNat 32 (2 ^ i - 1))]? = some i := by
  rw [popcount_and_lowBits r.mask (Nat.le_of_lt hi), ResolvedMask.positions_of_not_mono hm]
  exact getElem?_filter_range_rank hi hbit

/-- Settles O20: the table is `positions` mapped to fresh streams, and in `positions` a set bit stands at its rank. -/
theorem buildCreates : Obligations.BuildCreates := by
  intro s own cap ho hr hb hcap
  have hmin := minCap_le_buildCap hcap
  rw [← buildCap_eq_elim]
  refine ⟨hmin, _, exec_csBuild_of_unbuilt own ho hr hb hmin, fun hx => ?_, fun hm => ?_,
    fun hm => ⟨?_, fun i hi hbit => ?_⟩⟩
  · rw [List.length_map]
    exact hx.positions_length
  · rw [ResolvedMask.positions_of_mono hm]
    rfl
  · rw [List.length_map, ResolvedMask.positions_of_not_mono hm]
    rfl
  · rw [List.getElem?_map, ResolvedMask.positions_getElem?_rank hm hi hbit]
    rfl

/-! ## Positions that name no stream -/

/-- The lookup answers none exactly when no stream has the position (R187). -/
theorem State.lookup_eq_none {s : State} {pos : Nat} : s.lookup pos = none ↔ ∀ c ∈ s.streams, c.pos.toNat ≠ pos := by
  simp [State.lookup, List.findIdx?_eq_none_iff]

/-- A position that names no stream of an open, built container is a missing channel (R187). -/
theorem State.findStream_of_lookup_none {s : State} {pos : Nat} (ho : s.container = .opened) (hb : s.built = true)
    (hl : s.lookup pos = none) : s.findStream pos = .error .missingChannel := by
  simp [State.findStream, State.streamCheck, ho, hb, hl]

/-- `CS.READ` at a position where no stream is found ends in the error of the search. -/
theorem exec_csRead_of_error {s : State} {pos count : Nat} {e : ErrorCode} (h : s.findStream pos = .error e) :
    exec (.csRead pos count) s = .next (s.endsIn 2 0 e.code.toNat) := by
  rw [exec_csRead, execCsRead_eq, h]

/-- `CS.WRITE` in an open container, at a position where no stream is found, ends in the error of the search. -/
theorem exec_csWrite_of_error {s : State} {pos len : Nat} {e : ErrorCode} (ho : s.container = .opened)
    (hr : s.Ready (.csWrite pos len)) (h : s.findStream pos = .error e) :
    exec (.csWrite pos len) s = .next (s.endsIn 2 (s.rawWords * len) e.code.toNat) := by
  rw [exec_csWrite, execCsWrite_eq hr]
  simp only [h]
  rw [if_neg (by simp [ho])]

/-- `CS.CLOSE` of a built table at a position that names no stream. -/
theorem exec_csClose_of_lookup_none {s : State} {pos : Nat} (ho : s.container ≠ .closed) (hb : s.built = true)
    (hl : s.lookup pos = none) : exec (.csClose pos) s = .next (s.endsIn 1 0 3) := by
  rw [exec_csClose, execCsClose_eq, if_neg (by simp [ho, hb]), hl]

/-- Every stream of a table that meets the invariants has a position code of at most 32 (R118, R183). -/
theorem State.Inv.stream_pos_le {s : State} (h : s.Inv) : ∀ c ∈ s.streams, c.pos.toNat ≤ 32 := by
  intro c hc
  obtain ⟨-, -, ⟨hbuilt, hunbuilt, -⟩, -⟩ := h
  cases hb : s.built with
  | false => simp [hunbuilt hb] at hc
  | true =>
    obtain ⟨-, hpos⟩ := hbuilt hb
    exact s.rm.positions_le _ (hpos ▸ List.mem_map_of_mem hc)

/-- Settles O26: the three commands take the branch of a lookup that answers none, and the invariants bound every position. -/
theorem missingChannel : Obligations.MissingChannel := by
  refine ⟨fun _ _ _ h => State.lookup_eq_some h, fun s pos n ho hb hno => ?_, fun s pos ho hb hno => ?_,
    fun s pos hinv hpos c hc => ?_⟩
  · have hl : s.lookup pos = none := State.lookup_eq_none.2 hno
    have hf := State.findStream_of_lookup_none ho hb hl
    exact ⟨hl, exec_csRead_of_error hf, fun hr => exec_csWrite_of_error ho hr hf⟩
  · exact exec_csClose_of_lookup_none ho hb (State.lookup_eq_none.2 hno)
  · exact Nat.ne_of_lt ((hinv.stream_pos_le c hc).trans_lt hpos)

/-! ## The end of a stream -/

/-- Settles O25: the stream is found inside the frame, and the count is more than `N_FRAMES - cursor`. -/
theorem endOfStream : Obligations.EndOfStream := by
  intro s pos count k c hfind hk hcount
  rw [exec_csRead, execCsRead_eq, State.findStream_eq_ok.2 hfind]
  exact (if_neg (Nat.not_le.2 hk)).trans (if_pos hcount)

end Sys2Proof.Machine

/-! SUPPORT. The filter stages' claims: one sample through a stage with coefficients (R230 to R233), and the units that refuse
because they have none (R234, R264). -/

namespace Sys2Proof.Machine

/-- The meaning of `FS.STEP` (R120). -/
theorem exec_fsStep (stage : Nat) (x : Num64) (s : State) : exec (.fsStep stage x) s = execFsStep stage x s := rfl

/-- The meaning of `FS.RUN` (R120). -/
theorem exec_fsRun (stage len : Nat) (s : State) : exec (.fsRun stage len) s = execFsRun stage len s := rfl

/-- The meaning of `XF.APPLY` (R120). -/
theorem exec_xfApply (f : Nat) (fc : Num64) (len : Nat) (s : State) : exec (.xfApply f fc len) s = execXfApply f fc len s := rfl

/-! ## A stage with coefficients -/

/-- A stage with coefficients runs a buffer (R230, R236). -/
theorem State.runStage_of_coef {s : State} {stage : Nat} {g : Stage} {c : Coef Num64} (hg : s.stages[stage]? = some g)
    (hc : g.coef? = some c) (n m : Nat) (xs : List Num64) : (s.accept n m).runStage stage xs =
      let r := biquadRun binary64At c s.draws g.hist xs
      { s.endsOk n m (wordsOfNums r.1) with
        stages := s.stages.set stage (g.ran c r.2 xs.length), draws := s.draws + xs.length } := by
  rw [State.runStage_eq, hg]
  simp only [hc]

/-- A buffer of one sample: its output, and the history shifted by it (R231, R232). -/
theorem biquadRun_singleton {α : Type} (ops : Nat → NumOps α) (c : Coef α) (d : Nat) (h : History α) (x : α) :
    biquadRun ops c d h [x] = ([biquadOut (ops d) c h x], h.push x (biquadOut (ops d) c h x)) := rfl

/-- `FS.STEP` on a stage with coefficients (R230 to R233). -/
theorem exec_fsStep_of_coef {s : State} {stage : Nat} {g : Stage} {c : Coef Num64} (hg : s.stages[stage]? = some g)
    (hc : g.coef? = some c) (x : Num64) : exec (.fsStep stage x) s =
      let y := biquadOut (binary64At s.draws) c g.hist x
      .next { s.endsOk 3 0 (wordsOfNum y) with
        stages := s.stages.set stage ⟨.running c, g.hist.push x y⟩, draws := s.draws + 1 } := by
  rw [exec_fsStep, execFsStep_eq, State.runStage_of_coef hg hc, biquadRun_singleton]
  rfl

/-- Settles O37: `FS.STEP` is a run of one sample, whose output is `biquadOut` over binary64 with the NaN drawn. -/
theorem stepFilters : Obligations.StepFilters := by
  intro s stage x g c hg hc
  exact ⟨nanOf (Config.freeNaNBits s.draws), biquadOut (binary64At s.draws) c g.hist x, s.draws + 1, nanOf_isNaN _, rfl,
    exec_fsStep_of_coef hg hc x⟩

/-! ## Units without coefficients -/

/-- A stage without coefficients refuses a buffer (R234). -/
theorem State.runStage_of_no_coef {s : State} {stage : Nat} {g : Stage} (hg : s.stages[stage]? = some g)
    (hc : g.coef? = none) (n m : Nat) (xs : List Num64) : (s.accept n m).runStage stage xs = s.endsIn n m 8 := by
  rw [State.runStage_eq, hg]
  simp only [hc]

/-- Both stages of a crossover exist (R57). -/
theorem State.FilterInv.exists_stages {s : State} {f : Nat} {x : Crossover} (h : s.FilterInv)
    (hx : s.xovers[f]? = some x) : ∃ g₁ g₂, s.stages[2 * f]? = some g₁ ∧ s.stages[2 * f + 1]? = some g₂ := by
  obtain ⟨-, -, hlen⟩ := h
  obtain ⟨hf, -⟩ := List.getElem?_eq_some_iff.1 hx
  exact ⟨_, _, List.getElem?_eq_getElem (by omega), List.getElem?_eq_getElem (by omega)⟩

/-- `XF.APPLY` refuses on a crossover that was never initialised (R264). -/
theorem exec_xfApply_of_not_inited {s : State} {f len : Nat} {x : Crossover} {g₁ g₂ : Stage} (fc : Num64)
    (hx : s.xovers[f]? = some x) (h₁ : s.stages[2 * f]? = some g₁) (h₂ : s.stages[2 * f + 1]? = some g₂)
    (hi : x.inited = false) (hr : s.Ready (.xfApply f fc len)) :
    exec (.xfApply f fc len) s = .next (s.endsIn 4 (2 * len) 8) := by
  rw [exec_xfApply, execXfApply_eq hr, hx, h₁, h₂]
  exact if_neg (by simp [hi])

/-- Settles O40: the stage commands refuse by the state check of the stage, `XF.APPLY` by that of the crossover, whose stages
exist by the invariant. -/
theorem unboundRefused : Obligations.UnboundRefused := by
  refine ⟨fun s stage len x g hg hc => ⟨?_, fun hr => ?_⟩, fun s f len fc x hinv hx hi hr => ?_⟩
  · rw [exec_fsStep, execFsStep_eq, State.runStage_of_no_coef hg hc]
  · rw [exec_fsRun, execFsRun_eq hr, State.runStage_of_no_coef hg hc]
  · obtain ⟨g₁, g₂, h₁, h₂⟩ := hinv.exists_stages hx
    exact exec_xfApply_of_not_inited fc hx h₁ h₂ hi hr

end Sys2Proof.Machine

/-! SUPPORT. The crossover's claim: what `XF.INIT` rejects and what it constructs (R252, R253). -/

namespace Sys2Proof.Machine

/-- The meaning of `XF.INIT` (R120). -/
theorem exec_xfInit (f : Nat) (kind : FilterKind) (fs : Num64) (s : State) :
    exec (.xfInit f kind fs) s = execXfInit f kind fs s := rfl

/-! ## Sample rates -/

/-- The largest exponent holds the NaNs and the infinities: the fraction only tells the two apart (R123). -/
theorem numIsNaN_or_numIsInf (x : Num64) : (numIsNaN x || numIsInf x) = !numIsFinite x := by
  unfold numIsNaN numIsInf numIsFinite
  cases hf : numFrac x == 0 <;> simp [bne, hf]

/-- The numbers that are not positive are the four sorts R252 lists. -/
theorem not_numPositive (x : Num64) :
    (!numPositive x) = (numIsNaN x || numIsInf x || numSign x || numIsZero x) := by
  rw [numIsNaN_or_numIsInf, numPositive, numIsZero, bne]
  cases numIsFinite x
  case false => rfl
  case true => simp

/-! ## Construction -/

/-- `XF.INIT` on an existing crossover takes a positive sample rate. -/
theorem exec_xfInit_of_positive {s : State} {f : Nat} {fs : Num64} (kind : FilterKind) (hf : f < s.xovers.length)
    (hp : numPositive fs = true) : exec (.xfInit f kind fs) s = .next { s.endsOk 3 0 [] with
      xovers := s.xovers.set f ⟨true, kind, fs⟩
      stages := (s.stages.set (2 * f) Stage.fresh).set (2 * f + 1) Stage.fresh } := by
  rw [exec_xfInit, execXfInit_eq, if_neg (by omega), if_neg (by simp [hp])]

/-- `XF.INIT` rejects every other sample rate, whether or not the crossover exists. -/
theorem exec_xfInit_of_not_positive {s : State} {f : Nat} {fs : Num64} (kind : FilterKind) (hp : numPositive fs = false) :
    exec (.xfInit f kind fs) s = .next (s.endsIn 3 0 2) := by
  rw [exec_xfInit, execXfInit_eq, if_pos hp, ite_self]

/-- Settles O42: the index check, then the range check, whose complement is `numPositive`. -/
theorem initConstructs : Obligations.InitConstructs := by
  refine fun s f kind fs => ⟨fun hf => ?_, fun hf => ?_⟩
  · rw [exec_xfInit, execXfInit_eq, if_pos hf]
  · rw [← not_numPositive]
    cases hp : numPositive fs with
    | false => exact exec_xfInit_of_not_positive kind hp
    | true => exact exec_xfInit_of_positive kind hf hp

end Sys2Proof.Machine

/-! SUPPORT. The exceptions' claims: use after a disposal or a close (R201, R288), and that `LASTERR` is written by errors only
and read by nothing (R43, R292). -/

namespace Sys2Proof.Machine

/-- The meaning of `CS.ENUM` (R120). -/
theorem exec_csEnum (s : State) : exec .csEnum s = execCsEnum s := rfl

/-! ## Use after a disposal or a close -/

/-- The checks of R180 on a disposed container. -/
theorem State.streamCheck_of_disposed {s : State} (h : s.container = .disposed) : s.streamCheck = some .disposed := by
  rw [State.streamCheck, h]

/-- No stream of a disposed container is found (R201). -/
theorem State.findStream_of_disposed {s : State} (pos : Nat) (h : s.container = .disposed) :
    s.findStream pos = .error .disposed := by
  rw [State.findStream, State.streamCheck_of_disposed h]

/-- A closed stream of an open container is found to be disposed (R201, R288). -/
theorem State.findStream_of_closed {s : State} {pos k : Nat} {c : ChannelStream} (ho : s.container = .opened)
    (hb : s.built = true) (hl : s.lookup pos = some k) (hk : s.streams[k]? = some c) (hc : c.closed = true) :
    s.findStream pos = .error .disposed := by
  simp [State.findStream, State.streamCheck, ho, hb, hl, hk, hc]

/-- `CS.WRITE` while the width of a raw sample is specified, at a position where no stream is found, ends in the error of the
search. -/
theorem exec_csWrite_of_error_of_not_closed {s : State} {pos len : Nat} {e : ErrorCode} (hc : s.container ≠ .closed)
    (hr : s.Ready (.csWrite pos len)) (h : s.findStream pos = .error e) :
    exec (.csWrite pos len) s = .next (s.endsIn 2 (s.rawWords * len) e.code.toNat) := by
  rw [exec_csWrite, execCsWrite_eq hr]
  simp only [h]
  rw [if_neg hc]

/-- Settles O32: every command's first check is of the container, and the search for a stream ends in `Disposed` both on a
disposed container and at a closed stream. -/
theorem useAfterDispose : Obligations.UseAfterDispose := by
  refine ⟨fun s hd => ⟨?_, ?_, fun own cap => ?_, fun pos n => ?_, fun pos n hr => ?_⟩,
    fun s pos k n c ho hb hl hk hc => ?_⟩
  · rw [exec_hpResolve, execHpResolve_eq, hd]
  · rw [exec_csEnum, execCsEnum_eq, State.streamCheck_of_disposed hd]
    rfl
  · rw [exec_csBuild, execCsBuild_refused own cap (by simp [hd]), if_pos hd]
  · exact exec_csRead_of_error (State.findStream_of_disposed pos hd)
  · exact exec_csWrite_of_error_of_not_closed (by simp [hd]) hr (State.findStream_of_disposed pos hd)
  · have hf := State.findStream_of_closed ho hb hl hk hc
    exact ⟨exec_csRead_of_error hf, fun hr => exec_csWrite_of_error ho hr hf⟩

/-! ## `LASTERR` -/

/-- The state with `e` in `LASTERR`. -/
abbrev State.withLastErr (s : State) (e : BitVec 4) : State := { s with lastErr := e }

/-- What a command may answer from a state and from its twin, the same state with `e` in `LASTERR`: it waits in both; or it ends
`OK` and leaves each `LASTERR` as it was; or it ends in one error and the two states are one from then on; or it stops in both
for one reason. -/
inductive LastErrTwins (s : State) (e : BitVec 4) :
    Host.Outcome State Fault Refusal → Host.Outcome State Fault Refusal → Prop
  | waits : LastErrTwins s e (.next s) (.next (s.withLastErr e))
  | ok {t : State} (ws : List Word) (herr : t.lastErr = s.lastErr) (hresp : t.responses = s.responses ++ [okResponse ws]) :
      LastErrTwins s e (.next t) (.next (t.withLastErr e))
  | error {t : State} (code : ErrorCode) (herr : t.lastErr = code.code)
      (hresp : t.responses = s.responses ++ [errorResponse code]) : LastErrTwins s e (.next t) (.next t)
  | fault (r : Fault) : LastErrTwins s e (.fault r) (.fault r)
  | refused (r : Refusal) : LastErrTwins s e (.refused r) (.refused r)

namespace LastErrTwins

variable {s : State} {e : BitVec 4} {o o' u u' : Host.Outcome State Fault Refusal}

/-- A check that both twins make alike. -/
theorem ite {p : Prop} [Decidable p] (hp : p → LastErrTwins s e o o') (hn : ¬ p → LastErrTwins s e u u') :
    LastErrTwins s e (if p then o else u) (if p then o' else u') := by
  split
  case isTrue h => exact hp h
  case isFalse h => exact hn h

/-- An error end whose code and response are written as numbers (R281, R290). -/
theorem raised {t : State} (code : ErrorCode) (herr : t.lastErr = BitVec.ofNat 4 code.code.toNat)
    (hresp : t.responses = s.responses ++ [⟨BitVec.ofNat 32 code.code.toNat, []⟩]) :
    LastErrTwins s e (.next t) (.next t) := by
  refine error code (herr.trans ?_) (hresp.trans ?_) <;> cases code <;> rfl

/-- `LASTERR` is written with the code of the response, and by an error only (R43, R292). -/
theorem writes {t : State} (h : LastErrTwins s e (.next t) o) :
    (t.lastErr = s.lastErr ∧ (t.responses = s.responses ∨ ∃ ws, t.responses = s.responses ++ [⟨0, ws⟩])) ∨
      (t.lastErr ≠ 0 ∧ t.responses = s.responses ++ [⟨t.lastErr.zeroExtend 32, []⟩]) := by
  cases h with
  | waits => exact .inl ⟨rfl, .inl rfl⟩
  | ok ws herr hresp => exact .inl ⟨herr, .inr ⟨ws, hresp⟩⟩
  | error code herr hresp =>
    refine .inr ⟨?_, herr ▸ hresp⟩
    rw [herr]
    cases code <;> decide

/-- The twin of a next state differs from it in `LASTERR` at most. -/
theorem next {t : State} (h : LastErrTwins s e (.next t) o) : ∃ e', o = .next (t.withLastErr e') := by
  cases h with
  | waits => exact ⟨e, rfl⟩
  | ok => exact ⟨e, rfl⟩
  | error => exact ⟨t.lastErr, rfl⟩

/-- The twin of a fault is the same fault. -/
theorem eq_fault {r : Fault} (h : LastErrTwins s e (.fault r) o) : o = .fault r := by
  cases h
  rfl

/-- The twin of a refusal is the same refusal. -/
theorem eq_refused {r : Refusal} (h : LastErrTwins s e (.refused r) o) : o = .refused r := by
  cases h
  rfl

end LastErrTwins

/-! ## The commands, from a state and from its twin -/

section
variable (s : State) (e : BitVec 4)

theorem execHpParse_lastErrTwins (len : Nat) :
    LastErrTwins s e (execHpParse len s) (execHpParse len (s.withLastErr e)) := by
  have hb (n : Nat) : (s.withLastErr e).bytesAt 0 n = s.bytesAt 0 n :=
    State.bytesAt_congr (s := s) (t := s.withLastErr e) (fun _ => rfl) 0 n
  rw [execHpParse_eq, execHpParse_eq, hb]
  refine .ite (fun _ => .error .illegalCommand rfl rfl) fun _ => .ite (fun _ => .error .notFound rfl rfl) fun _ =>
    .ite (fun _ => .error .fileTooLarge rfl rfl) fun _ => ?_
  cases s.bytesAt 0 (min Config.winBytes len) with
  | none => exact .fault _
  | some w =>
    dsimp only
    cases parseHeader Config.params w len with
    | error r => exact .error .unrecognisedFormat rfl rfl
    | ok h => exact .ok h.md.words rfl rfl

theorem execHpResolve_lastErrTwins : LastErrTwins s e (execHpResolve s) (execHpResolve (s.withLastErr e)) := by
  have hc : (s.withLastErr e).container = s.container := rfl
  rw [execHpResolve_eq, execHpResolve_eq, hc]
  cases s.container with
  | closed => exact .error .illegalCommand rfl rfl
  | disposed => exact .error .disposed rfl rfl
  | opened =>
    cases resolveMask Config.params s.md.channelCount.toNat s.explMask with
    | none => exact .error .unrecognisedFormat rfl rfl
    | some r => exact .ok r.words rfl rfl

theorem execCsBuild_lastErrTwins (own : Bool) (cap : Option Nat) :
    LastErrTwins s e (execCsBuild own cap s) (execCsBuild own cap (s.withLastErr e)) := by
  by_cases ho : s.container = .opened
  · rw [execCsBuild_eq own cap ho, execCsBuild_eq own cap (s := s.withLastErr e) ho]
    refine .ite (fun _ => .error .illegalCommand rfl rfl) fun _ => .ite (fun _ => .error .argumentRange rfl rfl) fun _ =>
      .ite (fun _ => ?_) fun _ => .ok _ rfl rfl
    dsimp only
    cases s.stream.writeAll s.streamLen.toNat (s.streams.flatMap ChannelStream.openWb) with
    | none => exact .fault _
    | some m => exact .ok _ rfl rfl
  · rw [execCsBuild_refused own cap ho, execCsBuild_refused own cap (s := s.withLastErr e) ho]
    dsimp only
    split
    · exact .error .disposed rfl rfl
    · exact .error .illegalCommand rfl rfl

theorem execCsEnum_lastErrTwins : LastErrTwins s e (execCsEnum s) (execCsEnum (s.withLastErr e)) := by
  have hc : (s.withLastErr e).streamCheck = s.streamCheck := rfl
  rw [execCsEnum_eq, execCsEnum_eq, hc]
  cases s.streamCheck with
  | some code => exact .raised code rfl rfl
  | none => exact .ok s.enumWords rfl rfl

theorem execCsRead_lastErrTwins (pos count : Nat) :
    LastErrTwins s e (execCsRead pos count s) (execCsRead pos count (s.withLastErr e)) := by
  have hf : (s.withLastErr e).findStream pos = s.findStream pos := rfl
  have hr (k n : Nat) : (s.withLastErr e).readSamples k n count = s.readSamples k n count :=
    State.readSamples_congr (s := s) (t := s.withLastErr e) (fun _ => rfl) rfl rfl rfl k n count
  rw [execCsRead_eq, execCsRead_eq, hf]
  cases s.findStream pos with
  | error code => exact .raised code rfl rfl
  | ok found =>
    obtain ⟨k, c⟩ := found
    refine .ite (fun _ => .refused _) fun _ => .ite (fun _ => .error .endOfStream rfl rfl) fun _ => ?_
    rw [hr]
    cases s.readSamples k c.cursor.toNat count with
    | none => exact .fault _
    | some vs => exact .ok _ rfl rfl

theorem execCsWrite_lastErrTwins (pos len : Nat) :
    LastErrTwins s e (execCsWrite pos len s) (execCsWrite pos len (s.withLastErr e)) := by
  by_cases hr : s.Ready (.csWrite pos len)
  case neg =>
    rw [execCsWrite_waits hr, execCsWrite_waits (s := s.withLastErr e) hr]
    exact .waits
  have hf : (s.withLastErr e).findStream pos = s.findStream pos := rfl
  have hw : (s.withLastErr e).rawWords = s.rawWords := rfl
  have hq (k cap n : Nat) (vs : List Nat) (m : Memory) (wb : List Host.Cell) :
      (s.withLastErr e).queueSamples k cap n vs m wb = s.queueSamples k cap n vs m wb :=
    State.queueSamples_congr (s := s) (t := s.withLastErr e) rfl rfl rfl k cap n vs m wb
  rw [execCsWrite_eq hr, execCsWrite_eq (s := s.withLastErr e) hr]
  dsimp only
  rw [hf, hw]
  cases s.findStream pos with
  | error code => exact .raised code rfl rfl
  | ok found =>
    obtain ⟨k, c⟩ := found
    refine .ite (fun _ => .error .argumentRange rfl rfl) fun _ => .ite (fun _ => .refused _) fun _ =>
      .ite (fun _ => .refused _) fun _ => ?_
    rw [hq]
    cases (s.queueSamples k c.cap.toNat c.cursor.toNat (rawsOfWords s.rawWords len s.bufIn) s.stream c.wb).bind fun q =>
        flushIf (Config.earlyFlush s.draws) s.streamLen.toNat q.1 q.2 with
    | none => exact .fault _
    | some r => exact .ok [] rfl rfl

theorem execCsClose_lastErrTwins (pos : Nat) :
    LastErrTwins s e (execCsClose pos s) (execCsClose pos (s.withLastErr e)) := by
  have hl : (s.withLastErr e).lookup pos = s.lookup pos := rfl
  rw [execCsClose_eq, execCsClose_eq, hl]
  refine .ite (fun _ => .error .illegalCommand rfl rfl) fun _ => ?_
  cases s.lookup pos with
  | none => exact .error .missingChannel rfl rfl
  | some k =>
    dsimp only
    cases s.streams[k]? with
    | none => exact .ok [] rfl rfl
    | some c =>
      dsimp only
      cases s.stream.writeAll s.streamLen.toNat c.openWb with
      | none => exact .fault _
      | some m => exact .ok [] rfl rfl

theorem execCsDispose_lastErrTwins : LastErrTwins s e (execCsDispose s) (execCsDispose (s.withLastErr e)) := by
  rw [execCsDispose_eq, execCsDispose_eq]
  refine .ite (fun _ => ?_) fun _ => .ok [] rfl rfl
  dsimp only
  cases s.stream.writeAll s.streamLen.toNat (s.streams.flatMap ChannelStream.openWb) with
  | none => exact .fault _
  | some m => exact .ok [] rfl rfl

theorem execFsBind_lastErrTwins (stage : Nat) (kind : FilterKind) (fs fc : Num64) :
    LastErrTwins s e (execFsBind stage kind fs fc s) (execFsBind stage kind fs fc (s.withLastErr e)) := by
  rw [execFsBind_eq, execFsBind_eq]
  dsimp only
  cases s.stages[stage]? with
  | none => exact .error .argumentRange rfl rfl
  | some g => exact .ok [] rfl rfl

/-- `FS.STEP` and `FS.RUN` once their words are taken. -/
theorem State.runStage_lastErrTwins (n m stage : Nat) (xs : List Num64) :
    LastErrTwins s e (.next ((s.accept n m).runStage stage xs))
      (.next (((s.withLastErr e).accept n m).runStage stage xs)) := by
  rw [State.runStage_eq, State.runStage_eq]
  dsimp only
  cases s.stages[stage]? with
  | none => exact .error .argumentRange rfl rfl
  | some g =>
    dsimp only
    cases g.coef? with
    | none => exact .error .illegalCommand rfl rfl
    | some c => exact .ok _ rfl rfl

theorem execFsRun_lastErrTwins (stage len : Nat) :
    LastErrTwins s e (execFsRun stage len s) (execFsRun stage len (s.withLastErr e)) := by
  by_cases hr : s.Ready (.fsRun stage len)
  · rw [execFsRun_eq hr, execFsRun_eq (s := s.withLastErr e) hr]
    exact State.runStage_lastErrTwins s e 2 (2 * len) stage _
  · rw [execFsRun_waits hr, execFsRun_waits (s := s.withLastErr e) hr]
    exact .waits

theorem execXfInit_lastErrTwins (f : Nat) (kind : FilterKind) (fs : Num64) :
    LastErrTwins s e (execXfInit f kind fs s) (execXfInit f kind fs (s.withLastErr e)) := by
  rw [execXfInit_eq, execXfInit_eq]
  exact .ite (fun _ => .error .argumentRange rfl rfl) fun _ =>
    .ite (fun _ => .error .argumentRange rfl rfl) fun _ => .ok [] rfl rfl

theorem execXfApply_lastErrTwins (f : Nat) (fc : Num64) (len : Nat) :
    LastErrTwins s e (execXfApply f fc len s) (execXfApply f fc len (s.withLastErr e)) := by
  by_cases hr : s.Ready (.xfApply f fc len)
  case neg =>
    rw [execXfApply_waits hr, execXfApply_waits (s := s.withLastErr e) hr]
    exact .waits
  rw [execXfApply_eq hr, execXfApply_eq (s := s.withLastErr e) hr]
  dsimp only
  split
  · exact .ite (fun _ => .ok _ rfl rfl) fun _ => .error .illegalCommand rfl rfl
  · exact .error .argumentRange rfl rfl

/-- No command reads `LASTERR`, and every command writes it as R43 and R292 say. -/
theorem exec_lastErr (i : Instr) : LastErrTwins s e (exec i s) (exec i (s.withLastErr e)) := by
  cases i with
  | hpParse len => exact execHpParse_lastErrTwins s e len
  | hpResolve => exact execHpResolve_lastErrTwins s e
  | csBuild own cap => exact execCsBuild_lastErrTwins s e own cap
  | csEnum => exact execCsEnum_lastErrTwins s e
  | csRead pos count => exact execCsRead_lastErrTwins s e pos count
  | csWrite pos len => exact execCsWrite_lastErrTwins s e pos len
  | csClose pos => exact execCsClose_lastErrTwins s e pos
  | csDispose => exact execCsDispose_lastErrTwins s e
  | fsBind stage kind fs fc => exact execFsBind_lastErrTwins s e stage kind fs fc
  | fsStep stage x => exact State.runStage_lastErrTwins s e 3 0 stage [x]
  | fsRun stage len => exact execFsRun_lastErrTwins s e stage len
  | xfInit f kind fs => exact execXfInit_lastErrTwins s e f kind fs
  | xfApply f fc len => exact execXfApply_lastErrTwins s e f fc len

end

/-- Settles O55: a command run from a state and from its twin answers alike, case by case of `LastErrTwins`. -/
theorem lastErrInformational : Obligations.LastErrInformational := by
  refine ⟨fun i s t ht => ?_, fun i s e => ⟨fun t ht => ?_, fun r hr => ?_, fun r hr => ?_⟩⟩
  · exact (ht ▸ exec_lastErr s 0 i).writes
  · exact (ht ▸ exec_lastErr s e i).next
  · exact (hr ▸ exec_lastErr s e i).eq_fault
  · exact (hr ▸ exec_lastErr s e i).eq_refused

end Sys2Proof.Machine

/-! SUPPORT. The command port's claims: the decoder and the encoder are inverse (R119 to R121, R123), at most one row is selected
(R120), and what a step does with the words at the front of the port (R125, R322). -/

namespace Sys2Proof.Machine

/-! ## Fields of a command word -/

/-- Every mask covers the opcode byte and the 14 bits that are always 0; those 14 are 0 in the
pattern (R119, R120). -/
theorem opcTable_fields : ∀ r ∈ opcTable,
    r.mask.extractLsb' 24 8 = BitVec.allOnes 8 ∧ r.mask.extractLsb' 2 14 = BitVec.allOnes 14 ∧
      r.pattern.extractLsb' 2 14 = 0 := by decide

/-- No two rows share the opcode byte (R120). -/
theorem opcTable_opcode_inj : ∀ r ∈ opcTable, ∀ r' ∈ opcTable,
    r.pattern.extractLsb' 24 8 = r'.pattern.extractLsb' 24 8 → r = r' := by decide

/-- A field that a row's mask covers is the pattern's in every word that selects the row. -/
theorem extract_of_selects {w mask pattern : Word} {start len : Nat} (hmask : mask.extractLsb' start len = BitVec.allOnes len)
    (h : w &&& mask = pattern) : w.extractLsb' start len = pattern.extractLsb' start len := by
  rw [← h, BitVec.extractLsb'_and, hmask, BitVec.and_allOnes]

/-- A bit that a row's mask covers is the pattern's in every word that selects the row. -/
theorem bit_of_selects {w mask pattern : Word} {i : Nat} (hmask : mask.getLsbD i = true) (h : w &&& mask = pattern) :
    w.getLsbD i = pattern.getLsbD i := by
  rw [← h, BitVec.getLsbD_and, hmask, Bool.and_true]

/-- A word whose bits 15:2 are 0 is the command word of its own fields (R119). -/
theorem commandWord_fields {w : Word} (h : w.extractLsb' 2 14 = 0) :
    commandWord (w.extractLsb' 24 8) (idxField w) (capvField w) (flagField w) = w := by
  refine BitVec.eq_of_getLsbD_eq fun i hi => ?_
  have hzero (hlo : 2 ≤ i) (hhi : i < 16) : w.getLsbD i = false := by
    have := congrArg (BitVec.getLsbD · (i - 2)) h
    simpa [BitVec.getLsbD_extractLsb', show i - 2 < 14 by omega, Nat.add_sub_cancel' hlo] using this
  simp only [commandWord, idxField, capvField, flagField, BitVec.ofNat_toNat, BitVec.setWidth_eq, BitVec.getLsbD_append,
    BitVec.getLsbD_extractLsb', BitVec.getLsbD_ofBool]
  split_ifs with hflag hcapv hfixed hidx
  · obtain rfl : i = 0 := by omega
    simp
  · obtain rfl : i = 1 := by omega
    simp
  · rw [hzero (by omega) (by omega), BitVec.getLsbD_zero]
  · rw [show 16 + (i - 1 - 1 - 14) = i by omega]
    simp [hidx]
  · rw [show 24 + (i - 1 - 1 - 14 - 8) = i by omega]
    simp [show i - 1 - 1 - 14 - 8 < 8 by omega]

/-- The command word that the encoder writes for an opcode, with the fields of `w` where the command has them (R119, R120). -/
def opcodeWord (w : Word) : Opc → Word
  | .hpParse => commandWord 0x01 0 false false
  | .hpResolve => commandWord 0x02 0 false false
  | .csBuild => commandWord 0x10 0 (capvField w) (flagField w)
  | .csEnum => commandWord 0x11 0 false false
  | .csRead => commandWord 0x12 (idxField w) false false
  | .csWrite => commandWord 0x13 (idxField w) false false
  | .csClose => commandWord 0x14 (idxField w) false false
  | .csDispose => commandWord 0x15 0 false false
  | .fsBind => commandWord 0x20 (idxField w) false (flagField w)
  | .fsStep => commandWord 0x21 (idxField w) false false
  | .fsRun => commandWord 0x22 (idxField w) false false
  | .xfInit => commandWord 0x30 (idxField w) false (flagField w)
  | .xfApply => commandWord 0x31 (idxField w) false false

/-- A word that selects a row is the one the encoder writes for the row's opcode and the word's fields. -/
theorem opcodeWord_of_selectOpc {w : Word} {o : Opc} (h : selectOpc w = some o) : opcodeWord w o = w := by
  obtain ⟨r, hr, rfl, hsel⟩ := selectOpc_eq_some h
  obtain ⟨hopc, hfixed, hzero⟩ := opcTable_fields r hr
  have hidx (hmask : r.mask.extractLsb' 16 8 = BitVec.allOnes 8) : idxField w = idxField r.pattern :=
    congrArg BitVec.toNat (extract_of_selects hmask hsel)
  have hcapv (hmask : r.mask.getLsbD 1 = true) : capvField w = capvField r.pattern := bit_of_selects hmask hsel
  have hflag (hmask : r.mask.getLsbD 0 = true) : flagField w = flagField r.pattern := bit_of_selects hmask hsel
  have hword {idx : Nat} {capv flag : Bool} (hi : idxField w = idx) (hc : capvField w = capv) (hf : flagField w = flag) :
      commandWord (r.pattern.extractLsb' 24 8) idx capv flag = w := by
    rw [← extract_of_selects hopc hsel, ← hi, ← hc, ← hf]
    exact commandWord_fields ((extract_of_selects hfixed hsel).trans hzero)
  simp only [opcTable, List.mem_cons, List.not_mem_nil, or_false] at hr
  rcases hr with rfl | rfl | rfl | rfl | rfl | rfl | rfl | rfl | rfl | rfl | rfl | rfl | rfl
  case inl => exact hword (hidx rfl) (hcapv rfl) (hflag rfl)
  case inr.inl => exact hword (hidx rfl) (hcapv rfl) (hflag rfl)
  · exact hword (hidx rfl) rfl rfl
  · exact hword (hidx rfl) (hcapv rfl) (hflag rfl)
  · exact hword rfl (hcapv rfl) (hflag rfl)
  · exact hword rfl (hcapv rfl) (hflag rfl)
  · exact hword rfl (hcapv rfl) (hflag rfl)
  · exact hword (hidx rfl) (hcapv rfl) (hflag rfl)
  · exact hword rfl (hcapv rfl) rfl
  · exact hword rfl (hcapv rfl) (hflag rfl)
  · exact hword rfl (hcapv rfl) (hflag rfl)
  · exact hword rfl (hcapv rfl) rfl
  · exact hword rfl (hcapv rfl) (hflag rfl)

/-! ## The decoder and the encoder -/

@[simp] theorem lowWord_joinWords (lo hi : Word) : lowWord (joinWords lo hi) = lo := by
  refine BitVec.eq_of_getLsbD_eq fun i hi => ?_
  simp only [lowWord, joinWords, BitVec.getLsbD_extractLsb', BitVec.getLsbD_append, hi, decide_true, Bool.true_and,
    Nat.zero_add, if_true]

@[simp] theorem highWord_joinWords (lo hi : Word) : highWord (joinWords lo hi) = hi := by
  refine BitVec.eq_of_getLsbD_eq fun i hi => ?_
  simp only [highWord, joinWords, BitVec.getLsbD_extractLsb', BitVec.getLsbD_append, hi, decide_true, Bool.true_and,
    Nat.not_lt.2 (Nat.le_add_right 32 i), if_false, Nat.add_sub_cancel_left]

theorem fitsIdx_idxField (w : Word) : fitsIdx (idxField w) = true := decide_eq_true (BitVec.isLt _)

theorem fitsWord_toNat (w : Word) : fitsWord w.toNat = true := decide_eq_true w.isLt

/-- What the operand words give is well-formed, and the encoder writes it as the opcode's word and the operand words taken. -/
theorem encode_decodeOperands {o : Opc} {w : Word} {ws rest : List Word} {i : Instr}
    (h : decodeOperands o w ws = .instr i rest) : i.WellFormed ∧ encode i ++ rest = opcodeWord w o :: ws := by
  unfold decodeOperands at h
  split at h
  case h_1 =>
    cases h
    exact ⟨decide_eq_true (BitVec.isLt _), by simp [encode, opcodeWord]⟩
  case h_3 =>
    split at h
    case isTrue hcapv =>
      split at h <;> cases h
      exact ⟨fitsWord_toNat _, by simp [encode, opcodeWord, hcapv]⟩
    case isFalse hcapv =>
      cases h
      exact ⟨rfl, by simp [encode, opcodeWord, hcapv]⟩
  all_goals cases h
  all_goals simp [Instr.WellFormed, Instr.wellFormed, fitsIdx_idxField, fitsWord_toNat, encode, opcodeWord]

/-- Settles O2: the words taken are the opcode's command word, which a selecting word is, and its operand words. -/
theorem encodeOfDecode : Obligations.EncodeOfDecode := by
  intro ws rest i h
  cases ws with
  | nil => cases h
  | cons w ws =>
    rw [decode] at h
    cases hw : selectOpc w with
    | none => simp [hw] at h
    | some o =>
      rw [hw] at h
      obtain ⟨hwf, hwords⟩ := encode_decodeOperands h
      exact ⟨hwf, hwords.trans (by rw [opcodeWord_of_selectOpc hw])⟩

/-- A command word that selects the row of `o` hands the words after it to the operands of `o`. -/
theorem decode_cons {w : Word} {o : Opc} (h : selectOpc w = some o) (ws : List Word) :
    decode (w :: ws) = decodeOperands o w ws := by
  rw [decode, h]

theorem toNat_ofNat_of_fitsWord {n : Nat} (h : fitsWord n = true) : (BitVec.ofNat 32 n).toNat = n :=
  Nat.mod_eq_of_lt (of_decide_eq_true h)

/-- Settles O1: command by command, the row of the command word and each field read back. -/
theorem decodeOfEncode : Obligations.DecodeOfEncode := by
  intro i rest h
  cases i with
  | hpParse len =>
    have hlen : len < 2 ^ 64 := of_decide_eq_true h
    have hrow : selectOpc (commandWord 0x01 0 false false) = some .hpParse := by decide
    simp only [encode, List.cons_append, List.nil_append, decode_cons hrow, decodeOperands, joinWords_low_high,
      BitVec.toNat_ofNat, Nat.mod_eq_of_lt hlen]
  | hpResolve => rfl
  | csBuild own cap =>
    cases cap with
    | none =>
      obtain ⟨hrow, hcapv, hflag⟩ := commandWord_build false own
      simp only [encode, List.cons_append, List.nil_append, decode_cons hrow, decodeOperands, hcapv, hflag, Bool.false_eq_true,
        if_false]
    | some cap =>
      obtain ⟨hrow, hcapv, hflag⟩ := commandWord_build true own
      simp only [encode, List.cons_append, List.nil_append, decode_cons hrow, decodeOperands, hcapv, hflag, if_true,
        toNat_ofNat_of_fitsWord h]
  | csEnum => rfl
  | csRead pos count =>
    obtain ⟨hpos, hcount⟩ := Bool.and_eq_true_iff.1 h
    obtain ⟨hrow, hidx⟩ := commandWord_idx pos (of_decide_eq_true hpos) (0x12, .csRead) (by simp)
    simp only [encode, List.cons_append, List.nil_append, decode_cons hrow, decodeOperands, hidx,
      toNat_ofNat_of_fitsWord hcount]
  | csWrite pos len =>
    obtain ⟨hpos, hlen⟩ := Bool.and_eq_true_iff.1 h
    obtain ⟨hrow, hidx⟩ := commandWord_idx pos (of_decide_eq_true hpos) (0x13, .csWrite) (by simp)
    simp only [encode, List.cons_append, List.nil_append, decode_cons hrow, decodeOperands, hidx,
      toNat_ofNat_of_fitsWord hlen]
  | csClose pos =>
    obtain ⟨hrow, hidx⟩ := commandWord_idx pos (of_decide_eq_true h) (0x14, .csClose) (by simp)
    simp only [encode, List.cons_append, List.nil_append, decode_cons hrow, decodeOperands, hidx]
  | csDispose => rfl
  | fsBind stage kind fs fc =>
    obtain ⟨hrow, hidx, hflag⟩ := commandWord_kind stage (of_decide_eq_true h) (flagOfKind kind) (0x20, .fsBind) (by simp)
    simp only [encode, List.cons_append, List.nil_append, decode_cons hrow, decodeOperands, hidx, hflag,
      kindOfFlag_flagOfKind, joinWords_low_high]
  | fsStep stage x =>
    obtain ⟨hrow, hidx⟩ := commandWord_idx stage (of_decide_eq_true h) (0x21, .fsStep) (by simp)
    simp only [encode, List.cons_append, List.nil_append, decode_cons hrow, decodeOperands, hidx, joinWords_low_high]
  | fsRun stage len =>
    obtain ⟨hstage, hlen⟩ := Bool.and_eq_true_iff.1 h
    obtain ⟨hrow, hidx⟩ := commandWord_idx stage (of_decide_eq_true hstage) (0x22, .fsRun) (by simp)
    simp only [encode, List.cons_append, List.nil_append, decode_cons hrow, decodeOperands, hidx,
      toNat_ofNat_of_fitsWord hlen]
  | xfInit f kind fs =>
    obtain ⟨hrow, hidx, hflag⟩ := commandWord_kind f (of_decide_eq_true h) (flagOfKind kind) (0x30, .xfInit) (by simp)
    simp only [encode, List.cons_append, List.nil_append, decode_cons hrow, decodeOperands, hidx, hflag,
      kindOfFlag_flagOfKind, joinWords_low_high]
  | xfApply f fc len =>
    obtain ⟨hf, hlen⟩ := Bool.and_eq_true_iff.1 h
    obtain ⟨hrow, hidx⟩ := commandWord_idx f (of_decide_eq_true hf) (0x31, .xfApply) (by simp)
    simp only [encode, List.cons_append, List.nil_append, decode_cons hrow, decodeOperands, hidx, joinWords_low_high,
      toNat_ofNat_of_fitsWord hlen]

/-- Settles O3: both rows have the word's opcode byte, and no two rows share one. -/
theorem oneRowPerWord : Obligations.OneRowPerWord := by
  intro w r hr r' hr' hw hw'
  have hopc {r : OpcRow} (hr : r ∈ opcTable) (hw : r.selects w = true) :
      w.extractLsb' 24 8 = r.pattern.extractLsb' 24 8 :=
    extract_of_selects (opcTable_fields r hr).1 (by simpa [OpcRow.selects] using hw)
  exact opcTable_opcode_inj r hr r' hr' ((hopc hr hw).symm.trans (hopc hr' hw'))

/-- Settles O4: the words are the spec's, so the decoder is run on them. -/
theorem specWordsDecode : Obligations.SpecWordsDecode := by
  unfold Obligations.SpecWordsDecode
  decide

/-! ## A step -/

/-- Settles O5: the branch of `step` for a complete command. -/
theorem stepRunsCommand : Obligations.StepRunsCommand := by
  intro s i rest hreset hdec
  rw [step, if_neg (by simp [hreset]), hdec]

/-- A command whose buffer has not all arrived waits (R125). -/
theorem exec_of_not_ready {i : Instr} {s : State} (h : ¬ s.Ready i) : exec i s = .next s := by
  cases i with
  | csWrite pos len => exact execCsWrite_waits h
  | fsRun stage len => exact execFsRun_waits h
  | xfApply f fc len => exact execXfApply_waits h
  | _ => exact absurd (Nat.zero_le _) h

/-- Settles O6: the waiting branch of `step`, and of the three commands that take a buffer. -/
theorem incompleteWaits : Obligations.IncompleteWaits := by
  refine ⟨fun s hreset hdec => ?_, fun i s h => exec_of_not_ready h⟩
  rw [step, if_neg (by simp [hreset]), hdec]

/-- Settles O7: such a word selects no row, so a step takes it as an illegal word. -/
theorem illegalWordEnds : Obligations.IllegalWordEnds := by
  intro s w ws hreset hcmd hnone
  have hsel : selectOpc w = none := by
    rw [selectOpc, Option.map_eq_none_iff, List.find?_eq_none]
    exact fun r hr => by simpa [OpcRow.selects] using hnone r hr
  rw [step, if_neg (by simp [hreset]), hcmd, decode, hsel]
  rfl

end Sys2Proof.Machine

/-! SUPPORT. Every outcome of every command in one inductive predicate, so that what holds of all commands (their responses, the
invariants, what they leave alone, where they fault or refuse) is one case analysis. -/

namespace Sys2Proof.Machine

/-- The meaning of `CS.DISPOSE` (R120). -/
theorem exec_csDispose (s : State) : exec .csDispose s = execCsDispose s := rfl

/-- The meaning of `FS.BIND` (R120). -/
theorem exec_fsBind (stage : Nat) (kind : FilterKind) (fs fc : Num64) (s : State) :
    exec (.fsBind stage kind fs fc) s = execFsBind stage kind fs fc s := rfl

/-- What a command may come to: its outcome, with what holds of the state where that outcome is reached. -/
inductive CommandOutcome (s : State) : Instr → Host.Outcome State Fault Refusal → Prop
  | waits {i : Instr} (hr : ¬ s.Ready i) : CommandOutcome s i (.next s)
  | error {i : Instr} (e : ErrorCode) (d : Nat) (hr : s.Ready i) :
      CommandOutcome s i (.next { s.endsIn (encode i).length (s.bufferWords i) e.code.toNat with draws := d })
  | parseDropped {len : Nat} (e : ErrorCode) : CommandOutcome s (.hpParse len) (.next (s.endsIn 3 0 e.code.toNat).noContainer)
  | parseFault {len : Nat} (hw : s.bytesAt 0 (min Config.winBytes len) = none) :
      CommandOutcome s (.hpParse len) (.fault .streamTransfer)
  | parseRejected {len : Nat} (w : List Byte) (e : Reject) : CommandOutcome s (.hpParse len)
      (.next { (s.endsIn 3 0 ErrorCode.unrecognisedFormat.code.toNat).noContainer with
        streamLen := BitVec.ofNat 32 len, win := w, reasons := s.reasons ++ (Config.parseReason e w len).toList })
  | parsed {len : Nat} {w : List Byte} {h : Header} (hlen : len ≤ Config.maxStreamLen)
      (hw : s.bytesAt 0 (min Config.winBytes len) = some w) (hp : parseHeader Config.params w len = .ok h) :
      CommandOutcome s (.hpParse len) (.next { s.endsOk 3 0 h.md.words with
        container := .opened, streamLen := BitVec.ofNat 32 len, win := w, md := h.md, explMask := h.explMask,
        dataStart := h.dataStart, resolved := false, built := false, streams := [] })
  | unresolved (ho : s.container = .opened)
      (hm : resolveMask Config.params s.md.channelCount.toNat s.explMask = none) : CommandOutcome s .hpResolve
        (.next { s.endsIn 1 0 ErrorCode.unrecognisedFormat.code.toNat with
          container := .closed, resolved := false,
          reasons := s.reasons ++ (Config.resolveReason s.md.channelCount.toNat).toList })
  | resolved {r : ResolvedMask} (ho : s.container = .opened)
      (hm : resolveMask Config.params s.md.channelCount.toNat s.explMask = some r) : CommandOutcome s .hpResolve
        (.next { s.endsOk 1 0 r.words with rm := r, resolved := true })
  | built {own : Bool} {cap : Option Nat} (ho : s.container = .opened) (hr : s.resolved = true) (hb : s.built = false)
      (hc : Config.minCap ≤ (buildCap cap).toNat) : CommandOutcome s (.csBuild own cap)
        (.next { s.endsOk (encode (.csBuild own cap)).length 0 [BitVec.ofNat 32 s.rm.positions.length] with
          built := true, streams := s.rm.positions.map (ChannelStream.fresh (buildCap cap) own) })
  | rebuildFault {own : Bool} {cap : Option Nat} (ho : s.container = .opened)
      (hw : s.stream.writeAll s.streamLen.toNat (s.streams.flatMap ChannelStream.openWb) = none) :
      CommandOutcome s (.csBuild own cap) (.fault .streamTransfer)
  | rebuilt {own : Bool} {cap : Option Nat} {m : Memory} (ho : s.container = .opened) (hr : s.resolved = true)
      (hb : s.built = true) (hc : Config.minCap ≤ (buildCap cap).toNat)
      (hw : s.stream.writeAll s.streamLen.toNat (s.streams.flatMap ChannelStream.openWb) = some m) :
      CommandOutcome s (.csBuild own cap)
        (.next { s.endsOk (encode (.csBuild own cap)).length 0 [BitVec.ofNat 32 s.rm.positions.length] with
          built := true, stream := m, streams := s.rm.positions.map (ChannelStream.fresh (buildCap cap) own),
          releases := s.releases ++ (List.range s.streams.length).filter s.releasable })
  | enumerated : CommandOutcome s .csEnum (.next (s.endsOk 1 0 s.enumWords))
  | readExtra {pos count k : Nat} {c : ChannelStream} (hf : s.Finds pos k c) (hk : s.md.channelCount.toNat ≤ k) :
      CommandOutcome s (.csRead pos count) (.refused .extraStream)
  | readFault {pos count k : Nat} {c : ChannelStream} (hu : s.Usable pos k count c)
      (hv : s.readSamples k c.cursor.toNat count = none) : CommandOutcome s (.csRead pos count) (.fault .streamTransfer)
  | read {pos count k : Nat} {c : ChannelStream} {vs : List Nat} (hu : s.Usable pos k count c)
      (hv : s.readSamples k c.cursor.toNat count = some vs) : CommandOutcome s (.csRead pos count)
        (.next { s.endsOk 2 0 (wordsOfRaws (rawWidth s.md.bytesPerSample) vs) with
          streams := s.streams.set k (c.advance count) })
  | writeExtra {pos len k : Nat} {c : ChannelStream} (hr : s.Ready (.csWrite pos len)) (hf : s.Finds pos k c)
      (hv : ∀ v ∈ rawsOfWords s.rawWords len s.bufIn, v < 256 ^ s.md.bytesPerSample) (hk : s.md.channelCount.toNat ≤ k) :
      CommandOutcome s (.csWrite pos len) (.refused .extraStream)
  | writePast {pos len k : Nat} {c : ChannelStream} (hr : s.Ready (.csWrite pos len)) (hf : s.Finds pos k c)
      (hv : ∀ v ∈ rawsOfWords s.rawWords len s.bufIn, v < 256 ^ s.md.bytesPerSample) (hk : k < s.md.channelCount.toNat)
      (hl : s.remaining c < len) : CommandOutcome s (.csWrite pos len) (.refused .writePastPayload)
  | writeFault {pos len k : Nat} {c : ChannelStream} (hu : s.Usable pos k len c)
      (hw : ((s.queueSamples k c.cap.toNat c.cursor.toNat (rawsOfWords s.rawWords len s.bufIn) s.stream c.wb).bind fun q =>
        flushIf (Config.earlyFlush s.draws) s.streamLen.toNat q.1 q.2) = none) :
      CommandOutcome s (.csWrite pos len) (.fault .streamTransfer)
  | written {pos len k : Nat} {c : ChannelStream} {m : Memory} {wb : List Host.Cell} (hr : s.Ready (.csWrite pos len))
      (hu : s.Usable pos k len c)
      (hw : ((s.queueSamples k c.cap.toNat c.cursor.toNat (rawsOfWords s.rawWords len s.bufIn) s.stream c.wb).bind fun q =>
        flushIf (Config.earlyFlush s.draws) s.streamLen.toNat q.1 q.2) = some (m, wb)) :
      CommandOutcome s (.csWrite pos len) (.next { s.endsOk 2 (s.rawWords * len) [] with
        stream := m, streams := s.streams.set k { c.advance len with wb := wb }, draws := s.draws + 1 })
  | closeFault {pos k : Nat} {c : ChannelStream} (hl : s.lookup pos = some k) (hk : s.streams[k]? = some c)
      (hw : s.stream.writeAll s.streamLen.toNat c.openWb = none) : CommandOutcome s (.csClose pos) (.fault .streamTransfer)
  | closed {pos k : Nat} {c : ChannelStream} {m : Memory} (hl : s.lookup pos = some k) (hk : s.streams[k]? = some c)
      (hw : s.stream.writeAll s.streamLen.toNat c.openWb = some m) : CommandOutcome s (.csClose pos)
        (.next { s.endsOk 1 0 [] with
          stream := m, streams := s.streams.set k c.shut,
          releases := if c.own && !c.closed then s.releases ++ [k] else s.releases })
  | disposedAgain : CommandOutcome s .csDispose (.next (s.endsOk 1 0 []))
  | disposeFault (ho : s.container = .opened)
      (hw : s.stream.writeAll s.streamLen.toNat (s.streams.flatMap ChannelStream.openWb) = none) :
      CommandOutcome s .csDispose (.fault .streamTransfer)
  | disposed {m : Memory} (ho : s.container = .opened)
      (hw : s.stream.writeAll s.streamLen.toNat (s.streams.flatMap ChannelStream.openWb) = some m) :
      CommandOutcome s .csDispose (.next { s.endsOk 1 0 [] with
        container := .disposed, stream := m, streams := s.streams.map ChannelStream.shut,
        releases := s.releases ++ (List.range s.streams.length).filter s.releasable })
  | bound {stage : Nat} {kind : FilterKind} {fs fc : Num64} (g : Stage) (d : Nat) :
      CommandOutcome s (.fsBind stage kind fs fc) (.next { s.endsOk 5 0 [] with stages := s.stages.set stage g, draws := d })
  | stepped {stage : Nat} {x : Num64} (ws : List Word) (g : Stage) (d : Nat) :
      CommandOutcome s (.fsStep stage x) (.next { s.endsOk 3 0 ws with stages := s.stages.set stage g, draws := d })
  | ran {stage len : Nat} (ws : List Word) (g : Stage) (d : Nat) :
      CommandOutcome s (.fsRun stage len) (.next { s.endsOk 2 (2 * len) ws with stages := s.stages.set stage g, draws := d })
  | inited {f : Nat} {kind : FilterKind} {fs : Num64} (hp : numPositive fs = true) :
      CommandOutcome s (.xfInit f kind fs) (.next { s.endsOk 3 0 [] with
        xovers := s.xovers.set f ⟨true, kind, fs⟩
        stages := (s.stages.set (2 * f) Stage.fresh).set (2 * f + 1) Stage.fresh })
  | applied {f len : Nat} {fc : Num64} (ws : List Word) (g₁ g₂ : Stage) (d : Nat) :
      CommandOutcome s (.xfApply f fc len) (.next { s.endsOk 4 (2 * len) ws with
        stages := (s.stages.set (2 * f) g₁).set (2 * f + 1) g₂, draws := d })

/-! ## Every command comes to one of these outcomes -/

section
variable (s : State)

theorem hpParse_outcome (len : Nat) : CommandOutcome s (.hpParse len) (exec (.hpParse len) s) := by
  rw [exec_hpParse, execHpParse_eq]
  split_ifs with ho hp hlen
  · exact .error .illegalCommand s.draws (Nat.zero_le _)
  · exact .parseDropped .notFound
  · exact .parseDropped .fileTooLarge
  · cases hw : s.bytesAt 0 (min Config.winBytes len) with
    | none => exact .parseFault hw
    | some w =>
      dsimp only
      cases hp : parseHeader Config.params w len with
      | error e => exact .parseRejected w e
      | ok h => exact .parsed (Nat.not_lt.1 hlen) hw hp

theorem hpResolve_outcome : CommandOutcome s .hpResolve (exec .hpResolve s) := by
  cases ho : s.container with
  | closed =>
    rw [exec_hpResolve, execHpResolve_eq, ho]
    exact .error .illegalCommand s.draws (Nat.zero_le _)
  | disposed =>
    rw [exec_hpResolve, execHpResolve_eq, ho]
    exact .error .disposed s.draws (Nat.zero_le _)
  | opened =>
    cases hm : resolveMask Config.params s.md.channelCount.toNat s.explMask with
    | none => rw [exec_hpResolve_of_none ho hm]; exact .unresolved ho hm
    | some r => rw [exec_hpResolve_of_some ho hm, ← r.words_eq]; exact .resolved ho hm

theorem csBuild_outcome (own : Bool) (cap : Option Nat) : CommandOutcome s (.csBuild own cap) (exec (.csBuild own cap) s) := by
  rw [exec_csBuild]
  by_cases ho : s.container = .opened
  · rw [execCsBuild_eq own cap ho]
    dsimp only
    rw [List.length_map]
    split_ifs with hr hc hb
    · exact .error .illegalCommand s.draws (Nat.zero_le _)
    · exact .error .argumentRange s.draws (Nat.zero_le _)
    · cases hw : s.stream.writeAll s.streamLen.toNat (s.streams.flatMap ChannelStream.openWb) with
      | none => exact .rebuildFault ho hw
      | some m => exact .rebuilt ho (by simpa using hr) hb (Nat.not_lt.1 hc) hw
    · exact .built ho (by simpa using hr) (by simpa using hb) (Nat.not_lt.1 hc)
  · rw [execCsBuild_refused own cap ho]
    split_ifs
    · exact .error .disposed s.draws (Nat.zero_le _)
    · exact .error .illegalCommand s.draws (Nat.zero_le _)

theorem csEnum_outcome : CommandOutcome s .csEnum (exec .csEnum s) := by
  rw [exec_csEnum, execCsEnum_eq]
  cases s.streamCheck with
  | some e => exact .error e s.draws (Nat.zero_le _)
  | none => exact .enumerated

theorem csRead_outcome (pos count : Nat) : CommandOutcome s (.csRead pos count) (exec (.csRead pos count) s) := by
  rw [exec_csRead, execCsRead_eq]
  cases hf : s.findStream pos with
  | error e => exact .error e s.draws (Nat.zero_le _)
  | ok found =>
    obtain ⟨k, c⟩ := found
    have hfind := State.findStream_eq_ok.1 hf
    dsimp only
    split_ifs with hk hl
    · exact .readExtra hfind hk
    · exact .error .endOfStream s.draws (Nat.zero_le _)
    · have hu : s.Usable pos k count c := ⟨hfind, Nat.not_le.1 hk, Nat.not_lt.1 hl⟩
      cases hv : s.readSamples k c.cursor.toNat count with
      | none => exact .readFault hu hv
      | some vs => exact .read hu hv

/-- The words that are too wide for the bit depth, in the terms of the claims (R114, R194). -/
theorem any_tooWide {B : Nat} {vs : List Nat} :
    (vs.any fun v => decide (2 ^ (8 * B) ≤ v)) = true ↔ ¬ ∀ v ∈ vs, v < 256 ^ B := by
  rw [show 256 ^ B = 2 ^ (8 * B) from (pow_mul 2 8 B).symm]
  simp

theorem csWrite_outcome (pos len : Nat) : CommandOutcome s (.csWrite pos len) (exec (.csWrite pos len) s) := by
  by_cases hr : s.Ready (.csWrite pos len)
  case neg => rw [exec_of_not_ready hr]; exact .waits hr
  rw [exec_csWrite, execCsWrite_eq hr]
  dsimp only
  cases hf : s.findStream pos with
  | error e => exact .error e _ hr
  | ok found =>
    obtain ⟨k, c⟩ := found
    have hfind := State.findStream_eq_ok.1 hf
    dsimp only
    split_ifs with hv hk hl
    · exact .error .argumentRange s.draws hr
    · exact .writeExtra hr hfind (not_not.1 (mt any_tooWide.2 hv)) hk
    · exact .writePast hr hfind (not_not.1 (mt any_tooWide.2 hv)) (Nat.not_le.1 hk) hl
    · have hu : s.Usable pos k len c := ⟨hfind, Nat.not_le.1 hk, Nat.not_lt.1 hl⟩
      cases hw : (s.queueSamples k c.cap.toNat c.cursor.toNat (rawsOfWords s.rawWords len s.bufIn) s.stream c.wb).bind
          fun q => flushIf (Config.earlyFlush s.draws) s.streamLen.toNat q.1 q.2 with
      | none => exact .writeFault hu hw
      | some r => exact .written hr hu hw

theorem csClose_outcome (pos : Nat) : CommandOutcome s (.csClose pos) (exec (.csClose pos) s) := by
  rw [exec_csClose, execCsClose_eq]
  split_ifs
  · exact .error .illegalCommand s.draws (Nat.zero_le _)
  · cases hl : s.lookup pos with
    | none => exact .error .missingChannel s.draws (Nat.zero_le _)
    | some k =>
      obtain ⟨c, hk, -⟩ := State.lookup_eq_some hl
      dsimp only
      rw [hk]
      dsimp only
      cases hw : s.stream.writeAll s.streamLen.toNat c.openWb with
      | none => exact .closeFault hl hk hw
      | some m => exact .closed hl hk hw

theorem csDispose_outcome : CommandOutcome s .csDispose (exec .csDispose s) := by
  rw [exec_csDispose, execCsDispose_eq]
  split_ifs with ho
  · cases hw : s.stream.writeAll s.streamLen.toNat (s.streams.flatMap ChannelStream.openWb) with
    | none => exact .disposeFault ho hw
    | some m => exact .disposed ho hw
  · exact .disposedAgain

theorem fsBind_outcome (stage : Nat) (kind : FilterKind) (fs fc : Num64) :
    CommandOutcome s (.fsBind stage kind fs fc) (exec (.fsBind stage kind fs fc) s) := by
  rw [exec_fsBind, execFsBind_eq]
  cases s.stages[stage]? with
  | none => exact .error .argumentRange s.draws (Nat.zero_le _)
  | some g => exact .bound _ _

theorem fsStep_outcome (stage : Nat) (x : Num64) : CommandOutcome s (.fsStep stage x) (exec (.fsStep stage x) s) := by
  rw [exec_fsStep, execFsStep_eq, State.runStage_eq]
  cases s.stages[stage]? with
  | none => exact .error .argumentRange s.draws (Nat.zero_le _)
  | some g =>
    dsimp only
    cases g.coef? with
    | none => exact .error .illegalCommand s.draws (Nat.zero_le _)
    | some c => exact .stepped _ _ _

theorem fsRun_outcome (stage len : Nat) : CommandOutcome s (.fsRun stage len) (exec (.fsRun stage len) s) := by
  by_cases hr : s.Ready (.fsRun stage len)
  case neg => rw [exec_of_not_ready hr]; exact .waits hr
  rw [exec_fsRun, execFsRun_eq hr, State.runStage_eq]
  cases s.stages[stage]? with
  | none => exact .error .argumentRange s.draws hr
  | some g =>
    dsimp only
    cases g.coef? with
    | none => exact .error .illegalCommand s.draws hr
    | some c => exact .ran _ _ _

theorem xfInit_outcome (f : Nat) (kind : FilterKind) (fs : Num64) :
    CommandOutcome s (.xfInit f kind fs) (exec (.xfInit f kind fs) s) := by
  rw [exec_xfInit, execXfInit_eq]
  split_ifs with hf hp
  · exact .error .argumentRange s.draws (Nat.zero_le _)
  · exact .error .argumentRange s.draws (Nat.zero_le _)
  · exact .inited (by simpa using hp)

theorem xfApply_outcome (f : Nat) (fc : Num64) (len : Nat) :
    CommandOutcome s (.xfApply f fc len) (exec (.xfApply f fc len) s) := by
  by_cases hr : s.Ready (.xfApply f fc len)
  case neg => rw [exec_of_not_ready hr]; exact .waits hr
  rw [exec_xfApply, execXfApply_eq hr]
  dsimp only
  split
  · split
    · exact .applied _ _ _ _
    · exact .error .illegalCommand s.draws hr
  · exact .error .argumentRange s.draws hr

/-- Every command comes to one of the outcomes. -/
theorem exec_outcome (i : Instr) : CommandOutcome s i (exec i s) := by
  cases i with
  | hpParse len => exact hpParse_outcome s len
  | hpResolve => exact hpResolve_outcome s
  | csBuild own cap => exact csBuild_outcome s own cap
  | csEnum => exact csEnum_outcome s
  | csRead pos count => exact csRead_outcome s pos count
  | csWrite pos len => exact csWrite_outcome s pos len
  | csClose pos => exact csClose_outcome s pos
  | csDispose => exact csDispose_outcome s
  | fsBind stage kind fs fc => exact fsBind_outcome s stage kind fs fc
  | fsStep stage x => exact fsStep_outcome s stage x
  | fsRun stage len => exact fsRun_outcome s stage len
  | xfInit f kind fs => exact xfInit_outcome s f kind fs
  | xfApply f fc len => exact xfApply_outcome s f fc len

end

theorem outcome_of_exec {s : State} {i : Instr} {o : Host.Outcome State Fault Refusal} (h : exec i s = o) :
    CommandOutcome s i o := h ▸ exec_outcome s i

/-! ## What holds of every command -/

theorem ErrorCode.status_ne_zero (e : ErrorCode) : BitVec.ofNat 32 e.code.toNat ≠ 0 := by cases e <;> decide

theorem ErrorCode.status_le (e : ErrorCode) : (BitVec.ofNat 32 e.code.toNat).toNat ≤ 8 := by cases e <;> decide

/-- A response of a command: `OK` with result words, or an error code alone (R122, R281). -/
def Response.Proper (r : Response) : Prop := r.status.toNat ≤ 8 ∧ (r.status ≠ 0 → r.results = [])

theorem Response.proper_ok (ws : List Word) : Response.Proper ⟨0, ws⟩ := ⟨by simp, fun h => absurd rfl h⟩

theorem Response.proper_error (e : ErrorCode) : Response.Proper ⟨BitVec.ofNat 32 e.code.toNat, []⟩ := ⟨e.status_le, fun _ => rfl⟩

/-- Settles O8: each next state drops the command's words from both ports and adds one response. -/
theorem oneResponsePerCommand : Obligations.OneResponsePerCommand := by
  intro i s t hready h
  cases outcome_of_exec h with
  | waits hr => exact absurd hready hr
  | error e => exact ⟨rfl, rfl, _, rfl, Response.proper_error e⟩
  | parseDropped e => exact ⟨rfl, rfl, _, rfl, Response.proper_error e⟩
  | parseRejected => exact ⟨rfl, rfl, _, rfl, Response.proper_error .unrecognisedFormat⟩
  | unresolved => exact ⟨rfl, rfl, _, rfl, Response.proper_error .unrecognisedFormat⟩
  | _ => exact ⟨rfl, rfl, _, rfl, Response.proper_ok _⟩

end Sys2Proof.Machine

/-! SUPPORT. What commands refuse and what they leave alone (R184, R196, R290, R325), each by the cases of `CommandOutcome`. -/

namespace Sys2Proof.Machine

/-! ## Refusals -/

/-- A refusal, in the terms of the claims. -/
theorem refused_cases {i : Instr} {s : State} {r : Refusal} (h : exec i s = .refused r) :
    ∃ pos n k c, s.Finds pos k c ∧
      ((i = .csRead pos n ∧ s.md.channelCount.toNat ≤ k ∧ r = .extraStream) ∨
        (i = .csWrite pos n ∧ s.Ready i ∧ (∀ v ∈ rawsOfWords s.rawWords n s.bufIn, v < 256 ^ s.md.bytesPerSample) ∧
          ((s.md.channelCount.toNat ≤ k ∧ r = .extraStream) ∨
            (k < s.md.channelCount.toNat ∧ s.remaining c < n ∧ r = .writePastPayload)))) := by
  cases outcome_of_exec h with
  | readExtra hf hk => exact ⟨_, _, _, _, hf, .inl ⟨rfl, hk, rfl⟩⟩
  | writeExtra hr hf hv hk => exact ⟨_, _, _, _, hf, .inr ⟨rfl, hr, hv, .inl ⟨hk, rfl⟩⟩⟩
  | writePast hr hf hv hk hl => exact ⟨_, _, _, _, hf, .inr ⟨rfl, hr, hv, .inr ⟨hk, hl, rfl⟩⟩⟩

theorem exec_csRead_extra {s : State} {pos k : Nat} {c : ChannelStream} (count : Nat) (hf : s.Finds pos k c)
    (hk : s.md.channelCount.toNat ≤ k) : exec (.csRead pos count) s = .refused .extraStream := by
  rw [exec_csRead, execCsRead_eq, State.findStream_eq_ok.2 hf]
  exact if_pos hk

/-- `CS.WRITE` of raw samples that fit, to a stream that is found, goes on to the checks of its slot and of the samples that
remain (R195, R196). -/
theorem exec_csWrite_of_fits {s : State} {pos len k : Nat} {c : ChannelStream} (hr : s.Ready (.csWrite pos len))
    (hf : s.Finds pos k c) (hv : ∀ v ∈ rawsOfWords s.rawWords len s.bufIn, v < 256 ^ s.md.bytesPerSample) :
    exec (.csWrite pos len) s =
      if s.md.channelCount.toNat ≤ k then .refused .extraStream
      else if s.remaining c < len then .refused .writePastPayload
      else match (s.queueSamples k c.cap.toNat c.cursor.toNat (rawsOfWords s.rawWords len s.bufIn) s.stream c.wb).bind
          fun q => flushIf (Config.earlyFlush s.draws) s.streamLen.toNat q.1 q.2 with
        | none => .fault .streamTransfer
        | some (m, wb) => .next { s.endsOk 2 (s.rawWords * len) [] with
            stream := m, streams := s.streams.set k { c.advance len with wb := wb }, draws := s.draws + 1 } := by
  rw [exec_csWrite, execCsWrite_eq hr, State.findStream_eq_ok.2 hf]
  exact if_neg fun h => any_tooWide.1 h hv

/-- Settles O53: the refusing outcomes are these, and each condition leads to its refusal. -/
theorem refusesExactly : Obligations.RefusesExactly := by
  refine fun i s r => ⟨refused_cases, ?_⟩
  rintro ⟨pos, n, k, c, hf, ⟨rfl, hk, rfl⟩ | ⟨rfl, hr, hv, ⟨hk, rfl⟩ | ⟨hk, hl, rfl⟩⟩⟩
  · exact exec_csRead_extra n hf hk
  · rw [exec_csWrite_of_fits hr hf hv, if_pos hk]
  · rw [exec_csWrite_of_fits hr hf hv, if_neg (Nat.not_le.2 hk), if_pos hl]

/-- Settles O28: a stream is found, and the first check after that is of the raw words. -/
theorem writeTooWide : Obligations.WriteTooWide := by
  intro s pos len k c hf hr ⟨v, hmem, hv⟩
  rw [exec_csWrite, execCsWrite_eq hr, State.findStream_eq_ok.2 hf]
  exact if_pos (List.any_eq_true.2 ⟨v, hmem, decide_eq_true hv⟩)

/-! ## Errors -/

/-- Settles O56: an error end changes the ports, `LASTERR`, the response and the draw counter only, and every other end has an
`OK` response. -/
theorem errorsHaveNoEffect : Obligations.ErrorsHaveNoEffect := by
  intro i s t r hparse hresolve h hresp hstatus
  have ok {ws : List Word} (hok : t.responses = s.responses ++ [⟨0, ws⟩]) : False := by
    rw [hresp, List.append_cancel_left_eq] at hok
    exact hstatus (congrArg Response.status (List.head_eq_of_cons_eq hok))
  cases outcome_of_exec h with
  | waits => rfl
  | error => rfl
  | parseDropped => exact absurd rfl (hparse _)
  | parseRejected => exact absurd rfl (hparse _)
  | parsed => exact absurd rfl (hparse _)
  | unresolved => exact absurd rfl hresolve
  | _ => exact (ok rfl).elim

/-! ## Frames -/

/-- Settles O57: a filter command writes the stages it addresses, and `XF.INIT` its crossover. -/
theorem filterFrame : Obligations.FilterFrame := by
  intro i s t hkind h
  have same : s.SameContainer s := ⟨rfl, rfl, rfl, rfl, rfl, rfl, rfl, rfl, rfl, rfl, rfl, rfl, rfl⟩
  have one {k n : Nat} (g : Stage) (hk : (n == k) = false) : (s.stages.set n g)[k]? = s.stages[k]? :=
    List.getElem?_set_ne (by simpa using hk)
  have two {k f : Nat} (g₁ g₂ : Stage) (hk : (2 * f == k || 2 * f + 1 == k) = false) :
      ((s.stages.set (2 * f) g₁).set (2 * f + 1) g₂)[k]? = s.stages[k]? := by
    obtain ⟨h₁, h₂⟩ := Bool.or_eq_false_iff.1 hk
    rw [List.getElem?_set_ne (by simpa using h₂), List.getElem?_set_ne (by simpa using h₁)]
  cases outcome_of_exec h with
  | waits => exact ⟨same, rfl, rfl, fun _ _ => rfl, rfl, fun _ _ => rfl⟩
  | error => exact ⟨same, rfl, rfl, fun _ _ => rfl, rfl, fun _ _ => rfl⟩
  | bound g => exact ⟨same, rfl, rfl, fun _ hk => one g hk, List.length_set, fun _ _ => rfl⟩
  | stepped _ g => exact ⟨same, rfl, rfl, fun _ hk => one g hk, List.length_set, fun _ _ => rfl⟩
  | ran _ g => exact ⟨same, rfl, rfl, fun _ hk => one g hk, List.length_set, fun _ _ => rfl⟩
  | inited =>
    exact ⟨same, rfl, rfl, fun _ hk => two _ _ hk, by simp, fun f' hf =>
      List.getElem?_set_ne fun e => hf _ _ (by rw [e])⟩
  | applied _ g₁ g₂ => exact ⟨same, rfl, rfl, fun _ hk => two g₁ g₂ hk, by simp, fun _ _ => rfl⟩
  | _ => cases hkind

/-- Settles O58: outcome by outcome, what is written. -/
theorem containerFrame : Obligations.ContainerFrame := by
  intro i s t hkind h
  have slot {c' : ChannelStream} {pos k k' : Nat} (hl : s.lookup pos = some k) (hne : s.lookup pos ≠ some k') :
      (s.streams.set k c')[k']? = s.streams[k']? := List.getElem?_set_ne fun e => hne (hl.trans (congrArg some e))
  refine ⟨?_, fun hparse => ?_, fun pos n k hi hk => ?_⟩
  · cases outcome_of_exec h with
    | bound | stepped | ran | inited | applied => cases hkind
    | _ => exact ⟨rfl, rfl, rfl, rfl⟩
  · cases outcome_of_exec h with
    | parseDropped => exact absurd rfl (hparse _)
    | parseRejected => exact absurd rfl (hparse _)
    | parsed => exact absurd rfl (hparse _)
    | resolved => exact ⟨rfl, rfl, rfl, rfl, rfl, fun hr => absurd rfl hr⟩
    | unresolved => exact ⟨rfl, rfl, rfl, rfl, rfl, fun hr => absurd rfl hr⟩
    | _ => exact ⟨rfl, rfl, rfl, rfl, rfl, fun _ => ⟨rfl, rfl⟩⟩
  · cases outcome_of_exec h with
    | waits => exact ⟨rfl, rfl, rfl⟩
    | error => exact ⟨rfl, rfl, rfl⟩
    | read hu =>
      obtain ⟨⟨-, -, hl, -⟩, -⟩ := hu
      obtain ⟨⟨⟩⟩ | ⟨⟨⟩⟩ | ⟨⟨⟩⟩ := hi
      exact ⟨rfl, rfl, slot hl hk⟩
    | written _ hu =>
      obtain ⟨⟨-, -, hl, -⟩, -⟩ := hu
      obtain ⟨⟨⟩⟩ | ⟨⟨⟩⟩ | ⟨⟨⟩⟩ := hi
      exact ⟨rfl, rfl, slot hl hk⟩
    | closed hl =>
      obtain ⟨⟨⟩⟩ | ⟨⟨⟩⟩ | ⟨⟨⟩⟩ := hi
      exact ⟨rfl, rfl, slot hl hk⟩
    | _ => obtain ⟨⟨⟩⟩ | ⟨⟨⟩⟩ | ⟨⟨⟩⟩ := hi

/-! ## Bytes of the stream -/

/-- A flush leaves every byte that is not pending (R78). -/
theorem Memory.read_writeAll_of_not_mem {limit a : Nat} {m m' : Memory} {cells : List Host.Cell}
    (h : m.writeAll limit cells = some m') (ha : ∀ p ∈ cells, p.1 ≠ a) : m'.read a = m.read a := by
  rw [Memory.read_writeAll h, lastWrite_eq_none ha, Option.none_or]

/-- The writes a close performs are pending ones (R198). -/
theorem ChannelStream.mem_openWb {c : ChannelStream} {p : Host.Cell} (h : p ∈ c.openWb) : p ∈ c.wb := by
  unfold ChannelStream.openWb at h
  split at h
  · cases h
  · exact h

theorem State.mem_pending {s : State} {k : Nat} {c : ChannelStream} {p : Host.Cell} (hk : s.streams[k]? = some c)
    (hp : p ∈ c.wb) : p ∈ s.pending := List.mem_flatMap.2 ⟨c, List.mem_of_getElem? hk, hp⟩

/-- The writes of a close of every stream are pending ones (R185, R199). -/
theorem State.mem_pending_of_openWb {s : State} {p : Host.Cell} (h : p ∈ s.streams.flatMap ChannelStream.openWb) :
    p ∈ s.pending := by
  obtain ⟨c, hc, hp⟩ := List.mem_flatMap.1 h
  exact List.mem_flatMap.2 ⟨c, hc, c.mem_openWb hp⟩

/-- A `CS.WRITE` once its samples are queued and a flush has or has not happened at its end: of the pending and new writes, a
beginning is performed and the rest is pending; all that was pending before is performed unless nothing is (R195, R197). -/
theorem State.write_splits {s : State} {k cap n : Nat} {vs : List Nat} {wb wb' : List Host.Cell} {m : Memory}
    {flush : Bool}
    (h : ((s.queueSamples k cap n vs s.stream wb).bind fun q => flushIf flush s.streamLen.toNat q.1 q.2) = some (m, wb')) :
    ∃ done, done ++ wb' = wb ++ s.sampleWrites k n vs ∧ s.stream.writeAll s.streamLen.toNat done = some m ∧
      (done = [] ∨ wb <+: done) := by
  obtain ⟨⟨m₁, wb₁⟩, hq, hflush⟩ := Option.bind_eq_some_iff.1 h
  obtain ⟨done, hsplit, hdone, hall⟩ := State.queueSamples_eq hq
  rcases flushIf_eq_some hflush with ⟨-, hnil, hw⟩ | ⟨-, hsame⟩
  · obtain rfl : wb' = [] := hnil
    exact ⟨done ++ wb₁, by rw [List.append_nil, hsplit], by rw [Memory.writeAll_append, hdone]; exact hw,
      .inr (hsplit ▸ List.prefix_append wb _)⟩
  · cases hsame
    exact ⟨done, hsplit, hdone, hall⟩

/-- Settles O59: the stream changes by flushes only, and every byte a flush writes is one the command may store to. -/
theorem memoryFrame : Obligations.MemoryFrame := by
  intro i s t a h hstore
  cases outcome_of_exec h with
  | rebuilt _ _ _ _ hw =>
    exact Memory.read_writeAll_of_not_mem hw fun p hp e => hstore ⟨p, State.mem_pending_of_openWb hp, e⟩
  | disposed _ hw =>
    exact Memory.read_writeAll_of_not_mem hw fun p hp e => hstore ⟨p, State.mem_pending_of_openWb hp, e⟩
  | closed hl hk hw =>
    exact Memory.read_writeAll_of_not_mem hw fun p hp e => hstore ⟨_, _, hl, hk, p, ChannelStream.mem_openWb hp, e⟩
  | @written pos len k c m wb _ hu hw =>
    obtain ⟨⟨-, -, hl, hk, -⟩, -⟩ := hu
    obtain ⟨done, hsplit, hdone, -⟩ := State.write_splits hw
    refine Memory.read_writeAll_of_not_mem hdone fun p hp e => hstore ⟨_, _, hl, hk, ?_⟩
    have hmem : p ∈ done ++ wb := List.mem_append_left _ hp
    rw [hsplit] at hmem
    rcases List.mem_append.1 hmem with hold | hnew
    · exact .inl ⟨p, hold, e⟩
    · obtain ⟨j, hj, b, hb, rfl⟩ := State.mem_sampleWrites.1 hnew
      exact .inr ⟨j, by simpa using hj, b, hb, e.symm⟩
  | _ => rfl

end Sys2Proof.Machine

/-! SUPPORT. The header parser's claims: the parser accepts exactly the acceptable headers (R144 to R158), rejects every other
(R159), and depends on the window and the length alone (R162, R169). -/

namespace Sys2Proof.Machine

/-! ## Window reads -/

/-- Bytes inside the window are the value `windowField` gives (R74, R76). -/
theorem leNat_window {win : List Byte} {o n : Nat} (h : o + n ≤ win.length) :
    leNat ((win.drop o).take n) = windowField win o n := by
  have hlen : ((win.drop o).take n).length = n := by simp; omega
  rw [leNat_eq_sum, hlen, windowField]
  refine Finset.sum_congr rfl fun i hi => ?_
  rw [List.getD_eq_getElem?_getD, List.getElem?_take_of_lt (Finset.mem_range.1 hi), List.getElem?_drop,
    List.getD_eq_getElem?_getD]

/-- A window read answers exactly inside the window, with the field's value (R76). -/
theorem winRead_eq_ok_iff {win : List Byte} {o n v : Nat} :
    winRead win o n = .ok v ↔ o + n ≤ win.length ∧ v = windowField win o n := by
  rw [winRead_eq_ok]
  exact and_congr_right fun h => by rw [leNat_window h]

/-- Settles O13: both branches of a window read. -/
theorem windowReads : Obligations.WindowReads :=
  fun _ _ _ => ⟨fun h => winRead_eq_ok_iff.2 ⟨h, rfl⟩, fun h => if_neg (Nat.not_le.2 h)⟩

/-- A field of `n` bytes is below `256 ^ n`. -/
theorem windowField_lt {win : List Byte} {o n : Nat} (h : o + n ≤ win.length) : windowField win o n < 256 ^ n :=
  winRead_lt (winRead_eq_ok_iff.2 ⟨h, rfl⟩)

/-! ## The parts of the parser -/

/-- Step 6 answers exactly where the 20 bytes of the basic fields lie in the window (R147). -/
theorem readBasic_eq_ok {win : List Byte} {e : Nat} {b : BasicFields} :
    readBasic Config.params win e = .ok b ↔ e + 20 ≤ win.length ∧
      b = ⟨windowField win (e + 4) 2, windowField win (e + 6) 2, windowField win (e + 8) 2, windowField win (e + 18) 2⟩ := by
  have hrate : Config.params.srBytes = 2 := rfl
  simp only [readBasic, hrate, except_bind_eq_ok, winRead_eq_ok_iff]
  constructor
  · rintro ⟨_, -, _, ⟨-, rfl⟩, _, ⟨-, rfl⟩, _, ⟨-, rfl⟩, _, ⟨h, rfl⟩, ⟨⟩⟩
    exact ⟨by omega, rfl⟩
  · rintro ⟨h, rfl⟩
    exact ⟨_, ⟨by omega, rfl⟩, _, ⟨by omega, rfl⟩, _, ⟨by omega, rfl⟩, _, ⟨by omega, rfl⟩, _, ⟨by omega, rfl⟩, rfl⟩

/-- Steps 7 to 9 answer a known format exactly where the header names one (R148 to R153). -/
theorem readExtension_eq_ok {win : List Byte} {e : Nat} {x : ExtFields} :
    (readExtension Config.params win e (windowField win (e + 4) 2) = .ok x ∧ x.format ≠ .unknown) ↔
      FormatFields win e x.format x.validBits x.mask := by
  obtain ⟨format, vb, em⟩ := x
  have htag : Config.params.guidTagIndex = 3 := rfl
  have basic {code : Nat} : (pure ⟨formatOf code, 0, 0⟩ : Except Reject ExtFields) = .ok ⟨format, vb, em⟩ ↔
      formatOf code = format ∧ vb = 0 ∧ em = 0 := by
    simp [pure, Except.pure, eq_comm]
  have unnamed : ¬ NamesFormat Config.extCode format := by simp [NamesFormat, Config.extCode]
  simp only [readExtension, htag, FormatFields]
  by_cases hcode : windowField win (e + 4) 2 = Config.extCode
  · rw [if_pos hcode, hcode]
    simp only [unnamed, false_and, false_or, except_bind_eq_ok, winRead_eq_ok_iff]
    constructor
    · rintro ⟨⟨_, ⟨-, rfl⟩, h⟩, hknown⟩
      split at h
      next hextra =>
        simp only [except_bind_eq_ok, winRead_eq_ok_iff] at h
        obtain ⟨_, ⟨-, rfl⟩, _, ⟨-, rfl⟩, _, ⟨hend, rfl⟩, ⟨⟩⟩ := h
        exact ⟨rfl, by omega, hextra, (formatOf_iff _ _).1 ⟨rfl, hknown⟩, rfl, rfl⟩
      next =>
        obtain ⟨hf, -, -⟩ := basic.1 h
        exact absurd ((formatOf_iff _ _).1 ⟨hf, hknown⟩) unnamed
    · rintro ⟨-, hend, hextra, hnames, rfl, rfl⟩
      obtain ⟨rfl, hknown⟩ := (formatOf_iff _ _).2 hnames
      refine ⟨⟨_, ⟨by omega, rfl⟩, ?_⟩, hknown⟩
      rw [if_pos (show _ = Config.extSize from hextra)]
      simp only [except_bind_eq_ok, winRead_eq_ok_iff]
      exact ⟨_, ⟨by omega, rfl⟩, _, ⟨by omega, rfl⟩, _, ⟨by omega, rfl⟩, rfl⟩
  · have hext : ¬ windowField win (e + 4) 2 = 0xFFFE := hcode
    rw [if_neg hcode, basic, ← formatOf_iff]
    simp only [hext, false_and, or_false]
    exact and_right_comm

/-- Steps 11 and 12 answer the byte after the first `"data"` marker's header, where the stream reaches it (R155, R156). -/
theorem locatePayload_eq_ok {win : List Byte} {len start : Nat} :
    locatePayload win len = .ok start ↔ ∃ q, FirstAt win dataMark 0 q ∧ q + 8 ≤ len ∧ start = q + 8 := by
  have hmark {q : Nat} : findMark win dataMark 0 = some q ↔ FirstAt win dataMark 0 q := findMark_eq_some rfl
  unfold locatePayload
  cases hq : findMark win dataMark 0 with
  | none =>
    simp only [reduceCtorEq, false_iff, not_exists]
    exact fun q hfirst => by simp [hmark.2 hfirst.1] at hq
  | some q =>
    dsimp only
    constructor
    · intro h
      split at h <;> cases h
      exact ⟨q, hmark.1 hq, by omega, rfl⟩
    · rintro ⟨q', hfirst, hlen, rfl⟩
      obtain rfl := (hmark.1 hq).unique hfirst
      rw [if_neg (Nat.not_lt.2 hlen)]

/-- Step 13 passes exactly when the five tests do (R157). -/
theorem validate_eq_ok {depth vb rate channels : Nat} {format : SampleFormat} {u : Unit} :
    validate depth vb rate channels format = .ok u ↔
      depth ∈ Config.bitDepths ∧ vb ≠ 0 ∧ vb ≤ depth ∧ rate ≠ 0 ∧ channels ≠ 0 ∧ format ≠ .unknown := by
  unfold validate
  split_ifs with hd hv hr hc hf
  · exact iff_of_false nofun fun ⟨_, hne, hle, _⟩ => by omega
  · simp [hr]
  · simp [hc]
  · simp [hf]
  · exact iff_of_true rfl ⟨hd, by omega, by omega, hr, hc, hf⟩
  · simp [hd]

theorem Config.zero_not_mem_bitDepths : 0 ∉ Config.bitDepths := by decide

/-- Valid bits after step 10: they are never 0 beside a legal depth (R154). -/
theorem defaultValidBits_ne_zero {vb depth : Nat} (h : depth ∈ Config.bitDepths) : defaultValidBits vb depth ≠ 0 := by
  unfold defaultValidBits
  split
  · exact fun h0 => Config.zero_not_mem_bitDepths (h0 ▸ h)
  · assumption

/-! ## The parser, whole -/

/-- The parser accepts exactly the acceptable headers, and commits what they say (R144 to R158). -/
theorem parseHeader_eq_ok {win : List Byte} {len : Nat} {h : Header} :
    parseHeader Config.params win len = .ok h ↔ HeaderAccepted win len h := by
  have hfmt {p : Nat} : findMark win fmtMark 0 = some p ↔ FirstAt win fmtMark 0 p := findMark_eq_some rfl
  unfold parseHeader HeaderAccepted
  constructor
  · intro hok
    split at hok
    · cases hok
    next hriff =>
      split at hok
      · cases hok
      next p hp =>
        simp only [except_bind_eq_ok, readBasic_eq_ok, locatePayload_eq_ok, validate_eq_ok] at hok
        obtain ⟨_, ⟨hend, rfl⟩, x, hx, _, ⟨q, hq, hlen, rfl⟩, _, ⟨hdepth, -, hvalid, hrate, hchan, hknown⟩, ⟨⟩⟩ := hok
        exact ⟨p + 4, q, x.format, x.validBits, x.mask, not_not.1 hriff, ⟨by omega, hfmt.1 hp⟩, hq, hend, hlen,
          readExtension_eq_ok.1 ⟨hx, hknown⟩, hdepth, hvalid, hrate, hchan, rfl⟩
  · rintro ⟨e, q, format, vb, em, hriff, ⟨he, hp⟩, hq, hend, hlen, hformat, hdepth, hvalid, hrate, hchan, rfl⟩
    obtain ⟨p, rfl⟩ : ∃ p, e = p + 4 := ⟨e - 4, by omega⟩
    rw [Nat.add_sub_cancel] at hp
    obtain ⟨hx, hknown⟩ := readExtension_eq_ok (x := ⟨format, vb, em⟩).2 hformat
    rw [if_neg (not_not.2 (show win.take 4 = riffMark from hriff)), hfmt.2 hp]
    simp only [except_bind_eq_ok, readBasic_eq_ok, locatePayload_eq_ok, validate_eq_ok]
    exact ⟨_, ⟨hend, rfl⟩, _, hx, _, ⟨q, hq, hlen, rfl⟩, (),
      ⟨hdepth, defaultValidBits_ne_zero hdepth, hvalid, hrate, hchan, hknown⟩, rfl⟩

/-! ## `HP.PARSE` once the window is there -/

section
variable {s : State} {len : Nat} {w : List Byte} (ho : s.container ≠ .opened) (hp : s.present = true)
  (hlen : len ≤ 2 ^ 31 - 1) (hw : s.bytesAt 0 (min 1024 len) = some w)
include ho hp hlen hw

/-- `HP.PARSE` of a window the parser accepts commits the header (R158). -/
theorem exec_hpParse_of_ok {h : Header} (hh : parseHeader Config.params w len = .ok h) : exec (.hpParse len) s =
    .next { s.endsOk 3 0 h.md.words with
      container := .opened, streamLen := BitVec.ofNat 32 len, win := w, md := h.md, explMask := h.explMask,
      dataStart := h.dataStart, resolved := false, built := false, streams := [] } := by
  have hlen' : ¬ Config.maxStreamLen < len := Nat.not_lt.2 hlen
  have hw' : s.bytesAt 0 (min Config.winBytes len) = some w := hw
  simp only [exec_hpParse, execHpParse_eq, if_neg ho, hp, Bool.true_eq_false, if_false, if_neg hlen', hw', hh]

/-- `HP.PARSE` of a window the parser rejects leaves no container (R159). -/
theorem exec_hpParse_of_error {e : Reject} (he : parseHeader Config.params w len = .error e) : exec (.hpParse len) s =
    .next { (s.endsIn 3 0 1).noContainer with
      streamLen := BitVec.ofNat 32 len, win := w, reasons := s.reasons ++ (Config.parseReason e w len).toList } := by
  have hlen' : ¬ Config.maxStreamLen < len := Nat.not_lt.2 hlen
  have hw' : s.bytesAt 0 (min Config.winBytes len) = some w := hw
  simp only [exec_hpParse, execHpParse_eq, if_neg ho, hp, Bool.true_eq_false, if_false, if_neg hlen', hw', he]

end

/-- Settles O14: the parser accepts the header, and the accepting branch of `HP.PARSE` commits it. -/
theorem parseCommits : Obligations.ParseCommits := by
  intro s len w h ho hp hlen hw hh
  exact exec_hpParse_of_ok ho hp hlen hw (parseHeader_eq_ok.2 hh)

/-- Settles O15: the parser accepts acceptable headers only, so it answers the failing test. -/
theorem parseRejects : Obligations.ParseRejects := by
  intro s len w ho hp hlen hw hno
  cases he : parseHeader Config.params w len with
  | ok h => exact absurd (parseHeader_eq_ok.1 he) (hno h)
  | error e => exact ⟨e, rfl, exec_hpParse_of_error ho hp hlen hw he⟩

/-! ## What the two commands depend on -/

/-- Settles O17: each branch of `HP.PARSE` is chosen, and its response, text and header written, by these three alone. -/
theorem parseReadsWindowOnly : Obligations.ParseReadsWindowOnly := by
  intro s s' t len ho ho' hpresent hbytes h
  have hbytes' : s'.bytesAt 0 (min Config.winBytes len) = s.bytesAt 0 (min Config.winBytes len) := hbytes
  have silent (texts : List String) : texts = texts ++ [] := (List.append_nil texts).symm
  rw [exec_hpParse, execHpParse_eq, if_neg ho] at h
  rw [exec_hpParse, execHpParse_eq, if_neg ho', hpresent, hbytes']
  split at h
  next hp =>
    cases h
    rw [if_pos hp]
    exact ⟨_, _, [], rfl, rfl, rfl, silent _, silent _, rfl, nofun⟩
  next hp =>
    rw [if_neg hp]
    split at h
    next hl =>
      cases h
      rw [if_pos hl]
      exact ⟨_, _, [], rfl, rfl, rfl, silent _, silent _, rfl, nofun⟩
    next hl =>
      rw [if_neg hl]
      cases hw : s.bytesAt 0 (min Config.winBytes len) with
      | none => simp [hw] at h
      | some w =>
        rw [hw] at h
        dsimp only at h ⊢
        cases hp : parseHeader Config.params w len with
        | error e =>
          rw [hp] at h
          cases h
          exact ⟨_, _, _, rfl, rfl, rfl, rfl, rfl, rfl, nofun⟩
        | ok header =>
          rw [hp] at h
          cases h
          exact ⟨_, _, [], rfl, rfl, rfl, silent _, silent _, rfl, fun _ => ⟨rfl, rfl, rfl⟩⟩

/-- Settles O19: each branch of `HP.RESOLVE` is chosen, and its answer made, from these alone. -/
theorem resolveDeterministic : Obligations.ResolveDeterministic := by
  intro s s' t hc hn hm h
  have silent (texts : List String) : texts = texts ++ [] := (List.append_nil texts).symm
  rw [exec_hpResolve, execHpResolve_eq] at h ⊢
  rw [hc, hn, hm]
  cases ho : s.container with
  | closed =>
    rw [ho] at h
    cases h
    exact ⟨_, _, [], rfl, rfl, rfl, silent _, silent _, hc, fun h0 => absurd h0 (by decide)⟩
  | disposed =>
    rw [ho] at h
    cases h
    exact ⟨_, _, [], rfl, rfl, rfl, silent _, silent _, hc, fun h0 => absurd h0 (by decide)⟩
  | opened =>
    rw [ho] at h
    dsimp only at h ⊢
    cases hr : resolveMask Config.params s.md.channelCount.toNat s.explMask with
    | none =>
      rw [hr] at h
      cases h
      exact ⟨_, _, _, rfl, rfl, rfl, rfl, rfl, rfl, fun h0 => absurd h0 (by decide)⟩
    | some r =>
      rw [hr] at h
      cases h
      exact ⟨_, _, [], rfl, rfl, rfl, silent _, silent _, hc, fun _ => rfl⟩

end Sys2Proof.Machine

/-! SUPPORT. The invariants of R61: reset meets them (R60, R320), every step keeps them, and with them no command faults on a
stream whose length the host has given truly (R343). -/

namespace Sys2Proof.Machine

/-! ## The filter units -/

/-- The filter invariant reads the crossovers and how many stages there are: the rest of it holds of any stage (R54). -/
theorem State.filterInv_congr {s t : State} (h : s.FilterInv) (hx : t.xovers = s.xovers)
    (hl : t.stages.length = s.stages.length) : t.FilterInv := by
  obtain ⟨-, hrate, hlen⟩ := h
  exact ⟨fun g _ => g.st_eq_zero, hx ▸ hrate, by rw [hl, hx, hlen]⟩

/-- An initialised crossover with a positive sample rate keeps the filter invariant (R61(f)). -/
theorem State.filterInv_set {s t : State} {f : Nat} {x : Crossover} (h : s.FilterInv) (hx : t.xovers = s.xovers.set f x)
    (hl : t.stages.length = s.stages.length) (hrate : numPositive x.fs = true) : t.FilterInv := by
  obtain ⟨-, hall, hlen⟩ := h
  refine ⟨fun g _ => g.st_eq_zero, fun y hy hi => ?_, by rw [hl, hx, List.length_set, hlen]⟩
  rcases List.mem_or_eq_of_mem_set (hx ▸ hy) with hy | rfl
  · exact hall y hy hi
  · exact hrate

/-! ## No container -/

/-- With no container, nothing resolved and no stream, only the filter units and the form of the stream are left to hold. -/
theorem State.inv_of_noContainer {t : State} (hc : t.container = .closed) (hr : t.resolved = false) (hb : t.built = false)
    (hs : t.streams = []) (hf : t.FilterInv) (hm : t.MemoryInv) : t.Inv := by
  refine ⟨fun ho => by simp [hc] at ho, fun h => by simp [hr] at h, ⟨fun h => by simp [hb] at h, fun _ => hs, ?_, ?_⟩, hf, hm⟩
  · simp [hs]
  · simp [hs]

/-- Without a resolved mask there is no table (R61(c)). -/
theorem State.Inv.streams_of_unresolved {s : State} (h : s.Inv) (hr : s.resolved = false) :
    s.built = false ∧ s.streams = [] := by
  obtain ⟨-, -, ⟨hbuilt, hunbuilt, -⟩, -⟩ := h
  have hb : s.built = false := by
    by_contra hb
    simp [hr] at hbuilt
    exact hb hbuilt
  exact ⟨hb, hunbuilt hb⟩

/-! ## A new header -/

theorem Config.bitDepths_le {d : Nat} (h : d ∈ Config.bitDepths) : 8 ≤ d ∧ d ≤ 128 ∧ 8 * (d / 8) = d := by
  have all : ∀ d ∈ Config.bitDepths, 8 ≤ d ∧ d ≤ 128 ∧ 8 * (d / 8) = d := by decide
  exact all d h

theorem NamesFormat.known {tag : Nat} {format : SampleFormat} (h : NamesFormat tag format) : format ≠ .unknown :=
  ((formatOf_iff tag format).2 h).2

/-- An acceptable header has legal metadata (R38, R61(a)). -/
theorem HeaderAccepted.legal {w : List Byte} {len : Nat} {h : Header} (hh : HeaderAccepted w len h)
    (hlen : len ≤ Config.maxStreamLen) : h.md.Legal := by
  obtain ⟨e, q, format, vb, em, -, -, -, hend, hq, hformat, hdepth, hvalid, hrate, hchan, rfl⟩ := hh
  have hknown : format ≠ .unknown := by
    rcases hformat with ⟨h, -⟩ | ⟨-, -, -, h, -⟩ <;> exact h.known
  have hmax : Config.maxStreamLen = 2 ^ 31 - 1 := rfl
  have hratelt := windowField_lt (win := w) (o := e + 8) (n := 2) (by omega)
  have hchanlt := windowField_lt (win := w) (o := e + 6) (n := 2) (by omega)
  obtain ⟨hlo, hhi, -⟩ := Config.bitDepths_le hdepth
  have hvalidpos := defaultValidBits_ne_zero (vb := vb) hdepth
  unfold defaultValidBits at hvalidpos
  have fits16 {n : Nat} (hn : n < 256 ^ 2) : (BitVec.ofNat 16 n).toNat = n := Nat.mod_eq_of_lt hn
  have fits32 {n : Nat} (hn : n < 2 ^ 32) : (BitVec.ofNat 32 n).toNat = n := Nat.mod_eq_of_lt hn
  refine ⟨hknown, ?_, ⟨?_, ?_⟩, ?_, ⟨?_, ?_⟩, ?_⟩
  · rw [fits16 hchanlt]; omega
  · rw [fits32 (by omega)]; omega
  · rw [fits32 (by omega)]; omega
  · rw [fits16 (by omega)]; exact hdepth
  · rw [fits16 (by omega)]; omega
  · rw [fits16 (by omega), fits16 (by omega)]; exact hvalid
  · rw [fits32 (by omega)]; omega

/-- Where an acceptable header puts the payload (R41, R156). -/
theorem HeaderAccepted.layout {w : List Byte} {len : Nat} {h : Header} (hh : HeaderAccepted w len h)
    (hlen : len ≤ Config.maxStreamLen) (hw : w.length ≤ Config.winBytes) :
    8 ≤ h.dataStart.toNat ∧ h.dataStart.toNat ≤ 1028 ∧ h.dataStart.toNat + h.md.audioLengthBytes.toNat = len := by
  obtain ⟨e, q, format, vb, em, -, -, hmark, -, hq, -, -, -, -, -, rfl⟩ := hh
  have hin := hmark.add_four_le rfl
  have hmax : Config.maxStreamLen = 2 ^ 31 - 1 := rfl
  have hwin : Config.winBytes = 1024 := rfl
  simp only [BitVec.toNat_ofNat]
  omega

/-- A committed header gives a container that meets the invariants (R158). -/
theorem State.inv_commit {s : State} {len : Nat} {w : List Byte} {h : Header} (hf : s.FilterInv) (hm : s.MemoryInv)
    (hst : s.streamLen = BitVec.ofNat 32 len) (hlen : len ≤ Config.maxStreamLen) (hw : w.length ≤ Config.winBytes)
    (hh : HeaderAccepted w len h) : (s.commit h).Inv := by
  have hmax : Config.maxStreamLen = 2 ^ 31 - 1 := rfl
  have hlen' : s.streamLen.toNat = len := by rw [hst, BitVec.toNat_ofNat]; omega
  refine ⟨fun _ => ⟨hh.legal hlen, ?_⟩, nofun, ⟨nofun, fun _ => rfl, ?_, fun ho => absurd rfl ho⟩, hf, hm⟩
  · obtain ⟨hlo, hhi, hsum⟩ := hh.layout hlen hw
    exact ⟨hlo, hhi, hsum.trans hlen'.symm, hlen'.trans_le hlen⟩
  · simp

/-! ## The mask -/

/-- The mask of an open container's header is exclusive (R42). -/
theorem resolveMask_exclusive {n : Nat} {em : Word} {r : ResolvedMask} (hn : 1 ≤ n)
    (h : resolveMask Config.params n em = some r) : r.Exclusive := by
  have hlen : em ≠ 0 ∨ n ≤ 18 := by
    by_contra hno
    push Not at hno
    obtain ⟨rfl, hn⟩ := hno
    exact absurd (h.symm.trans (resolveMask_eq_none hn)) (by simp)
  rw [resolveMask_eq_some hlen, Option.some.injEq] at h
  subst h
  split_ifs with hem h1 h8
  · exact .inr ⟨rfl, hem⟩
  · exact .inl ⟨rfl, rfl⟩
  · exact .inr ⟨rfl, by decide⟩
  · refine .inr ⟨rfl, fun h0 => ?_⟩
    have hle := hlen.resolve_left hem
    have hval : (2 ^ n - 1) % 2 ^ 32 = 0 := congrArg BitVec.toNat h0
    have hlt : 2 ^ n < 2 ^ 32 := Nat.pow_lt_pow_right (by omega) (by omega)
    have hpos : 2 ^ 1 ≤ 2 ^ n := Nat.pow_le_pow_right (by omega) hn
    omega

/-- `HP.RESOLVE` keeps the invariants: a mask resolved before is the one resolved again (R169). -/
theorem State.inv_resolve {s : State} {r : ResolvedMask} (h : s.Inv) (ho : s.container = .opened)
    (hr : resolveMask Config.params s.md.channelCount.toNat s.explMask = some r) :
    State.Inv { s with rm := r, resolved := true } := by
  obtain ⟨hheader, hresolve, ⟨hbuilt, hunbuilt, hlegal, hclosed⟩, hf, hm⟩ := h
  obtain ⟨-, hchan, -⟩ := (hheader ho).1
  refine ⟨hheader, fun _ => ⟨by simp [ho], resolveMask_exclusive hchan hr, hr⟩, ⟨fun hb => ?_, hunbuilt, hlegal, hclosed⟩, hf, hm⟩
  obtain ⟨hres, hpos⟩ := hbuilt hb
  obtain ⟨-, -, hold⟩ := hresolve hres
  obtain rfl : s.rm = r := Option.some.inj (hold.symm.trans hr)
  exact ⟨rfl, hpos⟩

/-! ## The stream table -/

/-- A byte of the first frames is one of more frames. -/
theorem State.SampleByte.mono {s : State} {k n n' a : Nat} (hn : n ≤ n') (h : s.SampleByte k 0 n a) :
    s.SampleByte k 0 n' a := by
  obtain ⟨i, hi, j, hj, rfl⟩ := h
  exact ⟨i, hi.trans_le hn, j, hj, rfl⟩

/-- A fresh stream is legal (R183). -/
theorem ChannelStream.fresh_legal {s : State} {cap : Word} (own : Bool) (pos k : Nat) (hc : Config.minCap ≤ cap.toNat) :
    (ChannelStream.fresh cap own pos).Legal s k := ⟨hc, Nat.zero_le _, Nat.zero_le _, nofun, fun _ => rfl⟩

/-- The table `CS.BUILD` creates meets the invariants (R183, R61(c), (d)). -/
theorem State.inv_createStreams {s : State} {cap : Word} (own : Bool) (h : s.Inv) (ho : s.container = .opened)
    (hr : s.resolved = true) (hc : Config.minCap ≤ cap.toNat) : (s.createStreams own cap).Inv := by
  obtain ⟨hheader, hresolve, -, hf, hm⟩ := h
  refine ⟨hheader, hresolve, ⟨fun _ => ⟨hr, s.rm.fresh_positions cap own⟩, nofun, fun k hk => ?_, fun hn => absurd ho hn⟩, hf, hm⟩
  simp only [State.createStreams_streams, List.getElem_map]
  exact ChannelStream.legal_congr (s := s) rfl rfl (ChannelStream.fresh_legal own _ k hc)

/-- An entry replaced by one of the same value under `f` leaves the values of the table. -/
theorem map_set_of_eq {α : Type} {l : List ChannelStream} {k : Nat} {c c' : ChannelStream} {f : ChannelStream → α}
    (hk : l[k]? = some c) (h : f c' = f c) : (l.set k c').map f = l.map f := by
  obtain ⟨hlt, rfl⟩ := List.getElem?_eq_some_iff.1 hk
  rw [List.map_set, h, ← List.getElem_map f (h := by simpa using hlt), List.set_getElem_self]

/-- One entry replaced by a legal one of the same position keeps the invariants. -/
theorem State.inv_setStream {s : State} {k : Nat} {c c' : ChannelStream} (h : s.Inv) (hk : s.streams[k]? = some c)
    (hlegal : c'.Legal s k) (hpos : c'.pos = c.pos) (hclosed : s.container ≠ .opened → c'.closed = true) :
    (s.setStream k c').Inv := by
  obtain ⟨hheader, hresolve, ⟨hbuilt, hunbuilt, hall, hshut⟩, hf, hm⟩ := h
  obtain ⟨hlt, -⟩ := List.getElem?_eq_some_iff.1 hk
  have hmap : (s.streams.set k c').map (·.pos.toNat) = s.streams.map (·.pos.toNat) := map_set_of_eq hk (by rw [hpos])
  refine ⟨hheader, hresolve, ⟨fun hb => ?_, fun hb => ?_, fun i hi => ?_, fun hn d hd => ?_⟩, hf, hm⟩
  · obtain ⟨hr, hp⟩ := hbuilt hb
    exact ⟨hr, hmap.trans hp⟩
  · simp [hunbuilt hb] at hlt
  · simp only [State.setStream_streams, List.getElem_set]
    split
    next e => subst e; exact ChannelStream.legal_congr (s := s) rfl rfl hlegal
    next => exact ChannelStream.legal_congr (s := s) rfl rfl (hall i (by simpa using hi))
  · rcases List.mem_or_eq_of_mem_set hd with hd | rfl
    · exact hshut hn d hd
    · exact hclosed hn

/-- A cursor within the payload fits its register (R48, R188). -/
theorem ChannelStream.advance_cursor {s : State} {c : ChannelStream} {n : Nat} (h : c.cursor.toNat + n ≤ s.md.nFrames) :
    (c.advance n).cursor.toNat = c.cursor.toNat + n := by
  have hle : s.md.nFrames ≤ s.md.audioLengthBytes.toNat := Nat.div_le_self _ _
  have hlt := s.md.audioLengthBytes.isLt
  rw [ChannelStream.advance, BitVec.toNat_ofNat, Nat.mod_eq_of_lt (by omega)]

/-- The samples that remain lie within the payload (R188). -/
theorem ChannelStream.Legal.cursor_add_le {s : State} {k n : Nat} {c : ChannelStream} (h : c.Legal s k)
    (hn : n ≤ s.remaining c) : c.cursor.toNat + n ≤ s.md.nFrames := by
  obtain ⟨-, hcur, -⟩ := h
  rw [State.remaining] at hn
  omega

/-- An entry stays legal when its cursor moves within the payload (R191). -/
theorem ChannelStream.Legal.advance {s : State} {k n : Nat} {c : ChannelStream} (h : c.Legal s k) (hn : n ≤ s.remaining c) :
    (c.advance n).Legal s k := by
  have hle := h.cursor_add_le hn
  have hcur := ChannelStream.advance_cursor hle
  obtain ⟨hcap, -, hwb, hbytes, hclosed⟩ := h
  refine ⟨hcap, hcur.trans_le hle, hwb, fun p hp => ?_, hclosed⟩
  obtain ⟨hk, hb⟩ := hbytes p hp
  exact ⟨hk, hb.mono (by omega)⟩

/-- A closed entry is legal (R198). -/
theorem ChannelStream.Legal.shut {s : State} {k : Nat} {c : ChannelStream} (h : c.Legal s k) : c.shut.Legal s k := by
  unfold ChannelStream.shut
  split
  · exact h
  · obtain ⟨hcap, hcur, -⟩ := h
    exact ⟨hcap, hcur, Nat.zero_le _, nofun, fun _ => rfl⟩

theorem ChannelStream.shut_pos (c : ChannelStream) : c.shut.pos = c.pos := by unfold ChannelStream.shut; split <;> rfl

theorem ChannelStream.shut_closed (c : ChannelStream) : c.shut.closed = true := by
  unfold ChannelStream.shut
  split
  · assumption
  · rfl

/-- A disposal keeps the invariants (R199). -/
theorem State.inv_shutAll {s : State} {m : Memory} (h : s.Inv) (hm : m.wf = true) :
    State.Inv { s.shutAll m with container := .disposed } := by
  obtain ⟨-, hresolve, ⟨hbuilt, hunbuilt, hall, -⟩, hf, -⟩ := h
  have hmap : (s.streams.map ChannelStream.shut).map (·.pos.toNat) = s.streams.map (·.pos.toNat) := by
    rw [List.map_map]
    exact List.map_congr_left fun c _ => congrArg BitVec.toNat c.shut_pos
  refine ⟨nofun, fun hr => ?_, ⟨fun hb => ?_, fun hb => ?_, fun i hi => ?_, fun _ d hd => ?_⟩, hf, hm⟩
  · obtain ⟨-, hx, hmask⟩ := hresolve hr
    exact ⟨nofun, hx, hmask⟩
  · obtain ⟨hr, hp⟩ := hbuilt hb
    exact ⟨hr, hmap.trans hp⟩
  · simp [State.shutAll, hunbuilt hb]
  · simp only [State.shutAll, List.getElem_map]
    exact ChannelStream.legal_congr (s := s) rfl rfl (hall i (by simpa [State.shutAll] using hi)).shut
  · obtain ⟨c, -, rfl⟩ := List.mem_map.1 hd
    exact c.shut_closed

/-! ## `CS.WRITE` -/

/-- A sample is at most 16 bytes (R38), so it fits every capacity (R51). -/
theorem State.bytesPerSample_le {s : State} (h : s.Inv) (ho : s.container = .opened) : s.md.bytesPerSample ≤ 16 := by
  obtain ⟨⟨-, -, -, hdepth, -⟩, -⟩ := h.1 ho
  obtain ⟨-, hle, -⟩ := Config.bitDepths_le hdepth
  rw [Metadata.bytesPerSample]
  omega

/-- What `CS.WRITE` leaves pending is at most `cap` bytes (R197). -/
theorem State.write_pending_length {s : State} {k cap n : Nat} {vs : List Nat} {wb wb' : List Host.Cell} {m : Memory}
    {flush : Bool} (hb : s.md.bytesPerSample ≤ cap) (hwb : wb.length ≤ cap)
    (h : ((s.queueSamples k cap n vs s.stream wb).bind fun q => flushIf flush s.streamLen.toNat q.1 q.2) = some (m, wb')) :
    wb'.length ≤ cap := by
  obtain ⟨⟨m₁, wb₁⟩, hq, hflush⟩ := Option.bind_eq_some_iff.1 h
  have hlen := State.queueSamples_length hq hb hwb
  rcases flushIf_eq_some hflush with ⟨-, hnil, -⟩ | ⟨-, hsame⟩
  · obtain rfl : wb' = [] := hnil
    exact Nat.zero_le _
  · cases hsame
    exact hlen

/-- The entry `CS.WRITE` leaves is legal: what is pending was pending, or is a byte of a sample now passed (R195, R197). -/
theorem State.write_legal {s : State} {pos k : Nat} {c : ChannelStream} {vs : List Nat} {m : Memory} {wb : List Host.Cell}
    {flush : Bool} (h : s.Inv) (hu : s.Usable pos k vs.length c)
    (hw : ((s.queueSamples k c.cap.toNat c.cursor.toNat vs s.stream c.wb).bind fun q =>
      flushIf flush s.streamLen.toNat q.1 q.2) = some (m, wb)) :
    ({ c.advance vs.length with wb := wb } : ChannelStream).Legal s k := by
  obtain ⟨⟨ho, -, -, hk, hopen⟩, hchan, hrem⟩ := hu
  have hlegal := State.legal_of_inv h hk
  have hcur := ChannelStream.advance_cursor (hlegal.cursor_add_le hrem)
  obtain ⟨hcap, hle, -, hbytes, -⟩ := hlegal.advance hrem
  obtain ⟨-, -, hwb, -⟩ := hlegal
  have hsample := State.bytesPerSample_le h ho
  obtain ⟨done, hsplit, -, -⟩ := State.write_splits hw
  refine ⟨hcap, hle, State.write_pending_length (hsample.trans ?_) hwb hw, fun p hp => ?_, fun hc => ?_⟩
  · exact Nat.le_trans (by omega) hcap
  · have hmem : p ∈ done ++ wb := List.mem_append_right _ hp
    rw [hsplit] at hmem
    rcases List.mem_append.1 hmem with hold | hnew
    · exact hbytes p hold
    · obtain ⟨i, hi, j, hj, rfl⟩ := State.mem_sampleWrites.1 hnew
      exact ⟨hchan, c.cursor.toNat + i, (Nat.add_lt_add_left hi _).trans_eq hcur.symm, j, hj, by simp⟩
  · simp [ChannelStream.advance, hopen] at hc

/-! ## Every step keeps the invariants -/

/-- Every command keeps the invariants. -/
theorem State.Inv.exec {i : Instr} {s t : State} (h : s.Inv) (hx : exec i s = .next t) : t.Inv := by
  have hfilter : s.FilterInv := h.2.2.2.1
  have hmem : s.MemoryInv := h.2.2.2.2
  cases outcome_of_exec hx with
  | waits => exact h
  | error => exact State.inv_congr h rfl rfl rfl rfl rfl rfl rfl rfl rfl hfilter rfl
  | parseDropped => exact State.inv_of_noContainer rfl rfl rfl rfl hfilter hmem
  | parseRejected => exact State.inv_of_noContainer rfl rfl rfl rfl hfilter hmem
  | @parsed len w header hlen hw hp =>
    obtain ⟨hwin, -⟩ := State.bytesAt_eq_some.1 hw
    exact State.inv_commit (s := { s.endsOk 3 0 header.md.words with streamLen := BitVec.ofNat 32 len, win := w })
      hfilter hmem rfl hlen (hwin.trans_le (Nat.min_le_left _ _)) (parseHeader_eq_ok.1 hp)
  | unresolved ho hm =>
    have hr : s.resolved = false := by
      by_contra hr
      obtain ⟨-, -, hsome⟩ := h.2.1 (by simpa using hr)
      simp [hm] at hsome
    obtain ⟨hb, hs⟩ := h.streams_of_unresolved hr
    exact State.inv_of_noContainer rfl rfl hb hs hfilter hmem
  | resolved ho hm =>
    exact State.inv_congr (State.inv_resolve h ho hm) rfl rfl rfl rfl rfl rfl rfl rfl rfl hfilter rfl
  | @built own _ ho hr _ hc =>
    exact State.inv_congr (State.inv_createStreams own h ho hr hc) rfl rfl rfl rfl rfl rfl rfl rfl rfl hfilter rfl
  | @rebuilt own _ _ ho hr _ hc hw =>
    exact State.inv_congr (State.inv_createStreams own h ho hr hc) rfl rfl rfl rfl rfl rfl rfl rfl rfl hfilter
      (Memory.wf_writeAll hw)
  | enumerated => exact State.inv_congr h rfl rfl rfl rfl rfl rfl rfl rfl rfl hfilter rfl
  | read hu =>
    obtain ⟨⟨ho, -, -, hk, -⟩, -, hrem⟩ := hu
    exact State.inv_congr (State.inv_setStream h hk ((State.legal_of_inv h hk).advance hrem) rfl fun hn => absurd ho hn)
      rfl rfl rfl rfl rfl rfl rfl rfl rfl hfilter rfl
  | written _ hu hw =>
    obtain ⟨done, -, hdone, -⟩ := State.write_splits hw
    have hlegal := State.write_legal h (by rw [rawsOfWords_length]; exact hu) hw
    rw [rawsOfWords_length] at hlegal
    obtain ⟨⟨ho, -, -, hk, -⟩, -⟩ := hu
    exact State.inv_congr (State.inv_setStream h hk hlegal rfl fun hn => absurd ho hn)
      rfl rfl rfl rfl rfl rfl rfl rfl rfl hfilter (Memory.wf_writeAll hdone)
  | closed _ hk hw =>
    exact State.inv_congr
      (State.inv_setStream h hk (State.legal_of_inv h hk).shut (ChannelStream.shut_pos _) fun _ => ChannelStream.shut_closed _)
      rfl rfl rfl rfl rfl rfl rfl rfl rfl hfilter (Memory.wf_writeAll hw)
  | disposedAgain => exact State.inv_congr h rfl rfl rfl rfl rfl rfl rfl rfl rfl hfilter rfl
  | disposed _ hw =>
    exact State.inv_congr (State.inv_shutAll h ((Memory.wf_writeAll hw).trans hmem))
      rfl rfl rfl rfl rfl rfl rfl rfl rfl hfilter rfl
  | bound | stepped | ran =>
    exact State.inv_congr h rfl rfl rfl rfl rfl rfl rfl rfl rfl (State.filterInv_congr hfilter rfl List.length_set) rfl
  | inited hp =>
    exact State.inv_congr h rfl rfl rfl rfl rfl rfl rfl rfl rfl (State.filterInv_set hfilter rfl (by simp) hp) rfl
  | applied =>
    exact State.inv_congr h rfl rfl rfl rfl rfl rfl rfl rfl rfl (State.filterInv_congr hfilter rfl (by simp)) rfl

/-- An asserted reset meets the invariants (R320). -/
theorem State.inv_assertReset {s : State} (h : s.Inv) : s.assertReset.Inv := by
  obtain ⟨-, -, -, ⟨-, -, hlen⟩, hm⟩ := h
  refine State.inv_of_noContainer rfl rfl rfl rfl ⟨fun g _ => g.st_eq_zero, fun x hx hi => ?_, ?_⟩ hm
  · obtain ⟨-, -, rfl⟩ := List.mem_map.1 hx
    cases hi
  · simpa [State.assertReset] using hlen

/-- Settles O51: a step is a reset, a command, an illegal word or nothing, and each keeps the invariants. -/
theorem stepKeepsInv : Obligations.StepKeepsInv := by
  intro s t h hstep
  unfold step at hstep
  split at hstep
  · cases hstep
    exact State.inv_assertReset h
  · split at hstep
    · exact h.exec hstep
    · cases hstep
      exact State.inv_congr h rfl rfl rfl rfl rfl rfl rfl rfl rfl h.2.2.2.1 rfl
    · cases hstep
      exact h

/-! ## Reset -/

theorem Stage.fresh_values : Stage.fresh.st = 0 ∧ Stage.fresh.coef? = none ∧ Stage.fresh.hist = ⟨0, 0, 0, 0⟩ := ⟨rfl, rfl, rfl⟩

/-- The numbers of crossovers and stages (R8, R57, R126). -/
theorem Config.units : 1 ≤ Config.nXF ∧ Config.nFS = 2 * Config.nXF ∧ Config.nFS ≤ 256 := by
  have hlt := Nat.mod_lt Config.nXFRaw (show 0 < 128 by omega)
  unfold Config.nFS Config.nXF
  exact ⟨by omega, rfl, by omega⟩

/-- Settles O9: the fields of the reset state, and the range of `N_XF`. -/
theorem resetValues : Obligations.ResetValues := by
  obtain ⟨hpos, htwo, hmax⟩ := Config.units
  have hx : State.reset.xovers.length = Config.nXF := List.length_replicate
  have hs : State.reset.stages.length = Config.nFS := List.length_replicate
  refine ⟨rfl, rfl, rfl, rfl, rfl, fun g hg => ?_, fun x hx => ?_, by omega, by omega, by omega⟩
  · rw [List.eq_of_mem_replicate hg]
    exact Stage.fresh_values
  · rw [List.eq_of_mem_replicate hx]
    rfl

/-- Settles O10: the fields `State.assertReset` writes, and those it keeps. -/
theorem resetAsserted : Obligations.ResetAsserted := by
  intro s h
  refine ⟨s.assertReset, by rw [step, if_pos h], rfl, rfl, rfl, rfl, rfl, rfl, List.length_map _, fun g hg => ?_,
    List.length_map _, fun x hx => ?_, rfl, rfl, rfl, rfl, rfl, rfl, rfl, rfl⟩
  · obtain ⟨-, -, rfl⟩ := List.mem_map.1 hg
    exact Stage.fresh_values
  · obtain ⟨-, -, rfl⟩ := List.mem_map.1 hx
    rfl

/-- Settles O11: nothing is open, and the filter units are as constructed. -/
theorem resetKeepsInv : Obligations.ResetKeepsInv := by
  refine State.inv_of_noContainer rfl rfl rfl rfl ⟨fun g _ => g.st_eq_zero, fun x hx hi => ?_, ?_⟩ State.reset_stream_wf
  · rw [List.eq_of_mem_replicate hx] at hi
    cases hi
  · simp [State.reset, Config.nFS]

/-! ## Faults -/

/-- What the stream holds, the block reads, pending or not (R92). -/
theorem State.byteAt_isSome {s : State} {a : Nat} (h : (s.stream.read a).isSome = true) : (s.byteAt a).isSome = true := by
  rw [State.byteAt, Option.isSome_or, h, Bool.or_true]

/-- With the true length, every pending write can be performed (R343). -/
theorem State.pending_held {s : State} (h : s.Inv) (ho : s.container = .opened) (hh : s.StreamHolds s.streamLen.toNat) :
    ∀ p ∈ s.pending, p.1 < s.streamLen.toNat ∧ (s.stream.read p.1).isSome = true := fun p hp =>
  have hlt := State.pending_lt h ho p hp
  ⟨hlt, hh _ hlt⟩

/-- With the true length, a close of every stream does not fault (R185, R199, R343). -/
theorem State.closeAll_isSome {s : State} (h : s.Inv) (ho : s.container = .opened) (hh : s.StreamHolds s.streamLen.toNat) :
    ∃ m, s.stream.writeAll s.streamLen.toNat (s.streams.flatMap ChannelStream.openWb) = some m :=
  Memory.writeAll_isSome fun p hp => State.pending_held h ho hh p (State.mem_pending_of_openWb hp)

/-- With the true length, a close of one stream does not fault, whether or not its container is open (R198, R343). -/
theorem State.close_isSome {s : State} {k : Nat} {c : ChannelStream} (h : s.Inv)
    (hh : s.container = .opened → s.StreamHolds s.streamLen.toNat) (hk : s.streams[k]? = some c) :
    ∃ m, s.stream.writeAll s.streamLen.toNat c.openWb = some m := by
  by_cases ho : s.container = .opened
  · exact Memory.writeAll_isSome fun p hp => State.pending_held h ho (hh ho) p (State.mem_pending hk (c.mem_openWb hp))
  · obtain ⟨-, -, ⟨-, -, -, hclosed⟩, -⟩ := h
    have hc := hclosed ho c (List.mem_of_getElem? hk)
    exact ⟨s.stream, by rw [ChannelStream.openWb, if_pos hc]; rfl⟩

/-- With the true length, samples that remain can be read (R191, R343). -/
theorem State.readSamples_of_usable {s : State} {pos k count : Nat} {c : ChannelStream} (h : s.Inv)
    (hh : s.StreamHolds s.streamLen.toNat) (hu : s.Usable pos k count c) :
    ∃ vs, s.readSamples k c.cursor.toNat count = some vs := by
  obtain ⟨⟨ho, -, -, hk, -⟩, hchan, hrem⟩ := hu
  have hle := (State.legal_of_inv h hk).cursor_add_le hrem
  obtain ⟨-, -, -, hsum, -⟩ := h.1 ho
  refine State.readSamples_isSome fun i hi => ?_
  have hend := State.sampleAddr_end (s := s) (n := c.cursor.toNat + i) hchan (by omega)
  exact State.memRead_isSome (by omega) fun j hj => State.byteAt_isSome (hh _ (by omega))

/-- With the true length, samples that remain can be written (R195, R343). -/
theorem State.write_isSome {s : State} {pos k : Nat} {c : ChannelStream} {vs : List Nat} (flush : Bool) (h : s.Inv)
    (hh : s.StreamHolds s.streamLen.toNat) (hu : s.Usable pos k vs.length c) :
    ∃ r, ((s.queueSamples k c.cap.toNat c.cursor.toNat vs s.stream c.wb).bind fun q =>
      flushIf flush s.streamLen.toNat q.1 q.2) = some r := by
  obtain ⟨⟨ho, -, -, hk, -⟩, hchan, hrem⟩ := hu
  have hle := (State.legal_of_inv h hk).cursor_add_le hrem
  have held : ∀ p ∈ c.wb ++ s.sampleWrites k c.cursor.toNat vs,
      p.1 < s.streamLen.toNat ∧ (s.stream.read p.1).isSome = true := by
    intro p hp
    rcases List.mem_append.1 hp with hold | hnew
    · exact State.pending_held h ho hh p (State.mem_pending hk hold)
    · obtain ⟨i, hi, j, hj, rfl⟩ := State.mem_sampleWrites.1 hnew
      have hlt := State.sampleByte_lt h ho hchan hle ⟨i, hi, j, hj, rfl⟩
      exact ⟨hlt, hh _ hlt⟩
  obtain ⟨⟨m, wb⟩, hq⟩ := State.queueSamples_isSome (cap := c.cap.toNat) held
  rw [hq, Option.bind_some]
  cases flush with
  | false => exact ⟨_, rfl⟩
  | true =>
    obtain ⟨done, hsplit, hdone, -⟩ := State.queueSamples_eq hq
    obtain ⟨m', hm'⟩ := Memory.writeAll_isSome (limit := s.streamLen.toNat) (m := m) (cells := wb) fun p hp => by
      obtain ⟨hlt, hread⟩ := held p (hsplit ▸ List.mem_append_right _ hp)
      exact ⟨hlt, (Memory.held_writeAll hdone p.1).trans hread⟩
    exact ⟨(m', []), by simp [flushIf, hm']⟩

/-- Settles O52: the transfer of each faulting outcome is one that succeeds with the true length. -/
theorem noFaultWithTrueLength : Obligations.NoFaultWithTrueLength := by
  rintro i s r h ⟨hh, howes⟩ hx
  cases outcome_of_exec hx with
  | @parseFault len hw =>
    obtain ⟨w, hsome⟩ := State.bytesAt_isSome (s := s) (a := 0) (n := min Config.winBytes len) fun j hj =>
      State.byteAt_isSome (howes (0 + j) (by omega))
    simp [hsome] at hw
  | rebuildFault ho hw =>
    obtain ⟨m, hsome⟩ := State.closeAll_isSome h ho (hh ho)
    simp [hsome] at hw
  | disposeFault ho hw =>
    obtain ⟨m, hsome⟩ := State.closeAll_isSome h ho (hh ho)
    simp [hsome] at hw
  | closeFault _ hk hw =>
    obtain ⟨m, hsome⟩ := State.close_isSome h hh hk
    simp [hsome] at hw
  | readFault hu hv =>
    obtain ⟨vs, hsome⟩ := State.readSamples_of_usable h (hh hu.1.1) hu
    simp [hsome] at hv
  | @writeFault pos len k c hu hw =>
    obtain ⟨r, hsome⟩ := State.write_isSome (vs := rawsOfWords s.rawWords len s.bufIn) (Config.earlyFlush s.draws) h
      (hh hu.1.1) (by rw [rawsOfWords_length]; exact hu)
    simp [hsome] at hw

/-! ## A clean end -/

/-- Settles O54: outside an open container every stream is closed, and a closed one has nothing pending. -/
theorem cleanEndIsFlushed : Obligations.CleanEndIsFlushed := by
  intro s h hend
  obtain ⟨-, -, ⟨-, -, -, hclosed⟩, -⟩ := id h
  have hpending : s.pending = [] := List.flatMap_eq_nil_iff.2 fun c hc => by
    obtain ⟨k, hk, rfl⟩ := List.getElem_of_mem hc
    obtain ⟨-, -, -, -, hwb⟩ := State.legal_of_inv h (List.getElem?_eq_getElem hk)
    exact hwb (hclosed hend _ hc)
  exact ⟨hpending, hclosed hend, fun a => by rw [State.byteAt, hpending]; rfl⟩

end Sys2Proof.Machine

/-! SUPPORT. The channel streams' claims about whole commands: what `CS.BUILD`, `CS.READ`, `CS.WRITE`, `CS.CLOSE` and `CS.DISPOSE`
leave in every register and at every stream address, and the round trip (R180 to R202). -/

namespace Sys2Proof.Machine

/-! ## Checks -/

/-- Settles O22: the capacity check of `CS.BUILD`; a capacity below 1024 fits its word. -/
theorem capacityTooSmall : Obligations.CapacityTooSmall := by
  intro s own cap ho hr hcap
  have hsmall : (buildCap (some cap)).toNat < Config.minCap := by
    rw [buildCap, BitVec.toNat_ofNat, Nat.mod_eq_of_lt (by omega)]
    exact hcap
  rw [exec_csBuild, execCsBuild_eq own (some cap) ho]
  dsimp only
  rw [if_neg (by simp [hr]), if_pos hsmall]
  rfl

/-- The checks of R180 pass on an open container with a table. -/
theorem State.streamCheck_of_built {s : State} (ho : s.container = .opened) (hb : s.built = true) : s.streamCheck = none := by
  simp [State.streamCheck, ho, hb]

/-- The checks of R180 fail without a container, and without a table in an open one. -/
theorem State.streamCheck_of_no_table {s : State} (h : s.container = .closed ∨ (s.container = .opened ∧ s.built = false)) :
    s.streamCheck = some .illegalCommand := by
  rcases h with hc | ⟨ho, hb⟩
  · simp [State.streamCheck, hc]
  · simp [State.streamCheck, ho, hb]

/-- Without a container or a table no stream is found (R180). -/
theorem State.findStream_of_no_table {s : State} (pos : Nat)
    (h : s.container = .closed ∨ (s.container = .opened ∧ s.built = false)) : s.findStream pos = .error .illegalCommand := by
  rw [State.findStream, State.streamCheck_of_no_table h]

/-- Settles O23: the checks pass, and the answer is made of the table. -/
theorem enumLists : Obligations.EnumLists := by
  intro s ho hb
  rw [exec_csEnum, execCsEnum_eq, State.streamCheck_of_built ho hb]
  rfl

/-- Settles O33: each command's first check is of the container, the mask or the table. -/
theorem outOfOrder : Obligations.OutOfOrder := by
  refine ⟨fun s hc => ⟨?_, fun own cap => ?_, fun pos n hr => ⟨s.draws + 1, ?_⟩⟩, fun s ho hr own cap => ?_,
    fun s ho hb pos n hr => ?_, fun s h => ⟨?_, fun pos n => ?_⟩, fun s h pos => ?_⟩
  · rw [exec_hpResolve, execHpResolve_eq, hc]
  · rw [exec_csBuild, execCsBuild_refused own cap (by simp [hc]), if_neg (by simp [hc])]
  · rw [exec_csWrite, execCsWrite_eq hr, State.findStream_of_no_table pos (.inl hc)]
    dsimp only
    rw [if_pos hc]
    rfl
  · rw [exec_csBuild, execCsBuild_eq own cap ho]
    exact if_pos hr
  · exact exec_csWrite_of_error ho hr (State.findStream_of_no_table pos (.inr ⟨ho, hb⟩))
  · rw [exec_csEnum, execCsEnum_eq, State.streamCheck_of_no_table h]
    rfl
  · exact exec_csRead_of_error (State.findStream_of_no_table pos h)
  · rw [exec_csClose, execCsClose_eq, if_pos h]

/-! ## `CS.BUILD` of a built table -/

/-- The slots that a close of every stream releases, in the terms of the claims (R198). -/
theorem State.filter_releasable (s : State) : (List.range s.streams.length).filter s.releasable = s.ownedOpen := by
  refine List.filter_congr fun k _ => ?_
  unfold State.releasable
  cases s.streams[k]? <;> rfl

/-- A rebuild is a flush of every pending write, then the new table (R185). -/
theorem exec_csBuild_of_built {s : State} (own : Bool) {cap : Option Nat} {m : Memory} (ho : s.container = .opened)
    (hr : s.resolved = true) (hb : s.built = true) (hc : Config.minCap ≤ (buildCap cap).toNat)
    (hw : s.stream.writeAll s.streamLen.toNat (s.streams.flatMap ChannelStream.openWb) = some m) :
    exec (.csBuild own cap) s =
      let table := s.rm.positions.map (ChannelStream.fresh (buildCap cap) own)
      .next { s.endsOk (encode (.csBuild own cap)).length 0 [BitVec.ofNat 32 table.length] with
        stream := m, streams := table, releases := s.releases ++ s.ownedOpen } := by
  rw [exec_csBuild, execCsBuild_eq own cap ho, ← s.filter_releasable]
  dsimp only
  rw [if_neg (by simp [hr]), if_neg (Nat.not_lt.2 hc), if_pos hb, hw]
  dsimp only
  congr 2
  exact hb.symm

/-- What a flush of every pending write leaves at an address is what the block read there (R90, R92). -/
theorem State.read_closeAll {s : State} {m : Memory} (h : s.Inv)
    (hw : s.stream.writeAll s.streamLen.toNat (s.streams.flatMap ChannelStream.openWb) = some m) (a : Nat) :
    m.read a = s.byteAt a := by
  rw [State.openWb_eq_pending h] at hw
  exact Memory.read_writeAll hw a

/-- Settles O21: the flush of a close of every stream succeeds, and the table has the positions of the mask, as before. -/
theorem rebuildFlushes : Obligations.RebuildFlushes := by
  intro s own cap h hh ho hb hcap
  obtain ⟨hr, hpos⟩ := h.2.2.1.1 hb
  obtain ⟨m, hw⟩ := State.closeAll_isSome h ho hh
  refine ⟨m, _, exec_csBuild_of_built own ho hr hb (minCap_le_buildCap hcap) hw, State.read_closeAll h hw, ?_, fun c hc => ?_⟩
  · refine List.map_injective_iff.2 (fun _ _ => BitVec.eq_of_toNat_eq) ?_
    simpa only [List.map_map, Function.comp_def] using (s.rm.fresh_positions (buildCap cap) own).trans hpos.symm
  · obtain ⟨p, -, rfl⟩ := List.mem_map.1 hc
    exact ⟨rfl, buildCap_eq_elim cap, rfl, rfl, rfl⟩

/-! ## `CS.CLOSE` and `CS.DISPOSE` -/

/-- `CS.CLOSE` of a stream in the table (R198). -/
theorem exec_csClose_of_lookup {s : State} {pos k : Nat} {c : ChannelStream} {m : Memory} (hc : s.container ≠ .closed)
    (hb : s.built = true) (hl : s.lookup pos = some k) (hk : s.streams[k]? = some c)
    (hw : s.stream.writeAll s.streamLen.toNat c.openWb = some m) : exec (.csClose pos) s =
      .next { s.endsOk 1 0 [] with
        stream := m, streams := s.streams.set k c.shut,
        releases := if c.own && !c.closed then s.releases ++ [k] else s.releases } := by
  rw [exec_csClose, execCsClose_eq, if_neg (by simp [hc, hb]), hl]
  simp only [hk, hw]

/-- Settles O29: a closed stream has no writes to perform and stays as it is; of an open one the flush succeeds. -/
theorem closeFlushes : Obligations.CloseFlushes := by
  intro s pos k c hc hb hl hk
  refine ⟨fun hclosed => ?_, fun hopen h hh => ?_⟩
  · have hw : s.stream.writeAll s.streamLen.toNat c.openWb = some s.stream := by
      rw [ChannelStream.openWb, if_pos hclosed]; rfl
    obtain ⟨hlt, rfl⟩ := List.getElem?_eq_some_iff.1 hk
    rw [exec_csClose_of_lookup hc hb hl hk hw, ChannelStream.shut, if_pos hclosed, List.set_getElem_self, hclosed]
    simp
  · obtain ⟨m, hw⟩ := State.close_isSome h (fun _ => hh) hk
    have hwb : c.openWb = c.wb := if_neg (by simp [hopen])
    refine ⟨m, ?_, fun a => Memory.read_writeAll (hwb ▸ hw) a⟩
    rw [exec_csClose_of_lookup hc hb hl hk hw, ChannelStream.shut, if_neg (by simp [hopen]), hopen]
    simp

/-- A legal stream after a close: nothing pending, and closed (R198). -/
theorem ChannelStream.Legal.shut_eq {s : State} {k : Nat} {c : ChannelStream} (h : c.Legal s k) :
    c.shut = { c with wb := [], closed := true } := by
  obtain ⟨-, -, -, -, hwb⟩ := h
  unfold ChannelStream.shut
  split
  next hc =>
    have hnil := hwb hc
    obtain ⟨pos, cursor, cap, own, closed, wb⟩ := c
    obtain rfl : closed = true := hc
    obtain rfl : wb = [] := hnil
    rfl
  next => rfl

/-- Settles O30: one flush in slot order, after which every stream is shut. -/
theorem disposeFlushes : Obligations.DisposeFlushes := by
  intro s h hh ho
  obtain ⟨m, hw⟩ := State.closeAll_isSome h ho hh
  have hshut : s.streams.map ChannelStream.shut = s.streams.map fun c => { c with wb := [], closed := true } :=
    List.map_congr_left fun c hc => by
      obtain ⟨k, hk, rfl⟩ := List.getElem_of_mem hc
      exact (State.legal_of_inv h (List.getElem?_eq_getElem hk)).shut_eq
  refine ⟨m, ?_, State.read_closeAll h hw⟩
  rw [exec_csDispose, execCsDispose_eq, if_pos ho, hw, ← hshut, ← s.filter_releasable]

/-- `CS.DISPOSE` without an open container does nothing (R200). -/
theorem exec_csDispose_of_not_opened {s : State} (h : s.container ≠ .opened) : exec .csDispose s = .next (s.endsOk 1 0 []) := by
  rw [exec_csDispose, execCsDispose_eq, if_neg h]

/-- After `CS.DISPOSE` no container is open (R199). -/
theorem container_of_exec_csDispose {s t : State} (h : exec .csDispose s = .next t) : t.container ≠ .opened := by
  by_cases ho : s.container = .opened
  · rw [exec_csDispose, execCsDispose_eq, if_pos ho] at h
    split at h <;> cases h
    nofun
  · rw [exec_csDispose_of_not_opened ho] at h
    cases h
    exact ho

/-- Settles O31: a disposal leaves no open container, and without one `CS.DISPOSE` does nothing. -/
theorem disposeIdempotent : Obligations.DisposeIdempotent :=
  ⟨fun _ _ h => exec_csDispose_of_not_opened (container_of_exec_csDispose h), fun _ h => exec_csDispose_of_not_opened h⟩

/-! ## `CS.READ` -/

/-- `CS.READ` of a usable stream answers the samples read (R191). -/
theorem exec_csRead_of_usable {s : State} {pos count k : Nat} {c : ChannelStream} {vs : List Nat}
    (hu : s.Usable pos k count c) (hv : s.readSamples k c.cursor.toNat count = some vs) :
    exec (.csRead pos count) s = .next { s.endsOk 2 0 (wordsOfRaws (rawWidth s.md.bytesPerSample) vs) with
      streams := s.streams.set k (c.advance count) } := by
  obtain ⟨hf, hchan, hrem⟩ := hu
  rw [exec_csRead, execCsRead_eq, State.findStream_eq_ok.2 hf]
  dsimp only
  rw [if_neg (Nat.not_le.2 hchan), if_neg (Nat.not_lt.2 hrem), hv]

/-- Settles O24: the samples can be read, and each is the value of its bytes. -/
theorem readSamples : Obligations.ReadSamples := by
  intro s pos count k c h hh hu
  obtain ⟨vs, hv⟩ := State.readSamples_of_usable h hh hu
  obtain ⟨hlen, hmem⟩ := State.readSamples_eq_some.1 hv
  refine ⟨vs, exec_csRead_of_usable hu hv, hlen, fun v hmem' => ?_, fun i hi j hj => ?_⟩
  · obtain ⟨i, hi, rfl⟩ := List.getElem_of_mem hmem'
    exact (State.memRead_eq_some.1 (hmem i hi)).2.1
  · exact (State.memRead_eq_some.1 (hmem i hi)).2.2 j hj

/-! ## `CS.WRITE` -/

/-- Pending writes with one stream's replaced by others that give an address the same byte give it the same byte. -/
theorem lastWrite_flatMap_set {l : List ChannelStream} {k a : Nat} {c c' : ChannelStream} (hk : l[k]? = some c)
    (h : lastWrite c'.wb a = lastWrite c.wb a) :
    lastWrite ((l.set k c').flatMap (·.wb)) a = lastWrite (l.flatMap (·.wb)) a := by
  induction l generalizing k with
  | nil => rfl
  | cons d l ih =>
    cases k with
    | zero =>
      cases hk
      simp only [List.set_cons_zero, List.flatMap_cons, lastWrite_append, h]
    | succ k => simp only [List.set_cons_succ, List.flatMap_cons, lastWrite_append, ih hk]

/-- Writes that give an address a byte hold that byte for it. -/
theorem mem_of_lastWrite {cells : List Host.Cell} {a : Nat} {b : Byte} (h : lastWrite cells a = some b) : (a, b) ∈ cells := by
  induction cells with
  | nil => cases h
  | cons c cells ih =>
    rw [lastWrite] at h
    rcases Option.or_eq_some_iff.1 h with h | ⟨-, h⟩
    · exact List.mem_cons_of_mem _ (ih h)
    · split at h
      next e => cases h; rw [← e]; exact List.mem_cons_self
      next => cases h

section
variable {s t : State} {k n : Nat} {c c' : ChannelStream} {vs : List Nat} {done : List Host.Cell} {m : Memory}
  (h : s.Inv) (hchan : k < s.md.channelCount.toNat) (hk : s.streams[k]? = some c)
  (hsplit : done ++ c'.wb = c.wb ++ s.sampleWrites k n vs)
include h hchan hk

/-- Every write `CS.WRITE` performs or leaves pending is at a byte of its slot, which no other stream has pending (R83). -/
theorem State.others_not_pending_write {p : Host.Cell} (hp : p ∈ c.wb ++ s.sampleWrites k n vs) {k' : Nat} {d : ChannelStream}
    (hd : s.streams[k']? = some d) (hne : k' ≠ k) : ∀ q ∈ d.wb, q.1 ≠ p.1 := by
  rcases List.mem_append.1 hp with hold | hnew
  · obtain ⟨-, -, -, hbytes, -⟩ := State.legal_of_inv h hk
    exact State.others_not_pending h hchan hd hne (hbytes p hold).2
  · obtain ⟨i, hi, j, hj, rfl⟩ := State.mem_sampleWrites.1 hnew
    exact State.others_not_pending h hchan hd hne ⟨i, hi, j, hj, rfl⟩

include hsplit

/-- The stream as the block reads it after a `CS.WRITE`, whichever writes were performed: the new byte where there is one, and
what the block read before elsewhere (R92, R195). -/
theorem State.byteAt_write (hdone : s.stream.writeAll s.streamLen.toNat done = some m)
    (hs : t.streams = s.streams.set k c') (hm : t.stream = m) (a : Nat) :
    t.byteAt a = (lastWrite (s.sampleWrites k n vs) a).or (s.byteAt a) := by
  obtain ⟨hlt, -⟩ := List.getElem?_eq_some_iff.1 hk
  have hlast : (lastWrite c'.wb a).or (lastWrite done a) = (lastWrite (s.sampleWrites k n vs) a).or (lastWrite c.wb a) := by
    rw [← lastWrite_append, hsplit, lastWrite_append]
  rw [State.byteAt, State.byteAt, hm, Memory.read_writeAll hdone]
  by_cases hown : ∃ p ∈ c.wb ++ s.sampleWrites k n vs, p.1 = a
  · obtain ⟨p, hp, rfl⟩ := hown
    have hother {k' : Nat} {d : ChannelStream} (hd : s.streams[k']? = some d) (hne : k' ≠ k) :=
      State.others_not_pending_write h hchan hk hp hd hne
    have hkt : t.streams[k]? = some c' := by rw [hs, List.getElem?_set_self hlt]
    rw [State.lastWrite_pending hk fun k' d hd hne => hother hd hne,
      State.lastWrite_pending hkt fun k' d hd hne => hother (by rwa [hs, List.getElem?_set_ne (Ne.symm hne)] at hd) hne,
      ← Option.or_assoc, hlast, Option.or_assoc]
  · have none_of {cells : List Host.Cell} (hsub : ∀ p ∈ cells, p ∈ c.wb ++ s.sampleWrites k n vs) :
        lastWrite cells a = none := lastWrite_eq_none fun p hp e => hown ⟨p, hsub p hp, e⟩
    have hc' : lastWrite c'.wb a = none := none_of fun p hp => hsplit ▸ List.mem_append_right _ hp
    have hc : lastWrite c.wb a = none := none_of fun p hp => List.mem_append_left _ hp
    have hd : lastWrite done a = none := none_of fun p hp => hsplit ▸ List.mem_append_left _ hp
    have hnew : lastWrite (s.sampleWrites k n vs) a = none := none_of fun p hp => List.mem_append_right _ hp
    have hpend : lastWrite t.pending a = lastWrite s.pending a := by
      rw [State.pending, hs]
      exact lastWrite_flatMap_set hk (hc'.trans hc.symm)
    rw [hpend, hd, hnew, Option.none_or, Option.none_or]

/-- After a `CS.WRITE` the stream itself holds, at each address, its old byte or the byte the block reads there: old writes are
all performed before new ones, and the new ones lie past the cursor (R195). -/
theorem State.read_write (hdone : s.stream.writeAll s.streamLen.toNat done = some m) (hs : t.streams = s.streams.set k c')
    (hm : t.stream = m) (hn : n = c.cursor.toNat) (hfirst : done = [] ∨ c.wb <+: done) (a : Nat) :
    m.read a = s.stream.read a ∨ m.read a = t.byteAt a := by
  obtain ⟨hsample, -⟩ := State.lastWrite_sampleWrites (s := s) (k := k) (n := n) (vs := vs) hchan
  rw [State.byteAt_write h hchan hk hsplit hdone hs hm a, Memory.read_writeAll hdone]
  cases hlast : lastWrite done a with
  | none => exact .inl (Option.none_or ..)
  | some b =>
    right
    rw [Option.some_or]
    have hmem : (a, b) ∈ c.wb ++ s.sampleWrites k n vs := hsplit ▸ List.mem_append_left _ (mem_of_lastWrite hlast)
    cases hnew : lastWrite (s.sampleWrites k n vs) a with
    | some b' =>
      obtain ⟨i, hi, j, hj, e⟩ := State.mem_sampleWrites.1 (mem_of_lastWrite hnew)
      rcases List.mem_append.1 hmem with hold | hmem
      · obtain ⟨-, -, -, hbytes, -⟩ := State.legal_of_inv h hk
        obtain ⟨-, i', hi', j', hj', e'⟩ := hbytes _ hold
        have := State.sampleAddr_inj hchan hchan hj' hj (e'.symm.trans (congrArg Prod.fst e))
        omega
      · obtain ⟨i', hi', j', hj', e'⟩ := State.mem_sampleWrites.1 hmem
        have hb := hsample i' hi' j' hj'
        obtain ⟨rfl, rfl⟩ := Prod.mk.inj e'
        rw [Option.some_or, ← hnew, hb]
    | none =>
      have hnone {p : Host.Cell} (hp : p ∈ s.sampleWrites k n vs) : p.1 ≠ a := by
        obtain ⟨i, hi, j, hj, rfl⟩ := State.mem_sampleWrites.1 hp
        intro e
        have hb := hsample i hi j hj
        rw [show s.sampleAddr k (n + i) + j = a from e, hnew] at hb
        cases hb
      have hold : lastWrite c.wb a = some b := by
        rcases hfirst with rfl | ⟨rest, rfl⟩
        · cases hlast
        · rw [List.append_assoc, List.append_cancel_left_eq] at hsplit
          have hrest : lastWrite rest a = none := lastWrite_eq_none fun p hp =>
            hnone (hsplit ▸ List.mem_append_left _ hp)
          rwa [lastWrite_append, hrest, Option.none_or] at hlast
      rw [Option.none_or, State.byteAt, State.lastWrite_pending hk fun k' d hd hne =>
        State.others_not_pending_write h hchan hk hmem hd hne, hold, Option.some_or]

end

/-- `CS.WRITE` of raw samples that fit to a usable stream (R195, R197). -/
theorem exec_csWrite_of_usable {s : State} {pos len k : Nat} {c : ChannelStream} {m : Memory} {wb : List Host.Cell}
    (hr : s.Ready (.csWrite pos len)) (hu : s.Usable pos k len c)
    (hv : ∀ v ∈ rawsOfWords s.rawWords len s.bufIn, v < 256 ^ s.md.bytesPerSample)
    (hw : ((s.queueSamples k c.cap.toNat c.cursor.toNat (rawsOfWords s.rawWords len s.bufIn) s.stream c.wb).bind fun q =>
      flushIf (Config.earlyFlush s.draws) s.streamLen.toNat q.1 q.2) = some (m, wb)) :
    exec (.csWrite pos len) s = .next { s.endsOk 2 (s.rawWords * len) [] with
      stream := m, streams := s.streams.set k { c.advance len with wb := wb }, draws := s.draws + 1 } := by
  obtain ⟨hf, hchan, hrem⟩ := hu
  rw [exec_csWrite_of_fits hr hf hv, if_neg (Nat.not_le.2 hchan), if_neg (Nat.not_lt.2 hrem), hw]

/-- Settles O27: the samples can be queued; of the writes then pending or new, some are performed and the rest pending, which is
one stream to the block. -/
theorem writeSamples : Obligations.WriteSamples := by
  intro s pos len k c h hh hu hr vs hv
  have hlen : vs.length = len := rawsOfWords_length _ _ _
  obtain ⟨⟨m, wb⟩, hw⟩ := State.write_isSome (vs := vs) (Config.earlyFlush s.draws) h hh (by rw [hlen]; exact hu)
  refine ⟨m, wb, s.draws + 1, _, exec_csWrite_of_usable hr hu hv hw, rfl, ?_, ?_, ?_⟩
  · have hlegal := State.write_legal h (by rw [hlen]; exact hu) hw
    obtain ⟨-, -, hwb, -⟩ := hlegal
    exact hwb
  all_goals
    obtain ⟨⟨-, -, -, hk, -⟩, hchan, -⟩ := hu
    obtain ⟨done, hsplit, hdone, hfirst⟩ := State.write_splits hw
  · obtain ⟨hsample, hother⟩ := State.lastWrite_sampleWrites (s := s) (n := c.cursor.toNat) (vs := vs) hchan
    refine ⟨fun i hi j hj => ?_, fun a ha => ?_⟩
    · rw [State.byteAt_write (c' := { c.advance len with wb := wb }) h hchan hk hsplit hdone rfl rfl, hsample i hi j hj,
        Option.some_or]
    · rw [State.byteAt_write (c' := { c.advance len with wb := wb }) h hchan hk hsplit hdone rfl rfl, hother a ha,
        Option.none_or]
  · exact State.read_write (c' := { c.advance len with wb := wb }) h hchan hk hsplit hdone rfl rfl rfl hfirst

/-! ## The round trip -/

/-- The lookup reads the positions alone (R187). -/
theorem State.lookup_congr {s t : State} (h : t.streams.map (·.pos) = s.streams.map (·.pos)) (pos : Nat) :
    t.lookup pos = s.lookup pos := by
  have key (u : State) : u.lookup pos = (u.streams.map (·.pos)).findIdx? fun p => p.toNat == pos := by
    rw [List.findIdx?_map]; rfl
  rw [key, key, h]

/-- No command changes an address from held to not held, or back: it changes the stream by flushes only (R78). -/
theorem held_of_exec {i : Instr} {s t : State} (h : exec i s = .next t) (a : Nat) :
    (t.stream.read a).isSome = (s.stream.read a).isSome := by
  cases outcome_of_exec h with
  | rebuilt _ _ _ _ hw => exact Memory.held_writeAll hw a
  | closed _ _ hw => exact Memory.held_writeAll hw a
  | disposed _ hw => exact Memory.held_writeAll hw a
  | written _ _ hw =>
    obtain ⟨done, -, hdone, -⟩ := State.write_splits hw
    exact Memory.held_writeAll hdone a
  | _ => rfl

/-- After a rebuild the stream of a slot inside the frame is fresh, all its frames remain, and the block reads the bytes it read
before (R183, R185). -/
theorem usable_after_rebuild {s : State} {pos k count : Nat} (own : Bool) {cap : Option Nat} (h : s.Inv)
    (hh : s.StreamHolds s.streamLen.toNat) (ho : s.container = .opened) (hb : s.built = true) (hl : s.lookup pos = some k)
    (hchan : k < s.md.channelCount.toNat) (hcount : count ≤ s.md.nFrames)
    (hcap : ∀ n, cap = some n → 1024 ≤ n ∧ n < 2 ^ 32) :
    ∃ t c, exec (.csBuild own cap) s = .next t ∧ t.Inv ∧ t.StreamHolds t.streamLen.toNat ∧ t.Usable pos k count c ∧
      c.cursor = 0 ∧ (∀ a, t.byteAt a = s.byteAt a) ∧ t.md = s.md ∧ t.dataStart = s.dataStart := by
  obtain ⟨m, streams, hx, hread, hpos, hfresh⟩ := rebuildFlushes s own cap h hh ho hb hcap
  obtain ⟨c₀, hk₀, -⟩ := State.lookup_eq_some hl
  have hk : k < streams.length := by
    have hlen := congrArg List.length hpos
    obtain ⟨hlt, -⟩ := List.getElem?_eq_some_iff.1 hk₀
    simp only [List.length_map] at hlen
    omega
  obtain ⟨hcur, -, -, hopen, -⟩ := hfresh streams[k] (List.getElem_mem hk)
  have hpending : streams.flatMap (·.wb) = [] := List.flatMap_eq_nil_iff.2 fun c hc => (hfresh c hc).2.2.2.2
  refine ⟨_, streams[k], hx, h.exec hx, fun a ha => (held_of_exec hx a).trans (hh a ha),
    ⟨⟨ho, hb, ?_, List.getElem?_eq_getElem hk, hopen⟩, hchan, ?_⟩, hcur, fun a => ?_, rfl, rfl⟩
  · rw [← hl]
    exact State.lookup_congr hpos pos
  · rw [State.remaining, hcur]
    exact hcount
  · rw [State.byteAt, State.pending, hpending, ← hread a]
    rfl

/-- Settles O34: the write leaves its samples where the block reads them, the rebuild keeps every byte as the block reads it and
puts a fresh stream in the same slot, and the read answers the values of those bytes. -/
theorem roundTrip : Obligations.RoundTrip := by
  intro s pos len k c own cap h hh hu hcur hr hv hcap
  obtain ⟨m₁, wb, d, t₁, hx₁, ht₁, -, ⟨hsample, -⟩, -⟩ := writeSamples s pos len k c h hh hu hr hv
  obtain ⟨⟨ho, hb, hl, hk, -⟩, hchan, hrem⟩ := hu
  have hh₁ : t₁.StreamHolds s.streamLen.toNat := fun a ha => (held_of_exec hx₁ a).trans (hh a ha)
  have h₁ := h.exec hx₁
  subst ht₁
  obtain ⟨t₂, c₂, hx₂, h₂, hh₂, hu₂, hcur₂, hbyte, hmd, hdata⟩ := usable_after_rebuild own h₁ hh₁ ho hb
    ((State.lookup_congr (s := s) (map_set_of_eq (c' := { c with cursor := BitVec.ofNat 32 (c.cursor.toNat + len), wb := wb })
      hk rfl) pos).trans hl) hchan (hrem.trans (Nat.sub_le _ _)) hcap
  obtain ⟨vs, hx₃, hlen, hlt, hbytes⟩ := readSamples t₂ pos len k c₂ h₂ hh₂ hu₂
  rw [hmd, hdata, hcur₂] at hbytes
  rw [hmd] at hx₃ hlt
  have hvs : vs = rawsOfWords s.rawWords len s.bufIn := by
    refine List.ext_getElem (hlen.trans (rawsOfWords_length _ _ _).symm) fun i hi hi' => ?_
    refine eq_of_bytes (hlt _ (List.getElem_mem hi)) (hv _ (List.getElem_mem hi')) fun j hj => ?_
    have hwritten := hsample i hi' j hj
    rw [← hbyte, hcur] at hwritten
    exact Option.some.inj ((hbytes i hi j hj).symm.trans hwritten)
  refine ⟨_, t₂, _, hx₁, hx₂, hx₃, ?_⟩
  have hwidth : s.rawWords = rawWidth s.md.bytesPerSample := if_neg (by simp [ho])
  rw [hvs, ← wordsOfRaws_rawsOfWords hr, hwidth]
  rfl

/-! ## Converted values -/

/-- A raw sample of the container's bit depth is one of its bytes (R38, R114). -/
theorem State.two_pow_bitDepth {s : State} (h : s.Inv) (ho : s.container = .opened) :
    2 ^ s.md.bitDepth.toNat = 256 ^ s.md.bytesPerSample := by
  obtain ⟨⟨-, -, -, hdepth, -⟩, -⟩ := h.1 ho
  obtain ⟨-, -, hmul⟩ := Config.bitDepths_le hdepth
  rw [Metadata.bytesPerSample, show 256 = 2 ^ 8 from rfl, ← pow_mul, hmul]

/-- The port words of a raw sample hold its bytes (R124). -/
theorem bytes_le_words (B : Nat) : 256 ^ B ≤ (2 ^ 32) ^ rawWidth B := by
  rw [show 256 = 2 ^ 8 from rfl, ← pow_mul, ← pow_mul]
  exact Nat.pow_le_pow_right (by omega) (by unfold rawWidth; omega)

/-- Settles O35: the words of the converted values come back, and the law of `CONV` undoes the conversion. -/
theorem convertedRoundTrip : Obligations.ConvertedRoundTrip := by
  intro T conv s pos k c ts rest own cap h hh hu hcur hlaw hrep hbuf hcap
  have ho : s.container = .opened := hu.1.1
  have hwidth : s.rawWords = rawWidth s.md.bytesPerSample := if_neg (by simp [ho])
  have hraw : ∀ v ∈ ts.map (conv.encodeRaw s.md), v < 256 ^ s.md.bytesPerSample := by
    intro v hv
    obtain ⟨t, ht, rfl⟩ := List.mem_map.1 hv
    rw [← State.two_pow_bitDepth h ho]
    exact (hlaw t (hrep t ht)).1
  have hback (rest : List Word) : rawsOfWords (rawWidth s.md.bytesPerSample) ts.length (conv.toPort s.md ts ++ rest) =
      ts.map (conv.encodeRaw s.md) := by
    have hfit := rawsOfWords_wordsOfRaws rest fun v hv => (hraw v hv).trans_le (bytes_le_words s.md.bytesPerSample)
    rwa [List.length_map] at hfit
  have hlen : (conv.toPort s.md ts).length = s.rawWords * ts.length := by
    rw [Conv.toPort, wordsOfRaws_length, List.length_map, hwidth]
  have hr : s.Ready (.csWrite pos ts.length) := by
    rw [State.Ready, State.bufferWords, hbuf, List.length_append, hlen]
    exact Nat.le_add_right _ _
  obtain ⟨t₁, t₂, t₃, hx₁, hx₂, hx₃, hresp⟩ := roundTrip s pos ts.length k c own cap h hh hu hcur hr
    (by rw [hbuf, hwidth, hback]; exact hraw) hcap
  refine ⟨t₁, t₂, t₃, conv.toPort s.md ts, hx₁, hx₂, hx₃, ?_, ?_⟩
  · rw [hresp, hbuf, List.take_left' hlen]
  · have hall := hback []
    rw [List.append_nil] at hall
    rw [Conv.ofPort, hall, List.map_map]
    exact (List.map_congr_left fun t ht => (hlaw t (hrep t ht)).2).trans (List.map_id ts)

end Sys2Proof.Machine

/-! SUPPORT. The filter units' claims about whole commands: what a bind loads (R222, R229), a buffer through one stage and its
splitting (R235, R236), the cascade (R254 to R257, R260), and unit indices out of range (R126). -/

namespace Sys2Proof.Machine

/-! ## Binding -/

/-- What a bind loads is what a bind may load (R224, R229). -/
theorem boundCoef_mayBind (kind : FilterKind) (fs fc : Num64) (n : Nat) : MayBind kind fs fc (boundCoef kind fs fc n) :=
  fun h => if_pos h

/-- Settles O36: the index check, then the bind of a stage that exists. -/
theorem bindLoads : Obligations.BindLoads := by
  refine fun s stage kind fs fc => ⟨fun hlen => ?_, fun g hg => ?_⟩
  · rw [exec_fsBind, execFsBind_eq, List.getElem?_eq_none hlen]
  · refine ⟨_, s.draws + boundDraws fs fc, boundCoef_mayBind kind fs fc s.draws, ?_⟩
    rw [exec_fsBind, execFsBind_eq, hg, ← Stage.bind_eq]

/-! ## A buffer through one stage -/

/-- `FS.RUN` on a stage with coefficients (R236). -/
theorem exec_fsRun_of_coef {s : State} {stage len : Nat} {g : Stage} {c : Coef Num64} (hg : s.stages[stage]? = some g)
    (hc : g.coef? = some c) (hr : s.Ready (.fsRun stage len)) : exec (.fsRun stage len) s =
      let xs := numsOfWords len s.bufIn
      let r := biquadRun binary64At c s.draws g.hist xs
      .next { s.endsOk 2 (2 * len) (wordsOfNums r.1) with
        stages := s.stages.set stage (g.ran c r.2 len), draws := s.draws + len } := by
  rw [exec_fsRun, execFsRun_eq hr, State.runStage_of_coef hg hc]
  simp only [numsOfWords_length]

/-- A stage after a buffer, in the terms of the claims (R233, R236). -/
theorem Stage.ran_eq (g : Stage) (c : Coef Num64) {xs ys : List Num64} {n : Nat} (hn : xs.length = n) :
    g.ran c (historyAfter g.hist xs ys) n = stageAfter g c xs ys := by
  subst hn
  simp only [Stage.ran, stageAfter, List.length_eq_zero_iff]

/-- Settles O38: the run's outputs solve the difference equation, and its history is the last two of each. -/
theorem runFilters : Obligations.RunFilters := by
  intro s stage len g c hg hc hr xs
  obtain ⟨hout, hhist⟩ := biquadRun_outputs c s.draws g.hist xs
  refine ⟨(biquadRun binary64At c s.draws g.hist xs).1, s.draws + len, hout, ?_⟩
  rw [exec_fsRun_of_coef hg hc hr, ← Stage.ran_eq g c (numsOfWords_length len s.bufIn), ← hhist]
  rfl

/-! ## Splitting a buffer -/

theorem numsOfWords_add (m n : Nat) (ws : List Word) :
    numsOfWords (m + n) ws = numsOfWords m ws ++ numsOfWords n (ws.drop (2 * m)) := by
  induction m generalizing ws with
  | zero => simp [numsOfWords]
  | succ m ih => rw [Nat.succ_add, numsOfWords, ih, numsOfWords, List.drop_drop, Nat.mul_succ, Nat.add_comm 2]; rfl

/-- A buffer in two parts: the second runs on from the history the first leaves (R231, R232). -/
theorem biquadRun_append {α : Type} (ops : Nat → NumOps α) (c : Coef α) (d : Nat) (h : History α) (xs ys : List α) :
    biquadRun ops c d h (xs ++ ys) =
      let r := biquadRun ops c d h xs
      let r' := biquadRun ops c (d + xs.length) r.2 ys
      (r.1 ++ r'.1, r'.2) := by
  induction xs generalizing d h with
  | nil => rfl
  | cons x xs ih =>
    simp only [List.cons_append, biquadRun, ih, List.length_cons, Nat.add_assoc, Nat.add_comm 1]

/-- The stage after a run holds the run's history, also after an empty buffer (R236). -/
theorem Stage.ran_hist (g : Stage) (c : Coef Num64) (ops : Nat → NumOps Num64) (d : Nat) (xs : List Num64) :
    (g.ran c (biquadRun ops c d g.hist xs).2 xs.length).hist = (biquadRun ops c d g.hist xs).2 := by
  cases xs <;> rfl

/-- A run leaves the coefficients (R236). -/
theorem Stage.ran_coef {g : Stage} {c : Coef Num64} (hc : g.coef? = some c) (h : History Num64) (n : Nat) :
    (g.ran c h n).coef? = some c := by
  unfold Stage.ran
  split
  · exact hc
  · rfl

/-- Two runs leave the stage that one run of both buffers leaves (R236). -/
theorem Stage.ran_ran (g : Stage) (c : Coef Num64) (ops : Nat → NumOps Num64) (d : Nat) (h : History Num64)
    (m : Nat) (ys : List Num64) :
    (g.ran c h m).ran c (biquadRun ops c d h ys).2 ys.length = g.ran c (biquadRun ops c d h ys).2 (m + ys.length) := by
  cases ys with
  | nil => rfl
  | cons y ys => simp [Stage.ran]

/-- Settles O39: a run of a buffer in two parts, with the stage between them. -/
theorem runSplits : Obligations.RunSplits := by
  intro s t₁ t₂ t stage m n g c hg hc hr h₁ h₂ h
  have hready : 2 * (m + n) ≤ s.bufIn.length := hr
  have hr₁ : s.Ready (.fsRun stage m) := show 2 * m ≤ s.bufIn.length by omega
  rw [exec_fsRun_of_coef hg hc hr₁] at h₁
  obtain ⟨hlt, -⟩ := List.getElem?_eq_some_iff.1 hg
  injection h₁ with e₁
  have hstages₁ := congrArg State.stages e₁.symm
  have hg₁ : t₁.stages[stage]? =
      some (g.ran c (biquadRun binary64At c s.draws g.hist (numsOfWords m s.bufIn)).2 m) := by
    rw [hstages₁]
    exact List.getElem?_set_self hlt
  have hbuf₁ : t₁.bufIn = s.bufIn.drop (2 * m) := congrArg State.bufIn e₁.symm
  have hresp₁ := congrArg State.responses e₁.symm
  have hdraws₁ : t₁.draws = s.draws + m := congrArg State.draws e₁.symm
  have hr₂ : t₁.Ready (.fsRun stage n) := show 2 * n ≤ t₁.bufIn.length by rw [hbuf₁, List.length_drop]; omega
  rw [exec_fsRun_of_coef hg₁ (Stage.ran_coef hc _ _) hr₂, hbuf₁, hdraws₁] at h₂
  cases h₂
  rw [exec_fsRun_of_coef hg hc hr] at h
  cases h
  have hhist := Stage.ran_hist g c binary64At s.draws (numsOfWords m s.bufIn)
  have hran := Stage.ran_ran g c binary64At (s.draws + m)
    (biquadRun binary64At c s.draws g.hist (numsOfWords m s.bufIn)).2 m (numsOfWords n (s.bufIn.drop (2 * m)))
  rw [numsOfWords_length] at hhist hran
  simp only [hstages₁, hbuf₁, hresp₁, numsOfWords_add, biquadRun_append, numsOfWords_length, hhist, List.set_set, hran,
    List.drop_drop, Nat.mul_add]
  refine ⟨trivial, trivial, _, _, List.append_assoc .., ?_⟩
  rw [wordsOfNums, List.flatMap_append]
  rfl

/-! ## The cascade -/

/-- With the same operations for every sample, a run does not depend on where the numbering of samples begins. -/
theorem biquadRun_const {α : Type} (ops : NumOps α) (c : Coef α) (d d' : Nat) (h : History α) (xs : List α) :
    biquadRun (fun _ => ops) c d h xs = biquadRun (fun _ => ops) c d' h xs := by
  induction xs generalizing d d' h with
  | nil => rfl
  | cons x xs ih => simp only [biquadRun, ih (d + 1) (d' + 1)]

/-- Settles O44: by induction on the buffer, for any two histories. -/
theorem cascadeOrder : Obligations.CascadeOrder := by
  intro α ops c d h₁ h₂ xs
  induction xs generalizing d h₁ h₂ with
  | nil => rfl
  | cons x xs ih =>
    simp only at ih
    simp only [cascadeRun, biquadRun, ih, biquadRun_const ops c (d + 2) (d + 1)]

/-- `XF.APPLY` on an initialised crossover (R255, R256). -/
theorem exec_xfApply_of_inited {s : State} {f len : Nat} (fc : Num64) {x : Crossover} {g₁ g₂ : Stage}
    (hx : s.xovers[f]? = some x) (hi : x.inited = true) (h₁ : s.stages[2 * f]? = some g₁) (h₂ : s.stages[2 * f + 1]? = some g₂)
    (hr : s.Ready (.xfApply f fc len)) : exec (.xfApply f fc len) s =
      let c := boundCoef x.kind x.fs fc s.draws
      let r := cascadeRun binary64At c (s.draws + boundDraws x.fs fc) g₁.hist g₂.hist (numsOfWords len s.bufIn)
      .next { s.endsOk 4 (2 * len) (wordsOfNums r.1) with
        stages := (s.stages.set (2 * f) ((stageBound g₁ c).ran c r.2.1 len)).set (2 * f + 1)
          ((stageBound g₂ c).ran c r.2.2 len)
        draws := s.draws + boundDraws x.fs fc + 2 * len } := by
  rw [exec_xfApply, execXfApply_eq hr, hx, h₁, h₂]
  simp only [hi, if_true, Stage.bind_eq]

/-- A bind leaves the history (R222, R255). -/
theorem stageBound_hist (g : Stage) (c : Coef Num64) : (stageBound g c).hist = g.hist := by
  unfold stageBound
  split <;> rfl

/-- Settles O43: one set of coefficients is loaded into both stages, and the cascade's intermediate buffer is the first stage's
output. -/
theorem applyCascades : Obligations.ApplyCascades := by
  intro s f len fc x g₁ g₂ hx hi h₁ h₂ hr xs
  have hlen : xs.length = len := numsOfWords_length len s.bufIn
  obtain ⟨us, hus, hys, hhist₁, hhist₂⟩ := cascadeRun_outputs (boundCoef x.kind x.fs fc s.draws)
    (s.draws + boundDraws x.fs fc) g₁.hist g₂.hist xs
  refine ⟨_, us, _, s.draws + boundDraws x.fs fc + 2 * len, boundCoef_mayBind x.kind x.fs fc s.draws, hus, hys, ?_⟩
  rw [exec_xfApply_of_inited fc hx hi h₁ h₂ hr, ← Stage.ran_eq _ _ hlen, ← Stage.ran_eq _ _ (hus.1.trans hlen),
    stageBound_hist, stageBound_hist, ← hhist₁, ← hhist₂]
  rfl

/-! ## Unit indices -/

/-- A stage that does not exist takes no buffer (R126). -/
theorem State.runStage_of_length_le {s : State} {stage : Nat} (h : s.stages.length ≤ stage) (n m : Nat) (xs : List Num64) :
    (s.accept n m).runStage stage xs = s.endsIn n m 2 := by
  rw [State.runStage_eq, List.getElem?_eq_none h]

/-- Settles O41: each command looks its unit up first. -/
theorem unitIndexRange : Obligations.UnitIndexRange := by
  refine ⟨fun s stage len kind fs fc x h => ⟨?_, ?_, fun hr => ?_⟩, fun s f len kind fs fc h => ⟨?_, fun hr => ?_⟩⟩
  · rw [exec_fsBind, execFsBind_eq, List.getElem?_eq_none h]
  · rw [exec_fsStep, execFsStep_eq, State.runStage_of_length_le h]
  · rw [exec_fsRun, execFsRun_eq hr, State.runStage_of_length_le h]
  · rw [exec_xfInit, execXfInit_eq, if_pos h]
  · rw [exec_xfApply, execXfApply_eq hr, List.getElem?_eq_none h]

end Sys2Proof.Machine

/-! SUPPORT. What a stage computes over binary64: a NaN stays (R237), silence stays silent (R240), and each operation rounds once
to nearest (R12). -/

namespace Sys2Proof.Machine

/-! ## The output equation at one index -/

/-- Output `i` of a stage is the output equation's value at the samples around it (R231, R232). -/
theorem StageOutputs.getD_eq {c : Coef Num64} {h : History Num64} {xs ys : List Num64} (hs : StageOutputs c h xs ys) {i : Nat}
    (hi : i < xs.length) : ∃ nan, numIsNaN nan = true ∧ ys.getD i 0 = biquadOut (binary64 nan) c
      ⟨(h.x2 :: h.x1 :: xs).getD (i + 1) 0, (h.x2 :: h.x1 :: xs).getD i 0, (h.y2 :: h.y1 :: ys).getD (i + 1) 0,
        (h.y2 :: h.y1 :: ys).getD i 0⟩ (xs.getD i 0) := by
  obtain ⟨-, hout⟩ := hs
  exact hout i hi

/-! ## NaN -/

theorem numAdd_isNaN {nan a b : Num64} (hn : numIsNaN nan = true) (h : numIsNaN a = true ∨ numIsNaN b = true) :
    numIsNaN (numAdd nan a b) = true := by
  rw [numAdd, if_pos (by simpa using h)]
  exact hn

theorem numMul_isNaN {nan a b : Num64} (hn : numIsNaN nan = true) (h : numIsNaN a = true ∨ numIsNaN b = true) :
    numIsNaN (numMul nan a b) = true := by
  rw [numMul, if_pos (by simpa using h)]
  exact hn

@[simp] theorem numExp_numNeg (x : Num64) : numExp (numNeg x) = numExp x := by
  rw [numExp, numNeg, BitVec.extractLsb'_xor, show (1#64 <<< 63).extractLsb' 52 11 = 0#11 by decide, BitVec.xor_zero, numExp]

@[simp] theorem numFrac_numNeg (x : Num64) : numFrac (numNeg x) = numFrac x := by
  rw [numFrac, numNeg, BitVec.extractLsb'_xor, show (1#64 <<< 63).extractLsb' 0 52 = 0#52 by decide, BitVec.xor_zero, numFrac]

theorem numSub_isNaN {nan a b : Num64} (hn : numIsNaN nan = true) (h : numIsNaN a = true ∨ numIsNaN b = true) :
    numIsNaN (numSub nan a b) = true :=
  numAdd_isNaN hn (by simpa [numIsNaN] using h)

/-- A NaN among the five samples of the output equation makes its value a NaN (R237). -/
theorem biquadOut_isNaN {nan : Num64} {c : Coef Num64} {h : History Num64} {x : Num64} (hn : numIsNaN nan = true)
    (hx : numIsNaN x = true ∨ numIsNaN h.x1 = true ∨ numIsNaN h.x2 = true ∨ numIsNaN h.y1 = true ∨ numIsNaN h.y2 = true) :
    numIsNaN (biquadOut (binary64 nan) c h x) = true := by
  rcases hx with hx | hx | hx | hx | hx
  · exact numSub_isNaN hn (.inl (numSub_isNaN hn (.inl (numAdd_isNaN hn (.inl (numAdd_isNaN hn (.inl
      (numMul_isNaN hn (.inr hx)))))))))
  · exact numSub_isNaN hn (.inl (numSub_isNaN hn (.inl (numAdd_isNaN hn (.inl (numAdd_isNaN hn (.inr
      (numMul_isNaN hn (.inr hx)))))))))
  · exact numSub_isNaN hn (.inl (numSub_isNaN hn (.inl (numAdd_isNaN hn (.inr (numMul_isNaN hn (.inr hx)))))))
  · exact numSub_isNaN hn (.inl (numSub_isNaN hn (.inr (numMul_isNaN hn (.inr hx)))))
  · exact numSub_isNaN hn (.inr (numMul_isNaN hn (.inr hx)))

/-- Settles O47: the output at `i` is a NaN, and from then on the output before each is one of the five samples. -/
theorem naNStays : Obligations.NaNStays := by
  intro c h xs ys i hs hi hnan j hij
  induction j, hij using Nat.le_induction with
  | base =>
    intro _
    obtain ⟨nan, hn, hy⟩ := hs.getD_eq hi
    rw [hy]
    rcases hnan with hx | ⟨rfl, hhist⟩
    · exact biquadOut_isNaN hn (.inl hx)
    · simp only [Bool.or_eq_true, or_assoc] at hhist
      exact biquadOut_isNaN hn (.inr hhist)
  | succ j hij ih =>
    intro hj
    obtain ⟨nan, hn, hy⟩ := hs.getD_eq hj
    rw [hy]
    exact biquadOut_isNaN hn (.inr (.inr (.inr (.inl (ih (by omega))))))

/-! ## Zeros -/

theorem numIsNaN_of_finite {x : Num64} (h : numIsFinite x = true) : numIsNaN x = false := by
  have hor := numIsNaN_or_numIsInf x
  rw [h] at hor
  exact (Bool.or_eq_false_iff.1 hor).1

theorem numIsInf_of_finite {x : Num64} (h : numIsFinite x = true) : numIsInf x = false := by
  have hor := numIsNaN_or_numIsInf x
  rw [h] at hor
  exact (Bool.or_eq_false_iff.1 hor).2

/-- What the two zeros are: finite, of magnitude and value 0, and of their own sign. -/
theorem numPack_zero (s : Bool) : numIsFinite (numPack s 0) = true ∧ numMag (numPack s 0) = 0 ∧
    numVal (numPack s 0) = 0 ∧ numSign (numPack s 0) = s ∧ numNeg (numPack s 0) = numPack (!s) 0 := by
  cases s <;> decide

theorem numIsZero_numPack (s : Bool) : numIsZero (numPack s 0) = true := by cases s <;> decide

theorem roundMag_zero (k : Nat) : roundMag k 0 = 0 := by
  simp [roundMag, roundShift]

/-- A finite number times a zero is a zero, of the sign of the product (R12). -/
theorem numMul_zero (nan : Num64) {a : Num64} (ha : numIsFinite a = true) (s : Bool) :
    numMul nan a (numPack s 0) = numPack (numSign a != s) 0 := by
  obtain ⟨hfin, hmag, -, hsign, -⟩ := numPack_zero s
  rw [numMul, numIsNaN_of_finite ha, numIsNaN_of_finite hfin, numIsInf_of_finite ha, numIsInf_of_finite hfin, hmag, hsign,
    Nat.mul_zero, roundMag_zero]
  rfl

/-- The sum of two zeros is a zero, negative when both are (R12). -/
theorem numAdd_zero (nan : Num64) (s t : Bool) : numAdd nan (numPack s 0) (numPack t 0) = numPack (s && t) 0 := by
  obtain ⟨hfins, -, hvals, hsigns, -⟩ := numPack_zero s
  obtain ⟨hfint, -, hvalt, hsignt, -⟩ := numPack_zero t
  rw [numAdd, numIsNaN_of_finite hfins, numIsNaN_of_finite hfint, numIsInf_of_finite hfins, numIsInf_of_finite hfint, hvals,
    hvalt, hsigns, hsignt]
  rfl

theorem numSub_zero (nan : Num64) (s t : Bool) : numSub nan (numPack s 0) (numPack t 0) = numPack (s && !t) 0 := by
  obtain ⟨-, -, -, -, hneg⟩ := numPack_zero t
  rw [numSub, hneg, numAdd_zero]

/-- A zero that is `+0.0` when `b0` is positive: what every output of silence is (R240). -/
def SilentFor (c : Coef Num64) (y : Num64) : Prop := ∃ s, y = numPack s 0 ∧ (numPositive c.b0 = true → s = false)

theorem silentFor_zero (c : Coef Num64) : SilentFor c 0 := ⟨false, rfl, fun _ => rfl⟩

/-- Finite coefficients over zero samples and silent outputs give a silent output (R240). -/
theorem biquadOut_silent (nan : Num64) {c : Coef Num64} {y1 y2 : Num64} (h0 : numIsFinite c.b0 = true)
    (h1 : numIsFinite c.b1 = true) (h2 : numIsFinite c.b2 = true) (h3 : numIsFinite c.a1 = true) (h4 : numIsFinite c.a2 = true)
    (hy1 : SilentFor c y1) (hy2 : SilentFor c y2) : SilentFor c (biquadOut (binary64 nan) c ⟨0, 0, y1, y2⟩ 0) := by
  obtain ⟨s1, rfl, -⟩ := hy1
  obtain ⟨s2, rfl, -⟩ := hy2
  have hzero : (0 : Num64) = numPack false 0 := rfl
  simp only [biquadOut, binary64, hzero, numMul_zero nan h0, numMul_zero nan h1, numMul_zero nan h2, numMul_zero nan h3,
    numMul_zero nan h4, numAdd_zero, numSub_zero]
  refine ⟨_, rfl, fun hpos => ?_⟩
  have hsign : numSign c.b0 = false := by
    simp only [numPositive, Bool.and_eq_true, Bool.not_eq_true'] at hpos
    exact hpos.1.2
  simp [hsign]

/-- Settles O46: every output is silent, by strong induction on its index. -/
theorem silenceStaysSilent : Obligations.SilenceStaysSilent := by
  intro c xs ys hs hxs h0 h1 h2 h3 h4
  have hx (i : Nat) : xs.getD i 0 = 0 := by
    rw [List.getD_eq_getElem?_getD]
    cases hi : xs[i]? with
    | none => rfl
    | some x => exact hxs x (List.mem_of_getElem? hi)
  have hx' (i : Nat) : ((0 : Num64) :: 0 :: xs).getD i 0 = 0 := by
    rcases i with _ | _ | i
    · rfl
    · rfl
    · exact hx i
  have silent (i : Nat) : i < xs.length → SilentFor c (ys.getD i 0) := by
    induction i using Nat.strong_induction_on with
    | _ i ih =>
      intro hi
      have earlier {k : Nat} (hk : k ≤ i + 1) : SilentFor c (((0 : Num64) :: 0 :: ys).getD k 0) := by
        rcases k with _ | _ | k
        · exact silentFor_zero c
        · exact silentFor_zero c
        · exact ih k (by omega) (by omega)
      obtain ⟨nan, -, hy⟩ := hs.getD_eq hi
      rw [hy, hx i, hx', hx']
      exact biquadOut_silent nan h0 h1 h2 h3 h4 (earlier (Nat.le_refl _)) (earlier (Nat.le_succ _))
  intro y hy
  obtain ⟨i, hi, rfl⟩ := List.getElem_of_mem hy
  obtain ⟨s, hzero, hpos⟩ := silent i (hs.1 ▸ hi)
  rw [List.getD_eq_getElem _ _ hi] at hzero
  rw [hzero]
  refine ⟨numIsZero_numPack s, fun hb => ?_⟩
  rw [hpos hb]
  rfl

/-! ## Rounding -/

theorem numSign_numPack (neg : Bool) {low : Nat} (h : low < 2 ^ 63) : numSign (numPack neg low) = neg := by
  rw [numSign, numPack, BitVec.getLsbD_ofNat, Nat.testBit_eq_decide_div_mod_eq]
  cases neg
  · simp only [Bool.false_eq_true, if_false, Nat.add_zero, Nat.div_eq_of_lt h]
    rfl
  · simp only [if_true, Nat.add_div_right low (show 0 < 2 ^ 63 by omega), Nat.div_eq_of_lt h]
    rfl

theorem numExp_numPack (neg : Bool) {low : Nat} (h : low < 2 ^ 63) : numExp (numPack neg low) = low / 2 ^ 52 := by
  rw [numExp, numPack, BitVec.extractLsb'_toNat, BitVec.toNat_ofNat, Nat.shiftRight_eq_div_pow]
  split <;> omega

theorem numFrac_numPack (neg : Bool) (low : Nat) : numFrac (numPack neg low) = low % 2 ^ 52 := by
  rw [numFrac, numPack, BitVec.extractLsb'_toNat, BitVec.toNat_ofNat, Nat.shiftRight_eq_div_pow]
  split <;> omega

/-- The low bits `e * 2^52 + q` stand for the magnitude `q * 2^e`, where `q` has 53 bits (or fewer in the lowest binade), and
also when `q` is one more than that (R123). -/
theorem numMag_numPack (neg : Bool) {e q : Nat} (hlow : e * 2 ^ 52 + q < 2 ^ 63) (hq : q ≤ 2 ^ 53) (hlo : e = 0 ∨ 2 ^ 52 ≤ q) :
    numMag (numPack neg (e * 2 ^ 52 + q)) = q * 2 ^ e := by
  rw [numMag, numExp_numPack neg hlow, numFrac_numPack]
  by_cases hsub : q < 2 ^ 52
  · obtain rfl : e = 0 := hlo.resolve_right (by omega)
    rw [if_pos (by omega)]
    omega
  by_cases htop : q = 2 ^ 53
  · subst htop
    have hdiv : (e * 2 ^ 52 + 2 ^ 53) / 2 ^ 52 = e + 2 := by omega
    have hmod : (e * 2 ^ 52 + 2 ^ 53) % 2 ^ 52 = 0 := by omega
    rw [hdiv, hmod, if_neg (by omega), show e + 2 - 1 = e + 1 by omega, pow_succ]
    ring
  · have hdiv : (e * 2 ^ 52 + q) / 2 ^ 52 = e + 1 := by omega
    have hmod : 2 ^ 52 + (e * 2 ^ 52 + q) % 2 ^ 52 = q := by omega
    rw [hdiv, hmod, if_neg (by omega), Nat.add_sub_cancel]

/-- Every magnitude is a multiple of `2^e` or below the binade in which multiples of `2^e` begin. -/
theorem numMag_grid (w : Num64) (e : Nat) : 2 ^ e ∣ numMag w ∨ numMag w < 2 ^ (52 + e) := by
  have hfrac : numFrac w < 2 ^ 52 := BitVec.isLt _
  unfold numMag
  split
  · exact .inr (hfrac.trans_le (Nat.pow_le_pow_right (by omega) (by omega)))
  · rcases Nat.lt_or_ge (numExp w - 1) e with hlt | hge
    · right
      calc (2 ^ 52 + numFrac w) * 2 ^ (numExp w - 1)
          < 2 ^ 53 * 2 ^ (numExp w - 1) := Nat.mul_lt_mul_of_pos_right (by omega) (by positivity)
        _ = 2 ^ (53 + (numExp w - 1)) := (pow_add 2 53 _).symm
        _ ≤ 2 ^ (52 + e) := Nat.pow_le_pow_right (by omega) (by omega)
    · exact .inl (Dvd.dvd.mul_left (pow_dvd_pow 2 hge) _)

/-- `roundShift` rounds to a nearest multiple of `2^d` (R12). -/
theorem roundShift_nearest (n d : Nat) (j : ℤ) :
    |(roundShift n d : ℤ) * 2 ^ d - n| ≤ |j * 2 ^ d - n| := by
  obtain ⟨q, r, hr, hn, hround⟩ : ∃ q r : Nat, r < 2 ^ d ∧ n = q * 2 ^ d + r ∧
      ((roundShift n d = q ∧ 2 * r ≤ 2 ^ d) ∨ (roundShift n d = q + 1 ∧ 2 ^ d ≤ 2 * r)) := by
    refine ⟨n / 2 ^ d, n % 2 ^ d, Nat.mod_lt _ (by positivity), (Nat.div_add_mod' n (2 ^ d)).symm, ?_⟩
    unfold roundShift
    dsimp only
    split
    · exact .inr ⟨rfl, by omega⟩
    · exact .inl ⟨rfl, by omega⟩
  have hB : (0 : ℤ) < 2 ^ d := by positivity
  have hrB : (r : ℤ) < 2 ^ d := by exact_mod_cast hr
  have hnB : (n : ℤ) = q * 2 ^ d + r := by exact_mod_cast hn
  have hbelow (hj : j ≤ q) : j * 2 ^ d ≤ q * 2 ^ d := mul_le_mul_of_nonneg_right hj hB.le
  have habove (hj : (q : ℤ) + 1 ≤ j) : (q + 1 : ℤ) * 2 ^ d ≤ j * 2 ^ d := mul_le_mul_of_nonneg_right hj hB.le
  rw [hnB]
  rcases hround with ⟨e, hhalf⟩ | ⟨e, hhalf⟩
  · have hhalf' : 2 * (r : ℤ) ≤ 2 ^ d := by exact_mod_cast hhalf
    rw [e]
    rcases lt_or_ge (q : ℤ) j with hj | hj
    · have := habove hj
      rw [abs_of_nonpos (by linarith), abs_of_nonneg (by linarith)]
      linarith
    · have := hbelow hj
      rw [abs_of_nonpos (by linarith), abs_of_nonpos (by linarith)]
      linarith
  · have hhalf' : (2 : ℤ) ^ d ≤ 2 * r := by exact_mod_cast hhalf
    rw [e]
    push_cast
    rcases lt_or_ge (q : ℤ) j with hj | hj
    · have := habove hj
      rw [abs_of_nonneg (by linarith), abs_of_nonneg (by linarith)]
      linarith
    · have := hbelow hj
      rw [abs_of_nonneg (by linarith), abs_of_nonpos (by linarith)]
      linarith

/-- How many low bits of a magnitude `n`, counted in units of `2^-(1074+k)`, do not fit. -/
def lostBits (k n : Nat) : Nat := max k (n.log2 - 52)

theorem lostBits_cases (k n : Nat) :
    k ≤ lostBits k n ∧ n.log2 ≤ lostBits k n + 52 ∧ (lostBits k n = k ∨ lostBits k n = n.log2 - 52) := by
  unfold lostBits
  omega

theorem roundMag_eq (k n : Nat) : roundMag k n =
    min ((lostBits k n - k) * 2 ^ 52 + roundShift n (lostBits k n)) infPattern := rfl

/-- Above the lowest binade a magnitude to be rounded keeps 53 bits. -/
theorem two_pow_le_of_lostBits {k n : Nat} (h : k < lostBits k n) : 2 ^ (52 + lostBits k n) ≤ n := by
  obtain ⟨-, -, hcases⟩ := lostBits_cases k n
  have hd : lostBits k n = n.log2 - 52 := hcases.resolve_left (Nat.ne_of_gt h)
  have hn : n ≠ 0 := by
    rintro rfl
    rw [Nat.log2_zero] at hd
    omega
  rw [hd, show 52 + (n.log2 - 52) = n.log2 by omega]
  exact Nat.log2_self_le hn

theorem roundShift_bounds (n d : Nat) : n / 2 ^ d ≤ roundShift n d ∧ roundShift n d ≤ n / 2 ^ d + 1 := by
  unfold roundShift
  dsimp only
  split <;> omega

/-- What is kept has at most 53 bits, or is one more than that. -/
theorem roundShift_lostBits_le (k n : Nat) : roundShift n (lostBits k n) ≤ 2 ^ 53 := by
  have hlt : n < 2 ^ (53 + lostBits k n) := by
    obtain ⟨-, hlog, -⟩ := lostBits_cases k n
    exact (Nat.lt_log2_self (n := n)).trans_le (Nat.pow_le_pow_right (by omega) (by omega))
  have hdiv : n / 2 ^ lostBits k n < 2 ^ 53 := by
    rw [Nat.div_lt_iff_lt_mul (by positivity), ← pow_add]
    exact hlt
  have := (roundShift_bounds n (lostBits k n)).2
  omega

/-- A finite rounding is the rounded multiple of the lost bits' unit. -/
theorem numMag_roundMag (neg : Bool) {k n : Nat} (h : roundMag k n < infPattern) :
    numMag (numPack neg (roundMag k n)) * 2 ^ k = roundShift n (lostBits k n) * 2 ^ lostBits k n := by
  have hinf : infPattern = 2047 * 2 ^ 52 := rfl
  obtain ⟨hk, -, -⟩ := lostBits_cases k n
  have hlo : lostBits k n - k = 0 ∨ 2 ^ 52 ≤ roundShift n (lostBits k n) := by
    rcases Nat.eq_or_lt_of_le hk with he | hlt
    · exact .inl (by omega)
    · refine .inr (Nat.le_trans ?_ (roundShift_bounds n _).1)
      rw [Nat.le_div_iff_mul_le (by positivity), ← pow_add]
      exact two_pow_le_of_lostBits hlt
  rw [roundMag_eq] at h ⊢
  rw [Nat.min_eq_left (by omega), numMag_numPack neg (by omega) (roundShift_lostBits_le k n) hlo, Nat.mul_assoc, ← pow_add,
    Nat.sub_add_cancel hk]

/-- No magnitude is nearer to `n`, counted in units of `2^-(1074+k)`, than the finite one it is rounded to (R12). -/
theorem roundMag_nearest (neg : Bool) {k n : Nat} (h : roundMag k n < infPattern) (w : Num64) :
    |(numMag (numPack neg (roundMag k n)) * 2 ^ k - n : ℤ)| ≤ |(numMag w * 2 ^ k - n : ℤ)| := by
  have hround : (numMag (numPack neg (roundMag k n)) * 2 ^ k : ℤ) = roundShift n (lostBits k n) * 2 ^ lostBits k n := by
    exact_mod_cast numMag_roundMag neg h
  rw [hround]
  have hk : lostBits k n = (lostBits k n - k) + k := (Nat.sub_add_cancel (lostBits_cases k n).1).symm
  by_cases hdvd : 2 ^ (lostBits k n - k) ∣ numMag w
  · obtain ⟨j, hj⟩ := hdvd
    have hw : (numMag w * 2 ^ k : ℤ) = j * 2 ^ lostBits k n := by
      rw [hj]
      conv_rhs => rw [hk, pow_add]
      push_cast
      ring
    rw [hw]
    exact roundShift_nearest n (lostBits k n) j
  · have hlt := (numMag_grid w (lostBits k n - k)).resolve_left hdvd
    have hpos : k < lostBits k n := by
      by_contra hle
      exact hdvd (by rw [Nat.sub_eq_zero_of_le (by omega), pow_zero]; exact one_dvd _)
    have hn := two_pow_le_of_lostBits hpos
    have hw : numMag w * 2 ^ k ≤ 2 ^ 52 * 2 ^ lostBits k n := by
      conv_rhs => rw [hk, pow_add, ← Nat.mul_assoc, ← pow_add]
      exact Nat.mul_le_mul_right _ hlt.le
    rw [pow_add] at hn
    have hw' : (numMag w * 2 ^ k : ℤ) ≤ 2 ^ 52 * 2 ^ lostBits k n := by exact_mod_cast hw
    have hn' : (2 ^ 52 * 2 ^ lostBits k n : ℤ) ≤ n := by exact_mod_cast hn
    refine (roundShift_nearest n (lostBits k n) (2 ^ 52)).trans ?_
    rw [abs_of_nonpos (by linarith), abs_of_nonpos (by linarith)]
    linarith

theorem abs_numVal (w : Num64) : |numVal w| = numMag w := by
  unfold numVal
  split
  · rw [abs_neg, Nat.abs_cast]
  · rw [Nat.abs_cast]

/-- An integer with its sign taken apart. -/
theorem abs_signed (neg : Bool) (n : Nat) : |(if neg then -(n : ℤ) else n)| = n := by
  cases neg <;> simp

/-- Two integers of one sign are as far apart as their magnitudes. -/
theorem abs_signed_sub (neg : Bool) (a n : ℤ) : |(if neg then -a else a) - (if neg then -n else n)| = |a - n| := by
  cases neg
  · simp
  · rw [if_pos rfl, if_pos rfl, ← abs_neg]
    congr 1
    ring

/-- With signs: a finite number rounded from an integer is as near to it as any (R12). -/
theorem numPack_nearest {neg : Bool} {k n : Nat} (hfin : numIsFinite (numPack neg (roundMag k n)) = true) (w : Num64) :
    |numVal (numPack neg (roundMag k n)) * 2 ^ k - (if neg then -(n : ℤ) else n)| ≤
      |numVal w * 2 ^ k - (if neg then -(n : ℤ) else n)| := by
  have hinf : infPattern = 2047 * 2 ^ 52 := rfl
  have hle : roundMag k n ≤ infPattern := Nat.min_le_right _ _
  have hlow : roundMag k n < 2 ^ 63 := by omega
  have hlt : roundMag k n < infPattern := by
    rw [numIsFinite, numExp_numPack neg hlow, bne_iff_ne] at hfin
    omega
  calc |numVal (numPack neg (roundMag k n)) * 2 ^ k - (if neg then -(n : ℤ) else n)|
      = |(numMag (numPack neg (roundMag k n)) * 2 ^ k - n : ℤ)| := by
        rw [numVal, numSign_numPack neg hlow, ite_mul, neg_mul, abs_signed_sub]
    _ ≤ |(numMag w * 2 ^ k - n : ℤ)| := roundMag_nearest neg hlt w
    _ = |(|numVal w * 2 ^ k| - |(if neg then -(n : ℤ) else n)|)| := by
        rw [abs_mul, abs_numVal, abs_of_nonneg (show (0 : ℤ) ≤ 2 ^ k by positivity), abs_signed]
    _ ≤ |numVal w * 2 ^ k - (if neg then -(n : ℤ) else n)| := abs_abs_sub_abs_le _ _

theorem eq_signed_natAbs (z : ℤ) : z = if decide (z < 0) then -(z.natAbs : ℤ) else z.natAbs := by
  simp only [decide_eq_true_eq]
  split <;> omega

theorem numVal_mul_numVal (x y : Num64) : numVal x * numVal y =
    if numSign x != numSign y then -((numMag x * numMag y : Nat) : ℤ) else (numMag x * numMag y : Nat) := by
  unfold numVal
  cases numSign x <;> cases numSign y <;> simp

/-- The sum of two finite numbers, zero or rounded once (R12). -/
theorem numAdd_finite (nan : Num64) {x y : Num64} (hx : numIsFinite x = true) (hy : numIsFinite y = true) :
    numAdd nan x y = if numVal x + numVal y = 0 then numPack (numSign x && numSign y) 0
      else numPack (decide (numVal x + numVal y < 0)) (roundMag 0 (numVal x + numVal y).natAbs) := by
  rw [numAdd, numIsNaN_of_finite hx, numIsNaN_of_finite hy, numIsInf_of_finite hx, numIsInf_of_finite hy]
  simp only [Bool.or_self, Bool.false_eq_true, if_false]

/-- The product of two finite numbers, rounded once (R12). -/
theorem numMul_finite (nan : Num64) {x y : Num64} (hx : numIsFinite x = true) (hy : numIsFinite y = true) :
    numMul nan x y = numPack (numSign x != numSign y) (roundMag 1074 (numMag x * numMag y)) := by
  rw [numMul, numIsNaN_of_finite hx, numIsNaN_of_finite hy, numIsInf_of_finite hx, numIsInf_of_finite hy]
  simp only [Bool.or_self, Bool.false_eq_true, if_false]

theorem numAdd_nearest {nan x y : Num64} (hx : numIsFinite x = true) (hy : numIsFinite y = true)
    (hfin : numIsFinite (numAdd nan x y) = true) (w : Num64) :
    |numVal (numAdd nan x y) - (numVal x + numVal y)| ≤ |numVal w - (numVal x + numVal y)| := by
  rw [numAdd_finite nan hx hy] at hfin ⊢
  by_cases hz : numVal x + numVal y = 0
  · obtain ⟨-, -, hval, -, -⟩ := numPack_zero (numSign x && numSign y)
    rw [if_pos hz, hval, hz, sub_zero, abs_zero]
    exact abs_nonneg _
  · rw [if_neg hz] at hfin ⊢
    have hnear := numPack_nearest hfin w
    rwa [← eq_signed_natAbs, pow_zero, mul_one, mul_one] at hnear

theorem numMul_nearest {nan x y : Num64} (hx : numIsFinite x = true) (hy : numIsFinite y = true)
    (hfin : numIsFinite (numMul nan x y) = true) (w : Num64) :
    |numVal (numMul nan x y) * 2 ^ 1074 - numVal x * numVal y| ≤ |numVal w * 2 ^ 1074 - numVal x * numVal y| := by
  rw [numMul_finite nan hx hy] at hfin ⊢
  rw [numVal_mul_numVal]
  exact numPack_nearest hfin w

/-- Settles O45: sum and product are each one exact integer, rounded once to a nearest number. -/
theorem roundsToNearest : Obligations.RoundsToNearest :=
  fun _ _ _ hx hy => ⟨fun hfin w _ => numAdd_nearest hx hy hfin w, fun hfin w _ => numMul_nearest hx hy hfin w⟩

end Sys2Proof.Machine

/-! SUPPORT. The reference design over the reals (R225 to R228, R262): its two forms, its stability, and the sum of its two
cascades. -/

namespace Sys2Proof.Machine

/-- The denominator of the reference design (R225). -/
noncomputable def refDen (k : ℝ) : ℝ := 1 + Real.sqrt 2 * k + k ^ 2

theorem IsReferenceLowPass.coefs {k : ℝ} {c : Coef ℝ} (h : IsReferenceLowPass k c) :
    c = ⟨k ^ 2 / refDen k, 2 * k ^ 2 / refDen k, k ^ 2 / refDen k, 2 * (k ^ 2 - 1) / refDen k,
      (1 - Real.sqrt 2 * k + k ^ 2) / refDen k⟩ := by
  obtain ⟨_, rfl, h0, h1, h2, h3, h4⟩ := h
  cases c
  simp_all only [refDen]

theorem IsReferenceHighPass.coefs {k : ℝ} {c : Coef ℝ} (h : IsReferenceHighPass k c) :
    c = ⟨1 / refDen k, -2 / refDen k, 1 / refDen k, 2 * (k ^ 2 - 1) / refDen k,
      (1 - Real.sqrt 2 * k + k ^ 2) / refDen k⟩ := by
  obtain ⟨_, rfl, h0, h1, h2, h3, h4⟩ := h
  cases c
  simp_all only [refDen]

theorem one_lt_refDen {k : ℝ} (hk : 0 < k) : 1 < refDen k := by
  have : 0 < Real.sqrt 2 * k := by positivity
  have : 0 < k ^ 2 := by positivity
  unfold refDen
  linarith

/-- The numerator of the feedback coefficient `a2` is positive. -/
theorem refNum_pos (k : ℝ) : 0 < 1 - Real.sqrt 2 * k + k ^ 2 := by
  have h2 : Real.sqrt 2 ^ 2 = 2 := Real.sq_sqrt (by norm_num)
  nlinarith [sq_nonneg (k - Real.sqrt 2 / 2)]

/-! ## The two forms -/

/-- The angle of `K` lies in the first quadrant for a legal cutoff. -/
theorem angle_mem {fs fc : ℝ} (hfs : 0 < fs) (hfc : 0 < fc) (hlt : fc < fs / 2) :
    0 < Real.pi * fc / fs ∧ Real.pi * fc / fs < Real.pi / 2 := by
  refine ⟨by have := Real.pi_pos; positivity, ?_⟩
  rw [div_lt_iff₀ hfs]
  nlinarith [Real.pi_pos]

/-- Half-angle formulas: sine and cosine of the double angle by the tangent. -/
theorem sin_cos_two_mul_tan {t : ℝ} (hcos : Real.cos t ≠ 0) :
    Real.sin (2 * t) = 2 * Real.tan t / (1 + Real.tan t ^ 2) ∧
      Real.cos (2 * t) = (1 - Real.tan t ^ 2) / (1 + Real.tan t ^ 2) := by
  have hone := Real.sin_sq_add_cos_sq t
  have hden : 1 + Real.tan t ^ 2 = 1 / Real.cos t ^ 2 := by
    rw [Real.tan_eq_sin_div_cos]
    field_simp
    linarith
  rw [hden, Real.sin_two_mul, Real.cos_two_mul, Real.tan_eq_sin_div_cos]
  constructor
  · field_simp
  · field_simp
    linarith

/-- Settles O48: with `K` the tangent of half the angle, both forms have the same denominator up to `1 + K^2`. -/
theorem referenceForms : Obligations.ReferenceForms := by
  rintro fs fc lp hp hfs hfc hlt ⟨k, hk, hlp⟩ ⟨k', hk', hhp⟩ w0 alpha a0
  obtain rfl : k' = k := hk'.trans hk.symm
  rw [hlp.coefs, hhp.coefs]
  obtain ⟨hpos, hlt'⟩ := angle_mem hfs hfc hlt
  have hkpos : 0 < k' := hk ▸ Real.tan_pos_of_pos_of_lt_pi_div_two hpos hlt'
  have hcos := (Real.cos_pos_of_mem_Ioo ⟨by linarith, hlt'⟩).ne'
  have hw0 : w0 = 2 * (Real.pi * fc / fs) := by ring
  obtain ⟨hsin0, hcos0⟩ := sin_cos_two_mul_tan hcos
  rw [← hw0, ← hk] at hsin0 hcos0
  have hs2 : Real.sqrt 2 ^ 2 = 2 := Real.sq_sqrt (by norm_num)
  have hspos : 0 < Real.sqrt 2 := by positivity
  have halpha : alpha = Real.sqrt 2 * k' / (1 + k' ^ 2) := by
    simp only [alpha, hsin0]
    field_simp
    linarith
  have hden : 0 < refDen k' := one_pos.trans (one_lt_refDen hkpos)
  have hsum : 0 < 1 + k' ^ 2 := by positivity
  have ha0 : a0 = refDen k' / (1 + k' ^ 2) := by
    simp only [a0, halpha, refDen]
    field_simp
    ring
  rw [hcos0, halpha, ha0]
  refine ⟨?_, ?_, ?_, ?_, ?_, ?_, ?_, ?_, ?_, ?_⟩ <;> dsimp only <;> field_simp <;> ring

/-! ## Stability -/

/-- The stability triangle: a root of a real quadratic with `a2 < 1` and `|a1| < 1 + a2` lies inside the unit circle (R228). -/
theorem norm_lt_one_of_root {a1 a2 : ℝ} (h2 : a2 < 1) (h1 : |a1| < 1 + a2) {z : ℂ} (hz : z ^ 2 + a1 * z + a2 = 0) : ‖z‖ < 1 := by
  obtain ⟨hlo, hhi⟩ := abs_lt.1 h1
  have hre : z.re ^ 2 - z.im ^ 2 + a1 * z.re + a2 = 0 := by
    have := congrArg Complex.re hz
    simp [pow_two] at this
    linarith
  have him : z.im * (2 * z.re + a1) = 0 := by
    have := congrArg Complex.im hz
    simp [pow_two] at this
    linarith
  have hnorm : ‖z‖ ^ 2 = z.re ^ 2 + z.im ^ 2 := by
    rw [Complex.sq_norm, Complex.normSq_apply]
    ring
  suffices hlt : z.re ^ 2 + z.im ^ 2 < 1 by
    rw [← hnorm] at hlt
    exact (sq_lt_one_iff₀ (norm_nonneg z)).1 hlt
  rcases mul_eq_zero.1 him with him | hre'
  · rw [him] at hre ⊢
    by_contra hge
    rcases le_or_gt 0 z.re with hx | hx
    · have hx1 : 1 ≤ z.re := by nlinarith
      nlinarith
    · have hx1 : z.re ≤ -1 := by nlinarith
      nlinarith
  · have : z.re ^ 2 + z.im ^ 2 = a2 := by
      have ha1 : a1 = -(2 * z.re) := by linarith
      rw [ha1] at hre
      linarith
    linarith

/-- The feedback coefficients of either reference design lie in the stability triangle (R228). -/
theorem refPoles {k : ℝ} (hk : 0 < k) :
    0 < (1 - Real.sqrt 2 * k + k ^ 2) / refDen k ∧ (1 - Real.sqrt 2 * k + k ^ 2) / refDen k < 1 ∧
      |2 * (k ^ 2 - 1) / refDen k| < 1 + (1 - Real.sqrt 2 * k + k ^ 2) / refDen k := by
  have hden : 0 < refDen k := one_pos.trans (one_lt_refDen hk)
  have hs : 0 < Real.sqrt 2 * k := by positivity
  refine ⟨div_pos (refNum_pos k) hden, ?_, ?_⟩
  · rw [div_lt_one hden, refDen]
    linarith
  · have hsum : 1 + (1 - Real.sqrt 2 * k + k ^ 2) / refDen k = 2 * (1 + k ^ 2) / refDen k := by
      rw [refDen] at hden ⊢
      field_simp
      ring
    have hk2 : 0 < k ^ 2 := by positivity
    rw [hsum, abs_div, abs_of_pos hden, div_lt_div_iff_of_pos_right hden, abs_lt]
    constructor <;> linarith

/-- The gains of the reference low-pass: 1 at `z = 1`, 0 at `z = -1` (R228). -/
theorem IsReferenceLowPass.gains {k : ℝ} {c : Coef ℝ} (hk : 0 < k) (h : IsReferenceLowPass k c) :
    (c.b0 + c.b1 + c.b2) / (1 + c.a1 + c.a2) = 1 ∧ (c.b0 - c.b1 + c.b2) / (1 - c.a1 + c.a2) = 0 := by
  have hden : 0 < refDen k := one_pos.trans (one_lt_refDen hk)
  rw [h.coefs]
  have hsum : 1 + 2 * (k ^ 2 - 1) / refDen k + (1 - Real.sqrt 2 * k + k ^ 2) / refDen k = 4 * k ^ 2 / refDen k := by
    rw [refDen] at hden ⊢
    field_simp
    ring
  constructor
  · dsimp only
    rw [hsum]
    field_simp
    norm_num
  · dsimp only
    rw [show k ^ 2 / refDen k - 2 * k ^ 2 / refDen k + k ^ 2 / refDen k = 0 by ring, zero_div]

/-- The gains of the reference high-pass: 0 at `z = 1`, 1 at `z = -1` (R228). -/
theorem IsReferenceHighPass.gains {k : ℝ} {c : Coef ℝ} (hk : 0 < k) (h : IsReferenceHighPass k c) :
    (c.b0 + c.b1 + c.b2) / (1 + c.a1 + c.a2) = 0 ∧ (c.b0 - c.b1 + c.b2) / (1 - c.a1 + c.a2) = 1 := by
  have hden : 0 < refDen k := one_pos.trans (one_lt_refDen hk)
  rw [h.coefs]
  have hsum : 1 - 2 * (k ^ 2 - 1) / refDen k + (1 - Real.sqrt 2 * k + k ^ 2) / refDen k = 4 / refDen k := by
    rw [refDen] at hden ⊢
    field_simp
    ring
  constructor
  · dsimp only
    rw [show 1 / refDen k + -2 / refDen k + 1 / refDen k = 0 by ring, zero_div]
  · dsimp only
    rw [hsum]
    field_simp
    norm_num

/-- `K` is 1 at a quarter of the sample rate (R228). -/
theorem IsReferenceK.eq_one {fs fc k : ℝ} (hfs : 0 < fs) (hfc : fc = fs / 4) (h : IsReferenceK fs fc k) : k = 1 := by
  rw [h, hfc, show Real.pi * (fs / 4) / fs = Real.pi / 4 by field_simp, Real.tan_pi_div_four]

/-- The values at `K = 1`, where the denominator is `2 + √2` (R228). -/
theorem refValues_one : 1 / refDen 1 = 1 - Real.sqrt 2 / 2 ∧ (1 - Real.sqrt 2 * 1 + 1 ^ 2) / refDen 1 = 3 - 2 * Real.sqrt 2 := by
  have hs : Real.sqrt 2 ^ 2 = 2 := Real.sq_sqrt (by norm_num)
  have hden : 1 + Real.sqrt 2 * 1 + 1 ^ 2 ≠ 0 := by positivity
  rw [refDen, div_eq_iff hden, div_eq_iff hden]
  constructor <;> nlinarith

/-- Settles O49: clause by clause, the poles by the stability triangle. -/
theorem referenceStable : Obligations.ReferenceStable := by
  intro k lp hp hk hlp hhp
  obtain ⟨hpos, hlt, habs⟩ := refPoles hk
  obtain ⟨hlpOne, hlpNeg⟩ := hlp.gains hk
  obtain ⟨hhpOne, hhpNeg⟩ := hhp.gains hk
  refine ⟨one_lt_refDen hk, ?_, ⟨hlpOne, hhpOne⟩, ⟨hhpNeg, hlpNeg⟩, ?_⟩
  · rw [hlp.coefs, hhp.coefs]
    exact ⟨rfl, rfl, hpos, hlt, habs, fun z hz => norm_lt_one_of_root hlt habs hz⟩
  · intro fs fc hfs hfc hkref
    obtain rfl : k = 1 := hkref.eq_one hfs hfc
    obtain ⟨hb0, ha2⟩ := refValues_one
    rw [hlp.coefs, hhp.coefs]
    refine ⟨rfl, ?_, hb0, ?_, ha2, ?_, ?_⟩
    · rw [one_pow, hb0]
    · norm_num
    · ring
    · ring

/-! ## The cascades -/

/-- `P = u^2 + √2 u v + v^2` at `r = √2`, and its other factor at `r = -√2`. With `u = K (1 + w)` and `v = 1 - w` the two
transfer functions of the reference design are `u^2 / P` and `v^2 / P` (R262). -/
noncomputable def cascadeDen (r u v : ℂ) : ℂ := u ^ 2 + r * (u * v) + v ^ 2

/-- `u^4 + v^4` is the product of `P` and its other factor. -/
theorem cascadeDen_mul_neg {r : ℂ} (hr : r ^ 2 = 2) (u v : ℂ) : cascadeDen r u v * cascadeDen (-r) u v = u ^ 4 + v ^ 4 := by
  unfold cascadeDen
  linear_combination (-(u ^ 2 * v ^ 2)) * hr

theorem conj_cascadeDen (r : ℝ) (u v : ℂ) :
    (starRingEnd ℂ) (cascadeDen r u v) = cascadeDen r ((starRingEnd ℂ) u) ((starRingEnd ℂ) v) := by
  simp [cascadeDen]

theorem sq_mul_cascadeDen (w r u v : ℂ) : w ^ 2 * cascadeDen r u v = cascadeDen r (w * u) (w * v) := by
  unfold cascadeDen
  ring

theorem cascadeDen_neg (r u v : ℂ) : cascadeDen r u (-v) = cascadeDen (-r) u v := by
  unfold cascadeDen
  ring

/-- On the unit circle the two factors have the same modulus: conjugation takes one to the other, up to a factor of modulus 1. -/
theorem norm_cascadeDen_neg {w : ℂ} (hw : ‖w‖ = 1) (r k : ℝ) :
    ‖cascadeDen (-r) (k * (1 + w)) (1 - w)‖ = ‖cascadeDen r (k * (1 + w)) (1 - w)‖ := by
  have hconj : w * (starRingEnd ℂ) w = 1 := by
    rw [Complex.mul_conj, Complex.normSq_eq_norm_sq, hw]
    norm_num
  have hu : w * (starRingEnd ℂ) (k * (1 + w)) = k * (1 + w) := by
    rw [map_mul, map_add, map_one, Complex.conj_ofReal]
    linear_combination k * hconj
  have hv : w * (starRingEnd ℂ) (1 - w) = -(1 - w) := by
    rw [map_sub, map_one]
    linear_combination -hconj
  have hturn : cascadeDen (-r) (k * (1 + w)) (1 - w) = w ^ 2 * (starRingEnd ℂ) (cascadeDen r (k * (1 + w)) (1 - w)) := by
    rw [conj_cascadeDen, sq_mul_cascadeDen, hu, hv, cascadeDen_neg]
  rw [hturn, norm_mul, norm_pow, hw, one_pow, one_mul, RCLike.norm_conj]

/-- The feedback polynomial of both reference designs is `P` over their denominator (R225, R226). -/
theorem refDen_mul_feedback {k : ℝ} (hk : 0 < k) (w : ℂ) :
    (refDen k : ℂ) * (1 + (2 * (k ^ 2 - 1) / refDen k : ℝ) * w + ((1 - Real.sqrt 2 * k + k ^ 2) / refDen k : ℝ) * w ^ 2) =
      cascadeDen (Real.sqrt 2) (k * (1 + w)) (1 - w) := by
  have hden : (refDen k : ℂ) ≠ 0 := Complex.ofReal_ne_zero.2 (one_pos.trans (one_lt_refDen hk)).ne'
  push_cast
  field_simp
  simp only [refDen, cascadeDen]
  push_cast
  ring

/-- The transfer function of the reference low-pass (R225). -/
theorem IsReferenceLowPass.transfer {k : ℝ} {c : Coef ℝ} (hk : 0 < k) (h : IsReferenceLowPass k c) {w z : ℂ}
    (hz : HasTransfer c w z) : cascadeDen (Real.sqrt 2) (k * (1 + w)) (1 - w) ≠ 0 ∧
      z * cascadeDen (Real.sqrt 2) (k * (1 + w)) (1 - w) = (k * (1 + w)) ^ 2 := by
  have hden : (refDen k : ℂ) ≠ 0 := Complex.ofReal_ne_zero.2 (one_pos.trans (one_lt_refDen hk)).ne'
  obtain ⟨hne, heq⟩ := h.coefs ▸ hz
  rw [← refDen_mul_feedback hk]
  refine ⟨mul_ne_zero hden hne, ?_⟩
  rw [mul_left_comm, heq]
  push_cast
  field_simp
  ring

/-- The transfer function of the reference high-pass (R226). -/
theorem IsReferenceHighPass.transfer {k : ℝ} {c : Coef ℝ} (hk : 0 < k) (h : IsReferenceHighPass k c) {w z : ℂ}
    (hz : HasTransfer c w z) : z * cascadeDen (Real.sqrt 2) (k * (1 + w)) (1 - w) = (1 - w) ^ 2 := by
  have hden : (refDen k : ℂ) ≠ 0 := Complex.ofReal_ne_zero.2 (one_pos.trans (one_lt_refDen hk)).ne'
  obtain ⟨-, heq⟩ := h.coefs ▸ hz
  rw [← refDen_mul_feedback hk, mul_left_comm, heq]
  push_cast
  field_simp
  ring

/-- Settles O50: the sum is the quotient of the two factors of `u^4 + v^4`, which have the same modulus. -/
theorem cascadesSumToUnit : Obligations.CascadesSumToUnit := by
  intro k lp hp w zl zh hk hlp hhp hw hl hh
  obtain ⟨hne, hzl⟩ := hlp.transfer hk hl
  have hzh := hhp.transfer hk hh
  have hr : (Real.sqrt 2 : ℂ) ^ 2 = 2 := by
    rw [← Complex.ofReal_pow, Real.sq_sqrt (by norm_num)]
    norm_num
  have hprod := cascadeDen_mul_neg hr (k * (1 + w)) (1 - w)
  have hquot : (zl ^ 2 + zh ^ 2) * cascadeDen (Real.sqrt 2) (k * (1 + w)) (1 - w) =
      cascadeDen (-Real.sqrt 2) (k * (1 + w)) (1 - w) := by
    refine mul_left_cancel₀ hne ?_
    rw [hprod]
    linear_combination (zl * cascadeDen (Real.sqrt 2) (k * (1 + w)) (1 - w) + (k * (1 + w)) ^ 2) * hzl +
      (zh * cascadeDen (Real.sqrt 2) (k * (1 + w)) (1 - w) + (1 - w) ^ 2) * hzh
  have hnorm := congrArg norm hquot
  rw [norm_mul, norm_cascadeDen_neg hw] at hnorm
  exact mul_right_cancel₀ (norm_ne_zero_iff.2 hne) (hnorm.trans (one_mul _).symm)

end Sys2Proof.Machine
